-- ==== Sys2Proof/Word.lean ====
section
/-! DEFINITION. The words of the block: bytes, glyph keys and bus addresses (spec 00_scope.md R10, R12).
Pixels and control-line levels are one bit each and are written `Bool`; coordinates are unbounded `Int` (R11). -/

namespace Sys2Proof

/-- One framebuffer byte, one byte on the wire, one command argument (R10). -/
abbrev Byte := BitVec 8

/-- A glyph key: three UTF-8 bytes packed most significant first (R79). -/
abbrev GlyphKey := BitVec 24

/-- A 7-bit 2-wire device address (R9, parameter `I2C_ADDR`). -/
abbrev DevAddr := BitVec 7

/-- A glyph bitmap: exactly 32 bytes (R76, R77). -/
abbrev Glyph := Vector (BitVec 8) 32

end Sys2Proof
end

