-- ==== Sys2Proof/Config.lean ====
section
/-! DEFINITION. What the spec leaves open (00_scope.md R9, 92_eei_decisions.md "OPEN parameters"): opaque
constants, so that no proof can see a value, and the plain types they range over. `RES_ACTIVE` alone has a
value, the default the spec names (D21); `State.cfg` holds it, so a claim over every state covers both levels. -/

namespace Sys2Proof

/-- The bus oracle's answer to one write (R181). -/
inductive Answer where
  | ok     -- the transport confirms completion
  | fail   -- a transport-level write failure
  | hang   -- no answer, for ever
deriving DecidableEq, Repr, Inhabited

/-- What the 4-wire transport does with chip-select after a failed write (R176: a draw). -/
inductive CsDraw where
  | deassert
  | stay
deriving DecidableEq, Repr, Inhabited

/-- The 4-wire clock polarity and phase (R9, `SPI_MODE`). -/
structure SpiMode where
  polarity : Bool
  phase    : Bool
deriving DecidableEq, Repr, Inhabited

/-- The 4-wire control lines (R43). -/
inductive Line where
  | dc    -- data/command select: 0 = command, 1 = data
  | cs    -- chip-select: 0 = asserted, 1 = deasserted
  | res   -- reset: RES_ACTIVE = asserted
deriving DecidableEq, Repr, Inhabited

/-- One pixel write of the text primitive, relative to the 8×8 cell of the character at position `cell` (R243, T2).
Offsets inside the cell are `Fin 8`, so a write cannot leave its cell. -/
structure TextWrite where
  cell : Nat
  dx   : Fin 8
  dy   : Fin 8
  bit  : Bool
deriving DecidableEq, Repr, Inhabited

/-- `I2C_ADDR` (D23, OPEN; log 14). -/
opaque Config.i2cAddr : DevAddr

/-- `SPI_RATE` less one (D22, OPEN): the rate is a positive integer. -/
opaque Config.spiRateLessOne : Nat

/-- `SPI_RATE` in Hz (D22): positive, otherwise unconstrained. -/
def Config.spiRate : Nat := Config.spiRateLessOne + 1

/-- `SPI_MODE` (D22, OPEN). -/
opaque Config.spiMode : SpiMode

/-- `RES_ACTIVE`: the default 0 that R9 and D21 name (log 13). -/
def Config.resActive : Bool := false

/-- The entries of the glyph ROM `GLYPHS` (D36, OPEN), in no particular order (log 14). -/
opaque Config.glyphTable : List (GlyphKey × Glyph)

/-- The text primitive `TEXT` (D12, OPEN): the writes it makes for a string, in order. It is given no position
and no state, which is T1 and T4; T2 and T3 hold by the form of `TextWrite` (log 9). -/
opaque Config.textPattern : List Char → List TextWrite

/-- The bus answer of draw number `n`, where the environment's list of answers has run out (log 5). -/
opaque Config.busAnswer : Nat → Answer

/-- The chip-select draw number `n`, where the environment's list of draws has run out (log 6). -/
opaque Config.csDraw : Nat → CsDraw

/-- The level of a 4-wire control line before the transport first drives it (log 7). -/
opaque Config.undrivenLine : Line → Bool

/-- What the 4-wire rate register holds before R177 loads `SPI_RATE` (log 7). -/
opaque Config.unloadedRate : Nat

/-- The step index at power-up: unspecified by R33 and R51 (log 8). -/
opaque Config.idleSeq : Nat

end Sys2Proof
end

