-- ==== Sys2Proof/Syntax.lean ====
section
/-! DEFINITION. The instruction set: one constructor per row of spec/opcode_table.json. R2 gives the block two
instruction interfaces, the twelve host operations (30_encoding.md R101) and the 17 wire commands (R104), and
R107 to R111 the four transport frames that carry the wire level. -/

namespace Sys2Proof

/-- The two transport variants (41_transport.md R170). -/
inductive TransportKind where
  | twoWire
  | fourWire
deriving DecidableEq, Repr, Inhabited

inductive Instr where
  /-- `construct W, H, ext_vcc, transport` (R201). -/
  | construct (w h : Int) (extVcc : Bool) (transport : TransportKind)
  /-- `init_sequence` (R205). -/
  | initSequence
  /-- `flush` (R210). -/
  | flush
  /-- `power_on` (R213). -/
  | powerOn
  /-- `power_off` (R214). -/
  | powerOff
  /-- `set_contrast level` (R215). -/
  | setContrast (level : Int)
  /-- `set_inverted flag` (R216). -/
  | setInverted (flag : Int)
  /-- `set_pixel x, y, value` (R142). -/
  | setPixel (x y value : Int)
  /-- `blit src, x, y, bw, bh` (R143). -/
  | blit (src : List Byte) (x y bw bh : Int)
  /-- `clear value` (R145). -/
  | clear (value : Int)
  /-- `draw_text s, col, row` (R242). -/
  | drawText (str : List Char) (col row : Int)
  /-- `draw_wide_glyphs s, col, row` (R246). -/
  | drawWideGlyphs (str : List Char) (col row : Int)
  /-- `SET_DISP`, 0xAE with bit 0 `on` (R271). -/
  | cmdDisp (on : Bool)
  /-- `SET_MEM_ADDR` 0x20, one argument (R272). -/
  | cmdMemAddr (a1 : Byte)
  /-- `SET_DISP_START_LINE` 0x40 (R273). -/
  | cmdDispStartLine
  /-- `SET_SEG_REMAP`, 0xA0 with bit 0 `remap` (R274). -/
  | cmdSegRemap (remap : Bool)
  /-- `SET_MUX_RATIO` 0xA8, one argument (R275). -/
  | cmdMuxRatio (a1 : Byte)
  /-- `SET_COM_OUT_DIR`, 0xC0 with bit 3 `rev` (R276). -/
  | cmdComOutDir (rev : Bool)
  /-- `SET_DISP_OFFSET` 0xD3, one argument (R277). -/
  | cmdDispOffset (a1 : Byte)
  /-- `SET_COM_PIN_CFG` 0xDA, one argument (R278). -/
  | cmdComPinCfg (a1 : Byte)
  /-- `SET_DISP_CLK_DIV` 0xD5, one argument (R279). -/
  | cmdDispClkDiv (a1 : Byte)
  /-- `SET_PRECHARGE` 0xD9, one argument (R280). -/
  | cmdPrecharge (a1 : Byte)
  /-- `SET_VCOM_DESEL` 0xDB, one argument (R281). -/
  | cmdVcomDesel (a1 : Byte)
  /-- `SET_CONTRAST` 0x81, one argument (R282). -/
  | cmdContrast (a1 : Byte)
  /-- `SET_ENTIRE_ON` 0xA4 (R283). -/
  | cmdEntireOn
  /-- `SET_NORM_INV`, 0xA6 with bit 0 `inv` (R284). -/
  | cmdNormInv (inv : Bool)
  /-- `SET_CHARGE_PUMP` 0x8D, one argument (R285). -/
  | cmdChargePump (a1 : Byte)
  /-- `SET_COL_ADDR` 0x21, two arguments (R286). -/
  | cmdColAddr (a1 a2 : Byte)
  /-- `SET_PAGE_ADDR` 0x22, two arguments (R287). -/
  | cmdPageAddr (a1 a2 : Byte)
  /-- 2-wire command frame `[0x80, b]` (R107, R171). -/
  | i2cCommandFrame (b : Byte)
  /-- 2-wire data frame `[0x40] ++ bs` (R108, R172). -/
  | i2cDataFrame (bs : List Byte)
  /-- 4-wire command transfer of one byte (R110, R174). -/
  | spiCommandTransfer (b : Byte)
  /-- 4-wire data transfer (R111, R175). -/
  | spiDataTransfer (bs : List Byte)
deriving DecidableEq, Repr

/-- The table's four encoding spaces, its column "format": a byte has a meaning only inside one of them
(0x40 is SET_DISP_START_LINE as a wire command and the control byte of data as a 2-wire frame). -/
inductive Format where
  | hostRecord
  | wireCommand
  | frame2Wire
  | frame4Wire
deriving DecidableEq, Repr

/-- The encoding space each instruction belongs to (spec/opcode_table.json, column "format"). -/
def Instr.format : Instr → Format
  | .construct _ _ _ _ | .initSequence | .flush | .powerOn | .powerOff | .setContrast _ | .setInverted _
  | .setPixel _ _ _ | .blit _ _ _ _ _ | .clear _ | .drawText _ _ _ | .drawWideGlyphs _ _ _ => .hostRecord
  | .cmdDisp _ | .cmdMemAddr _ | .cmdDispStartLine | .cmdSegRemap _ | .cmdMuxRatio _ | .cmdComOutDir _
  | .cmdDispOffset _ | .cmdComPinCfg _ | .cmdDispClkDiv _ | .cmdPrecharge _ | .cmdVcomDesel _ | .cmdContrast _
  | .cmdEntireOn | .cmdNormInv _ | .cmdChargePump _ | .cmdColAddr _ _ | .cmdPageAddr _ _ => .wireCommand
  | .i2cCommandFrame _ | .i2cDataFrame _ => .frame2Wire
  | .spiCommandTransfer _ | .spiDataTransfer _ => .frame4Wire

end Sys2Proof
end

