-- ==== Sys2Proof/WellFormed.lean ====
section
/-! DEFINITION. The operand domains of the host operations (30_encoding.md R102). An instruction that fails the
check still decodes and still has a meaning: the block refuses it at issue (R103). Wire commands and frames
carry bytes, and every byte is legal there. -/

namespace Sys2Proof

/-- A one-bit operand: 0 or 1 (R102, `flag` and `value`). -/
abbrev isBitOperand (v : Int) : Bool := v == 0 || v == 1

/-- The bytes a `blit` source must hold: `bh * ((bw + 7) // 8)`, asked only of a non-degenerate bitmap (R102, R143). -/
abbrev blitSourceLongEnough (len : Nat) (bw bh : Int) : Bool :=
  if 0 < bw ∧ 0 < bh then decide (bh * ((bw + 7) / 8) ≤ (len : Int)) else true

/-- Every operand lies in its domain (R102). -/
def Instr.wf : Instr → Bool
  | .setContrast level => decide (0 ≤ level ∧ level ≤ 255)
  | .setInverted flag => isBitOperand flag
  | .setPixel _ _ value => isBitOperand value
  | .clear value => isBitOperand value
  | .blit src _ _ bw bh => blitSourceLongEnough src.length bw bh
  | .construct _ _ _ _ | .initSequence | .flush | .powerOn | .powerOff | .drawText _ _ _ | .drawWideGlyphs _ _ _ => true
  | .cmdDisp _ | .cmdMemAddr _ | .cmdDispStartLine | .cmdSegRemap _ | .cmdMuxRatio _ | .cmdComOutDir _
  | .cmdDispOffset _ | .cmdComPinCfg _ | .cmdDispClkDiv _ | .cmdPrecharge _ | .cmdVcomDesel _ | .cmdContrast _
  | .cmdEntireOn | .cmdNormInv _ | .cmdChargePump _ | .cmdColAddr _ _ | .cmdPageAddr _ _ => true
  | .i2cCommandFrame _ | .i2cDataFrame _ | .spiCommandTransfer _ | .spiDataTransfer _ => true

end Sys2Proof
end

