-- ==== Sys2Proof/Decode.lean ====
section
/-! DEFINITION. Decoder and encoder. The wire level is the spec's byte for byte (30_encoding.md R104, R107 to R113).
A host record is `(tag, operands)` (R101); the spec gives its tag and operand order and no binary form, so the
operands' bytes are the model's (log 3). The 4-wire framing has no prefix byte, so its image begins with the level
of the DC line (log 4). -/

namespace Sys2Proof

/-- Why bytes are no instruction. -/
inductive DecodeError where
  | empty
  | unknownTag (t : Byte)
  | unknownOpcode (c : Byte)
  | unknownControlByte (p : Byte)
  | badDcLevel (d : Byte)
  | truncated
  | trailingBytes
  | badBool (b : Byte)
  | badTransport (b : Byte)
  | notAScalarValue (n : Nat)
deriving DecidableEq, Repr

/-! ## Operand bytes of a host record (log 3) -/

/-- A natural number, seven bits a byte, least significant first, bit 7 set on all but the last byte. `fuel` bounds
the length. -/
def encodeNatFuel : Nat → Nat → List Byte
  | 0, n => [BitVec.ofNat 8 n]
  | fuel + 1, n =>
    if n < 128 then [BitVec.ofNat 8 n] else BitVec.ofNat 8 (128 + n % 128) :: encodeNatFuel fuel (n / 128)

def encodeNat (n : Nat) : List Byte := encodeNatFuel n n

/-- Read a number written by `encodeNat`; the rest of the bytes follows. -/
def decodeNat : List Byte → Except DecodeError (Nat × List Byte)
  | [] => .error .truncated
  | b :: bs =>
    if b.toNat < 128 then .ok (b.toNat, bs)
    else
      match decodeNat bs with
      | .ok (n, rest) => .ok (b.toNat - 128 + 128 * n, rest)
      | .error e => .error e

/-- A signed integer as a natural number: 0, -1, 1, -2, … become 0, 1, 2, 3, …. -/
def zigzag : Int → Nat
  | .ofNat n => 2 * n
  | .negSucc n => 2 * n + 1

def unzigzag (n : Nat) : Int := if n % 2 = 0 then .ofNat (n / 2) else .negSucc (n / 2)

def encodeInt (z : Int) : List Byte := encodeNat (zigzag z)

def decodeInt (bs : List Byte) : Except DecodeError (Int × List Byte) :=
  match decodeNat bs with
  | .ok (n, rest) => .ok (unzigzag n, rest)
  | .error e => .error e

def encodeBool (b : Bool) : List Byte := [if b then 1 else 0]

def decodeBool : List Byte → Except DecodeError (Bool × List Byte)
  | [] => .error .truncated
  | b :: bs => if b = 0 then .ok (false, bs) else if b = 1 then .ok (true, bs) else .error (.badBool b)

def encodeKind : TransportKind → List Byte
  | .twoWire => [0]
  | .fourWire => [1]

def decodeKind : List Byte → Except DecodeError (TransportKind × List Byte)
  | [] => .error .truncated
  | b :: bs => if b = 0 then .ok (.twoWire, bs) else if b = 1 then .ok (.fourWire, bs) else .error (.badTransport b)

/-- The first `n` bytes and the rest. -/
def decodeBytes : Nat → List Byte → Except DecodeError (List Byte × List Byte)
  | 0, bs => .ok ([], bs)
  | _ + 1, [] => .error .truncated
  | n + 1, b :: bs =>
    match decodeBytes n bs with
    | .ok (xs, rest) => .ok (b :: xs, rest)
    | .error e => .error e

/-- A byte list: its length, then its bytes. -/
def encodeByteList (bs : List Byte) : List Byte := encodeNat bs.length ++ bs

def decodeByteList (bs : List Byte) : Except DecodeError (List Byte × List Byte) :=
  match decodeNat bs with
  | .ok (n, rest) => decodeBytes n rest
  | .error e => .error e

/-- One Unicode scalar value (R17), as its code point; surrogates and numbers past 0x10FFFF are none. -/
def decodeChar (bs : List Byte) : Except DecodeError (Char × List Byte) :=
  match decodeNat bs with
  | .ok (n, rest) => if n.isValidChar then .ok (Char.ofNat n, rest) else .error (.notAScalarValue n)
  | .error e => .error e

def decodeChars : Nat → List Byte → Except DecodeError (List Char × List Byte)
  | 0, bs => .ok ([], bs)
  | n + 1, bs =>
    match decodeChar bs with
    | .ok (c, rest) =>
      match decodeChars n rest with
      | .ok (cs, rest') => .ok (c :: cs, rest')
      | .error e => .error e
    | .error e => .error e

def encodeChars : List Char → List Byte
  | [] => []
  | c :: cs => encodeNat c.toNat ++ encodeChars cs

/-- A string: its length in characters, then its code points. -/
def encodeString (str : List Char) : List Byte := encodeNat str.length ++ encodeChars str

def decodeString (bs : List Byte) : Except DecodeError (List Char × List Byte) :=
  match decodeNat bs with
  | .ok (n, rest) => decodeChars n rest
  | .error e => .error e

/-! ## Host records (R101) -/

/-- The record ends where its last operand ends. -/
def endOfRecord (i : Instr) : List Byte → Except DecodeError Instr
  | [] => .ok i
  | _ :: _ => .error .trailingBytes

/-- Operands one after another: read the next one with `read`, go on with it. -/
def operand {α : Type} (read : List Byte → Except DecodeError (α × List Byte))
    (next : α → List Byte → Except DecodeError Instr) (bs : List Byte) : Except DecodeError Instr :=
  match read bs with
  | .ok (a, rest) => next a rest
  | .error e => .error e

/-- The tags 0x01 to 0x0C and the operands in R101's order. -/
def decodeHostOperands (tag : Byte) : List Byte → Except DecodeError Instr :=
  if tag = 0x01 then
    operand decodeInt fun w => operand decodeInt fun h => operand decodeBool fun e => operand decodeKind fun t =>
      endOfRecord (.construct w h e t)
  else if tag = 0x02 then endOfRecord .initSequence
  else if tag = 0x03 then endOfRecord .flush
  else if tag = 0x04 then endOfRecord .powerOn
  else if tag = 0x05 then endOfRecord .powerOff
  else if tag = 0x06 then operand decodeInt fun l => endOfRecord (.setContrast l)
  else if tag = 0x07 then operand decodeInt fun f => endOfRecord (.setInverted f)
  else if tag = 0x08 then
    operand decodeInt fun x => operand decodeInt fun y => operand decodeInt fun v => endOfRecord (.setPixel x y v)
  else if tag = 0x09 then
    operand decodeByteList fun src => operand decodeInt fun x => operand decodeInt fun y =>
      operand decodeInt fun bw => operand decodeInt fun bh => endOfRecord (.blit src x y bw bh)
  else if tag = 0x0A then operand decodeInt fun v => endOfRecord (.clear v)
  else if tag = 0x0B then
    operand decodeString fun str => operand decodeInt fun c => operand decodeInt fun r => endOfRecord (.drawText str c r)
  else if tag = 0x0C then
    operand decodeString fun str => operand decodeInt fun c => operand decodeInt fun r =>
      endOfRecord (.drawWideGlyphs str c r)
  else fun _ => .error (.unknownTag tag)

def decodeHost : List Byte → Except DecodeError Instr
  | [] => .error .empty
  | tag :: rest => decodeHostOperands tag rest

/-! ## Wire commands (R104, R112, R113) -/

/-- One row of the opcode map: an opcode `c` belongs to it when `c &&& mask = base`; `args` is its `k` (R104). -/
structure OpcodeRow where
  base : Byte
  mask : Byte
  args : Nat
deriving DecidableEq, Repr

/-- The 17 register commands with R113's masks and R104's argument counts. -/
def opcodeTable : List OpcodeRow :=
  [⟨0xAE, 0xFE, 0⟩, ⟨0x20, 0xFF, 1⟩, ⟨0x40, 0xFF, 0⟩, ⟨0xA0, 0xFE, 0⟩, ⟨0xA8, 0xFF, 1⟩, ⟨0xC0, 0xF7, 0⟩,
   ⟨0xD3, 0xFF, 1⟩, ⟨0xDA, 0xFF, 1⟩, ⟨0xD5, 0xFF, 1⟩, ⟨0xD9, 0xFF, 1⟩, ⟨0xDB, 0xFF, 1⟩, ⟨0x81, 0xFF, 1⟩,
   ⟨0xA4, 0xFF, 0⟩, ⟨0xA6, 0xFE, 0⟩, ⟨0x8D, 0xFF, 1⟩, ⟨0x21, 0xFF, 2⟩, ⟨0x22, 0xFF, 2⟩]

/-- The argument count `k(c)` of an opcode byte (R104); none for a byte that is no opcode of the map. -/
def argCount (c : Byte) : Option Nat := (opcodeTable.find? fun r => c &&& r.mask == r.base).map (·.args)

/-- A command group of one byte: the opcode alone. -/
def group0 (i : Instr) : List Byte → Except DecodeError Instr
  | [] => .ok i
  | _ :: _ => .error .trailingBytes

/-- A command group of two bytes. -/
def group1 (f : Byte → Instr) : List Byte → Except DecodeError Instr
  | [a] => .ok (f a)
  | [] => .error .truncated
  | _ :: _ :: _ => .error .trailingBytes

/-- A command group of three bytes. -/
def group2 (f : Byte → Byte → Instr) : List Byte → Except DecodeError Instr
  | [a, b] => .ok (f a b)
  | [] | [_] => .error .truncated
  | _ :: _ :: _ :: _ => .error .trailingBytes

/-- One command group: an opcode byte, its one-bit field (R113), and exactly `k` argument bytes (R104, R115). -/
def decodeWire : List Byte → Except DecodeError Instr
  | [] => .error .empty
  | c :: args =>
    if c &&& 0xFE = 0xAE then group0 (.cmdDisp (c.getLsbD 0)) args
    else if c = 0x20 then group1 .cmdMemAddr args
    else if c = 0x40 then group0 .cmdDispStartLine args
    else if c &&& 0xFE = 0xA0 then group0 (.cmdSegRemap (c.getLsbD 0)) args
    else if c = 0xA8 then group1 .cmdMuxRatio args
    else if c &&& 0xF7 = 0xC0 then group0 (.cmdComOutDir (c.getLsbD 3)) args
    else if c = 0xD3 then group1 .cmdDispOffset args
    else if c = 0xDA then group1 .cmdComPinCfg args
    else if c = 0xD5 then group1 .cmdDispClkDiv args
    else if c = 0xD9 then group1 .cmdPrecharge args
    else if c = 0xDB then group1 .cmdVcomDesel args
    else if c = 0x81 then group1 .cmdContrast args
    else if c = 0xA4 then group0 .cmdEntireOn args
    else if c &&& 0xFE = 0xA6 then group0 (.cmdNormInv (c.getLsbD 0)) args
    else if c = 0x8D then group1 .cmdChargePump args
    else if c = 0x21 then group2 .cmdColAddr args
    else if c = 0x22 then group2 .cmdPageAddr args
    else .error (.unknownOpcode c)

/-! ## Transport frames (R107, R108, R110, R111, R115) -/

/-- A 2-wire write transaction: 0x80 and exactly one command byte, or 0x40 and the data block (R115). -/
def decodeFrame2 : List Byte → Except DecodeError Instr
  | [] => .error .empty
  | p :: rest =>
    if p = 0x80 then group1 .i2cCommandFrame rest
    else if p = 0x40 then .ok (.i2cDataFrame rest)
    else .error (.unknownControlByte p)

/-- One chip-select interval: the DC level, then what was written. DC low carries exactly one byte, DC high any
number (R115). -/
def decodeFrame4 : List Byte → Except DecodeError Instr
  | [] => .error .empty
  | d :: rest =>
    if d = 0 then group1 .spiCommandTransfer rest
    else if d = 1 then .ok (.spiDataTransfer rest)
    else .error (.badDcLevel d)

/-- The decoder, one encoding space at a time; total on any bytes. -/
def decode : Format → List Byte → Except DecodeError Instr
  | .hostRecord => decodeHost
  | .wireCommand => decodeWire
  | .frame2Wire => decodeFrame2
  | .frame4Wire => decodeFrame4

/-! ## The encoder -/

/-- An opcode with a one-bit field: `base | (field << position)` (R113). -/
def fieldOpcode (base : Byte) (position : Nat) (field : Bool) : Byte :=
  base ||| ((if field then 1 else 0) <<< position)

/-- The bytes of an instruction in its own encoding space. -/
def encode : Instr → List Byte
  | .construct w h e t => 0x01 :: (encodeInt w ++ (encodeInt h ++ (encodeBool e ++ encodeKind t)))
  | .initSequence => [0x02]
  | .flush => [0x03]
  | .powerOn => [0x04]
  | .powerOff => [0x05]
  | .setContrast l => 0x06 :: encodeInt l
  | .setInverted f => 0x07 :: encodeInt f
  | .setPixel x y v => 0x08 :: (encodeInt x ++ (encodeInt y ++ encodeInt v))
  | .blit src x y bw bh =>
    0x09 :: (encodeByteList src ++ (encodeInt x ++ (encodeInt y ++ (encodeInt bw ++ encodeInt bh))))
  | .clear v => 0x0A :: encodeInt v
  | .drawText str c r => 0x0B :: (encodeString str ++ (encodeInt c ++ encodeInt r))
  | .drawWideGlyphs str c r => 0x0C :: (encodeString str ++ (encodeInt c ++ encodeInt r))
  | .cmdDisp on => [fieldOpcode 0xAE 0 on]
  | .cmdMemAddr a => [0x20, a]
  | .cmdDispStartLine => [0x40]
  | .cmdSegRemap r => [fieldOpcode 0xA0 0 r]
  | .cmdMuxRatio a => [0xA8, a]
  | .cmdComOutDir r => [fieldOpcode 0xC0 3 r]
  | .cmdDispOffset a => [0xD3, a]
  | .cmdComPinCfg a => [0xDA, a]
  | .cmdDispClkDiv a => [0xD5, a]
  | .cmdPrecharge a => [0xD9, a]
  | .cmdVcomDesel a => [0xDB, a]
  | .cmdContrast a => [0x81, a]
  | .cmdEntireOn => [0xA4]
  | .cmdNormInv i => [fieldOpcode 0xA6 0 i]
  | .cmdChargePump a => [0x8D, a]
  | .cmdColAddr a b => [0x21, a, b]
  | .cmdPageAddr a b => [0x22, a, b]
  | .i2cCommandFrame b => [0x80, b]
  | .i2cDataFrame bs => 0x40 :: bs
  | .spiCommandTransfer b => [0x00, b]
  | .spiDataTransfer bs => 0x01 :: bs

/-! ## Words as spec/opcode_table.json numbers them -/

/-- The bytes of a table word: bits 7..0 are the first byte, and a word holds `nbits / 8` of them. -/
def tableBytes (nbits w : Nat) : List Byte := (List.range (nbits / 8)).map fun i => BitVec.ofNat 8 (w >>> (8 * i))

/-- How many zero bytes the operands of a host record take when every operand is zero: one a piece (R101). -/
def hostOperandBytes (tag : Byte) : Option Nat :=
  if tag = 0x01 then some 4
  else if tag = 0x02 ∨ tag = 0x03 ∨ tag = 0x04 ∨ tag = 0x05 then some 0
  else if tag = 0x06 ∨ tag = 0x07 ∨ tag = 0x0A then some 1
  else if tag = 0x08 ∨ tag = 0x0B ∨ tag = 0x0C then some 3
  else if tag = 0x09 then some 5
  else none

/-- Zero bytes up to a length. -/
def padTo (n : Nat) (bs : List Byte) : List Byte := bs ++ List.replicate (n - bs.length) 0

/-- The instruction image a table word stands for, with its operand bytes zero, and its encoding space. The table's
host tags, wire opcodes and 2-wire control bytes share one number space; a word is read as the first of the three
that has it (0x40 alone is SET_DISP_START_LINE, log 4). The 4-wire rows give a level of DC and no bits: a word of no
bits is that level. -/
def tableImage (nbits w : Nat) : Format × List Byte :=
  match tableBytes nbits w with
  | [] => if w % 2 = 0 then (.frame4Wire, [0x00, 0x00]) else (.frame4Wire, [0x01])
  | b :: more =>
    match hostOperandBytes b with
    | some n => (.hostRecord, padTo (1 + n) (b :: more))
    | none =>
      match argCount b with
      | some k =>
        if more.length ≤ k then (.wireCommand, padTo (1 + k) (b :: more)) else (.frame2Wire, b :: more)
      | none => (.frame2Wire, if b = 0x80 then padTo 2 (b :: more) else b :: more)

/-- What the decoder reads from a table word. -/
def decodeTableWord (nbits w : Nat) : Option Instr :=
  match decode (tableImage nbits w).1 (tableImage nbits w).2 with
  | .ok i => some i
  | .error _ => none

end Sys2Proof
end

