-- ==== Sys2Proof/Machine/State.lean ====
section
/-! DEFINITION. The state of the block: every field of 10_state.md, the configuration (00_scope.md R9), the glyph
ROM (20_memory.md R76) and, as the model's own, the environment's inputs (the host's requests, the bus answers, the
chip-select draws). "No value" is the spec's own value of a field (R51): a model "reads a field holding 'no value'
as a fault, never as zero", so those fields are `Option`. -/

namespace Sys2Proof.Machine

/-- The seven phases (R31). -/
inductive Phase where
  | uninit
  | constructing
  | ready
  | busy
  | failed
  | hung
  | refused
deriving DecidableEq, Repr

/-- A host operation by name, as `RESULT` events and error records name it (R45, R320). -/
inductive OpName where
  | construct
  | initSequence
  | flush
  | powerOn
  | powerOff
  | setContrast
  | setInverted
  | setPixel
  | blit
  | clear
  | drawText
  | drawWideGlyphs
  /-- A transfer made outside any host operation (log 2). -/
  | transport
deriving DecidableEq, Repr

/-- The operands the block may refuse (R324). -/
inductive OperandName where
  | level
  | flag
  | value
  | src
deriving DecidableEq, Repr

/-- Which of the two transfers failed (R320, TransportError's `kind`). -/
inductive XferKind where
  | cmd
  | data
deriving DecidableEq, Repr

/-- The error kinds (R320). -/
inductive ErrKind where
  | invalidGeometry
  | transportError
  | glyphNotFound
  | invalidOperand
  | notReady
deriving DecidableEq, Repr

/-- An error a result can hold, with its information (R320). GlyphNotFound is never a result: it is the event
`glyphMiss` (R323). -/
inductive Err where
  | invalidGeometry (w h : Int)
  | transportError (op : OpName) (seq : Nat) (kind : XferKind)
  | invalidOperand (op : OpName) (operand : OperandName)
  | notReady (op : OpName) (phase : Phase)
deriving DecidableEq, Repr

/-- What the result register holds (R46). -/
inductive Result where
  | ok
  | err (e : Err)
deriving DecidableEq, Repr

/-- The observable events (R45). -/
inductive Event where
  | i2c (addr : DevAddr) (bytes : List Byte) (ans : Answer)
  | spiCfg (rate : Nat)
  | cs (v : Bool)
  | dc (v : Bool)
  | res (v : Bool)
  | spi (bytes : List Byte) (ans : Answer)
  | sleep (ms : Nat)
  | glyphMiss (key : Option GlyphKey) (index : Nat)
  | result (op : OpName) (r : Result)
deriving DecidableEq, Repr

/-- A framebuffer update (R32: a DRAW step's `f`), as data. -/
inductive DrawOp where
  /-- `PixWrite(x, y, v)` (R142). -/
  | pixel (x y : Int) (v : Bool)
  /-- The pixel loop of `blit` (R143). -/
  | blit (src : List Byte) (x y bw bh : Int)
  /-- Every byte 0x00 or 0xFF (R145). -/
  | fill (v : Bool)
  /-- The writes of `TEXT` at cell `(col, row)` (R242). -/
  | text (str : List Char) (col row : Int)
  /-- Step `g_i` of `draw_wide_glyphs`: character `c` at position `index` (R246). -/
  | glyph (c : Char) (index : Nat) (col row : Int)
  /-- `id` (R241). -/
  | idle
deriving DecidableEq, Repr

/-- A COMMIT's update: the shadow fields it names (R219), written when the operation completes (R37 to R39, log 29). -/
structure Commit where
  powerOn  : Option Bool := none
  contrast : Option Byte := none
  inverted : Option Bool := none
deriving DecidableEq, Repr

/-- The micro-operations (R32). CHECK_GEOMETRY and ALLOC carry the operands of construct that they read (R202, R203; log 18). -/
inductive MicroOp where
  | cmd (b : Byte)
  | data
  | line (l : Line) (v : Bool)
  | sleep (ms : Nat)
  | checkGeometry (w h : Int)
  | alloc (w h : Int) (extVcc : Bool)
  | draw (d : DrawOp)
  | commit (u : Commit)
deriving DecidableEq, Repr

/-- The registers of the 4-wire transport (R43). -/
structure FourWireRegs where
  dc   : Bool
  cs   : Bool
  res  : Bool
  rate : Nat
deriving DecidableEq, Repr

/-- `s.tr`: the variant with its own registers (R42, R43). -/
inductive Transport where
  | twoWire (addr : DevAddr)
  | fourWire (regs : FourWireRegs)
deriving DecidableEq, Repr

/-- The panel register shadow's fields; `none` is R44's `unknown`. -/
structure PanelRegs where
  displayOn   : Option Bool := none
  memAddrMode : Option Byte := none
  startLine   : Option Byte := none
  segRemap    : Option Bool := none
  muxRatio    : Option Byte := none
  comOutDir   : Option Bool := none
  dispOffset  : Option Byte := none
  comPinCfg   : Option Byte := none
  clkDiv      : Option Byte := none
  precharge   : Option Byte := none
  vcomDesel   : Option Byte := none
  contrast    : Option Byte := none
  entireOn    : Option Bool := none
  invert      : Option Bool := none
  chargePump  : Option Byte := none
  colWindow   : Option (Byte × Byte) := none
  pageWindow  : Option (Byte × Byte) := none
deriving DecidableEq, Repr

/-- `s.panel` (R44, R292): the fields as last written, the open command group, and whether the block still knows
where groups begin. `Panel.shown` is what a reader of the shadow sees (log 26). -/
structure Panel where
  regs : PanelRegs := {}
  pend : Option (Byte × List Byte) := none
  sync : Bool := true
deriving DecidableEq, Repr

/-- The shadow as a reader sees it: every field unknown while `sync = 0` (R44). -/
def Panel.shown (p : Panel) : PanelRegs := if p.sync then p.regs else {}

/-- Sparse memory: (address, byte) pairs, addresses strictly rising, no byte 0x00 listed (log 10). -/
abbrev Memory := List Host.Cell

/-- The glyph ROM: (key, bitmap) pairs, keys strictly rising below 2^24; an unlisted key is absent (R76). -/
abbrev GlyphRom := List (Nat × Glyph)

/-- The configuration's constants, the rows of R9's table. DESIGN CHOICE (log 30): R375 calls the 2-wire bus clock a
parameter too, but R9, which it cites, has no row for it; the model holds none. -/
structure Params where
  i2cAddr   : DevAddr
  spiRate   : Nat
  spiMode   : SpiMode
  resActive : Bool
deriving DecidableEq, Repr

/-- One request at the block's host interface: an instruction's bytes in their encoding space (log 1, log 2). -/
structure Request where
  fmt   : Format
  bytes : List Byte
deriving DecidableEq, Repr

/-- The environment's coming moves (R7): the model's own. Past the end of a list the draw is the opaque one of
Config, numbered by the counter (log 5, log 6). -/
structure Env where
  requests    : List Request := []
  answers     : List Answer := []
  answerCount : Nat := 0
  csDraws     : List CsDraw := []
  csDrawCount : Nat := 0
deriving DecidableEq, Repr

structure State where
  /-- R31. -/
  phase    : Phase
  /-- The operation in progress, with its operands (R32). -/
  op       : Option Instr
  /-- Its micro-program, fixed at issue (R32). -/
  prog     : List MicroOp
  /-- The step index (R33). -/
  seq      : Nat
  /-- Geometry registers (R35). -/
  width    : Option Nat
  height   : Option Nat
  pages    : Option Nat
  /-- The external-power flag (R36). -/
  extVcc   : Option Bool
  /-- The controller's shadow fields (R37, R38, R39). -/
  powerOn  : Option Bool
  contrast : Option Byte
  inverted : Option Bool
  /-- The framebuffer's bytes at indices `0 .. pages*W - 1` (R41); `none` before ALLOC has made it. -/
  fb       : Option Memory
  /-- R42, R43; `none` before construct has set it up. -/
  tr       : Option Transport
  /-- R44. -/
  panel    : Panel
  /-- R45, oldest event first. -/
  trace    : List Event
  /-- R46. -/
  result   : Option Result
  /-- R47. -/
  flushed  : Option (List Byte)
  /-- R48. -/
  refused  : Bool
  /-- R9. -/
  cfg      : Params
  /-- R76, R78. -/
  rom      : GlyphRom
  /-- R7 (log 1, 2, 5, 6). -/
  env      : Env
deriving DecidableEq, Repr

/-- Why the machine has no further step. All are safe: the model stops where the spec gives no step. -/
inductive Fault where
  /-- The phase is Hung: "no step exists" (R181, R339). Raised by step and by every instruction. Safe. -/
  | hung
  /-- The phase is Refused: "no step exists" (R339). Raised by step and by every instruction. Safe. -/
  | refusedPhase
  /-- A host operation put to the block while another is in progress: the host has no move there (R8, R31, R369; log 16).
  Raised by every host operation; no step reaches it. Safe. -/
  | noHostMove
  /-- A field holding no value was read (R51; log 23). Raised by operations that read geometry or the framebuffer; no run
  from power-up reaches it. Safe. -/
  | noValue
  /-- A transfer or a line change with no transport set up (R51: "tr does not exist"). Safe. -/
  | noTransport
  /-- A frame or a line change of the other transport variant (R170: fixed at construction). Safe. -/
  | otherTransport
  /-- The step index lies past the program's end, where the spec gives no step (R34; log 17). No run reaches it. Safe. -/
  | pastProgram
deriving DecidableEq, Repr

/-- Why the model gives no meaning. -/
inductive Refusal where
  /-- An instruction with no meaning yet. Raised by exec's arms. Safe. -/
  | notModelled (mnemonic : String)
  /-- The bytes of a request are no instruction (R114: none can be issued). Raised by step. Safe. -/
  | undecodable (e : DecodeError)
deriving DecidableEq, Repr

/-- Put an entry into a glyph ROM, keeping keys strictly rising; of two entries with one key the newer stands. -/
def GlyphRom.insert (key : Nat) (g : Glyph) : GlyphRom → GlyphRom
  | [] => [(key, g)]
  | (k, h) :: rest =>
    if key < k then (key, g) :: (k, h) :: rest
    else if key = k then (key, g) :: rest
    else (k, h) :: GlyphRom.insert key g rest

/-- The ROM that holds a list's entries (R78: loaded once, before first use). -/
def GlyphRom.ofList : List (GlyphKey × Glyph) → GlyphRom
  | [] => []
  | (k, g) :: rest => GlyphRom.insert k.toNat g (GlyphRom.ofList rest)

/-- Power-up (R51), with the configuration of Config and an environment that has queued nothing. -/
def State.reset : State where
  phase    := .uninit
  op       := none
  prog     := []
  seq      := Config.idleSeq
  width    := none
  height   := none
  pages    := none
  extVcc   := none
  powerOn  := none
  contrast := none
  inverted := none
  fb       := none
  tr       := none
  panel    := {}
  trace    := []
  result   := none
  flushed  := none
  refused  := false
  cfg      := { i2cAddr := Config.i2cAddr, spiRate := Config.spiRate, spiMode := Config.spiMode,
                resActive := Config.resActive }
  rom      := GlyphRom.ofList Config.glyphTable
  env      := {}

end Sys2Proof.Machine
end

