-- ==== Sys2Proof/Machine/Operands.lean ====
section
/-! DEFINITION. Operands: the names operations go by, the domain check at issue (R102, R324), and the argument
bytes an operation computes (R119). -/

namespace Sys2Proof.Machine

/-- The name an operation goes by in events and error records. -/
def opNameOf : Instr → OpName
  | .construct _ _ _ _ => .construct
  | .initSequence => .initSequence
  | .flush => .flush
  | .powerOn => .powerOn
  | .powerOff => .powerOff
  | .setContrast _ => .setContrast
  | .setInverted _ => .setInverted
  | .setPixel _ _ _ => .setPixel
  | .blit _ _ _ _ _ => .blit
  | .clear _ => .clear
  | .drawText _ _ _ => .drawText
  | .drawWideGlyphs _ _ _ => .drawWideGlyphs
  | .cmdDisp _ | .cmdMemAddr _ | .cmdDispStartLine | .cmdSegRemap _ | .cmdMuxRatio _ | .cmdComOutDir _
  | .cmdDispOffset _ | .cmdComPinCfg _ | .cmdDispClkDiv _ | .cmdPrecharge _ | .cmdVcomDesel _ | .cmdContrast _
  | .cmdEntireOn | .cmdNormInv _ | .cmdChargePump _ | .cmdColAddr _ _ | .cmdPageAddr _ _ => .transport
  | .i2cCommandFrame _ | .i2cDataFrame _ | .spiCommandTransfer _ | .spiDataTransfer _ => .transport

/-- The first operand outside its domain, by name (R102, R103). -/
def illegalOperand : Instr → Option OperandName
  | .setContrast level => if 0 ≤ level ∧ level ≤ 255 then none else some .level
  | .setInverted flag => if flag = 0 ∨ flag = 1 then none else some .flag
  | .setPixel _ _ value => if value = 0 ∨ value = 1 then none else some .value
  | .clear value => if value = 0 ∨ value = 1 then none else some .value
  | .blit src _ _ bw bh =>
    if 0 < bw ∧ 0 < bh ∧ (src.length : Int) < bh * ((bw + 7) / 8) then some .src else none
  | .construct _ _ _ _ | .initSequence | .flush | .powerOn | .powerOff | .drawText _ _ _ | .drawWideGlyphs _ _ _ => none
  | .cmdDisp _ | .cmdMemAddr _ | .cmdDispStartLine | .cmdSegRemap _ | .cmdMuxRatio _ | .cmdComOutDir _
  | .cmdDispOffset _ | .cmdComPinCfg _ | .cmdDispClkDiv _ | .cmdPrecharge _ | .cmdVcomDesel _ | .cmdContrast _
  | .cmdEntireOn | .cmdNormInv _ | .cmdChargePump _ | .cmdColAddr _ _ | .cmdPageAddr _ _ => none
  | .i2cCommandFrame _ | .i2cDataFrame _ | .spiCommandTransfer _ | .spiDataTransfer _ => none

/-- The error kind of an error, and its code (R320). -/
def errKindOf : Err → ErrKind
  | .invalidGeometry _ _ => .invalidGeometry
  | .transportError _ _ _ => .transportError
  | .invalidOperand _ _ => .invalidOperand
  | .notReady _ _ => .notReady

def errCode : ErrKind → Nat
  | .invalidGeometry => 1
  | .transportError => 2
  | .glyphNotFound => 3
  | .invalidOperand => 4
  | .notReady => 5

/-- A one-bit operand as a bit (legal values are 0 and 1). -/
def bitOf (v : Int) : Bool := decide (v = 1)

/-- A non-negative integer as a byte. Every rule that uses it has shown its value to lie in 0..255 (R119). -/
def byteOf (n : Nat) : Byte := BitVec.ofNat 8 n

/-- The supported geometries (R202). -/
def geometryOk (w h : Int) : Bool := (w == 64 || w == 128) && (h == 32 || h == 64)

/-- `com_pin(H)` (R207). -/
def comPin (h : Nat) : Byte := if h = 32 then 0x02 else 0x12

/-- `precharge(ext_vcc)` (R208). -/
def prechargeArg (extVcc : Bool) : Byte := if extVcc then 0x22 else 0xF1

/-- `charge_pump(ext_vcc)` (R208). -/
def chargePumpArg (extVcc : Bool) : Byte := if extVcc then 0x10 else 0x14

/-- The column window's shift: 32 on a 64-pixel-wide panel (R209). -/
def colShift (w : Nat) : Nat := if w = 64 then 32 else 0

/-- `x0` and `x1` (R209). -/
def colStart (w : Nat) : Byte := byteOf (colShift w)
def colEnd (w : Nat) : Byte := byteOf (w - 1 + colShift w)

/-- The 25 bytes of `INIT(H, ext_vcc)` (R204, in the order R206 requires). -/
def initBytes (h : Nat) (extVcc : Bool) : List Byte :=
  [0xAE, 0x20, 0x00, 0x40, 0xA1, 0xA8, byteOf (h - 1), 0xC8, 0xD3, 0x00, 0xDA, comPin h, 0xD5, 0x80,
   0xD9, prechargeArg extVcc, 0xDB, 0x30, 0x81, 0xFF, 0xA4, 0xA6, 0x8D, chargePumpArg extVcc, 0xAF]

/-- The six window bytes of `flush` (R210). -/
def windowBytes (w pages : Nat) : List Byte :=
  [0x21, colStart w, colEnd w, 0x22, 0x00, byteOf (pages - 1)]

end Sys2Proof.Machine
end

