-- ==== Sys2Proof/Machine/Flags.lean ====
section
/-! DEFINITION. The status flags and shadows (R37 to R39, R44, R49): a COMMIT's update (R219), the phase flag's
moves (R200, R220, R328) and the panel shadow's update (R292). -/

namespace Sys2Proof.Machine

/-- An operation is in progress (R31). -/
def Phase.running : Phase → Bool
  | .constructing | .busy => true
  | .uninit | .ready | .failed | .hung | .refused => false

/-- The phase after an error (R328). Outside an operation there is none to end, and the phase stays (log 2). -/
def Phase.afterError : Phase → Phase
  | .constructing => .failed
  | .busy => .ready
  | .uninit => .uninit
  | .ready => .ready
  | .failed => .failed
  | .hung => .hung
  | .refused => .refused

/-- A field a COMMIT names takes the new value; any other keeps its own (R219). -/
def committed {α : Type} (new old : Option α) : Option α :=
  match new with
  | some v => some v
  | none => old

/-- One update after another: a field both name takes the later value (R219). -/
def Commit.andThen (u v : Commit) : Commit where
  powerOn  := committed v.powerOn u.powerOn
  contrast := committed v.contrast u.contrast
  inverted := committed v.inverted u.inverted

/-- The update of a program's COMMIT, which an operation that completes makes (R37 to R39, R219, log 29). A program has
one COMMIT at most. -/
def commitOf : List MicroOp → Commit
  | [] => {}
  | .commit u :: ms => u.andThen (commitOf ms)
  | .cmd _ :: ms => commitOf ms
  | .data :: ms => commitOf ms
  | .line _ _ :: ms => commitOf ms
  | .sleep _ :: ms => commitOf ms
  | .checkGeometry _ _ :: ms => commitOf ms
  | .alloc _ _ _ :: ms => commitOf ms
  | .draw _ :: ms => commitOf ms

/-- The update `u` applied to the shadow fields (R219). -/
def State.commit (u : Commit) (s : State) : State :=
  { s with
    powerOn  := committed u.powerOn s.powerOn
    contrast := committed u.contrast s.contrast
    inverted := committed u.inverted s.inverted }

/-- The "Shadow" line of the rule for opcode `c` with its arguments (R271 to R287, R292 `apply`). Bytes that are no
opcode with the right number of arguments write nothing; R292 never applies one. -/
def applyGroup (c : Byte) (args : List Byte) (r : PanelRegs) : PanelRegs :=
  match args with
  | [] =>
    if c &&& 0xFE = 0xAE then { r with displayOn := some (c.getLsbD 0) }
    else if c = 0x40 then { r with startLine := some 0 }
    else if c &&& 0xFE = 0xA0 then { r with segRemap := some (c.getLsbD 0) }
    else if c &&& 0xF7 = 0xC0 then { r with comOutDir := some (c.getLsbD 3) }
    else if c = 0xA4 then { r with entireOn := some false }
    else if c &&& 0xFE = 0xA6 then { r with invert := some (c.getLsbD 0) }
    else r
  | [a1] =>
    if c = 0x20 then { r with memAddrMode := some a1 }
    else if c = 0xA8 then { r with muxRatio := some a1 }
    else if c = 0xD3 then { r with dispOffset := some a1 }
    else if c = 0xDA then { r with comPinCfg := some a1 }
    else if c = 0xD5 then { r with clkDiv := some a1 }
    else if c = 0xD9 then { r with precharge := some a1 }
    else if c = 0xDB then { r with vcomDesel := some a1 }
    else if c = 0x81 then { r with contrast := some a1 }
    else if c = 0x8D then { r with chargePump := some a1 }
    else r
  | [a1, a2] =>
    if c = 0x21 then { r with colWindow := some (a1, a2) }
    else if c = 0x22 then { r with pageWindow := some (a1, a2) }
    else r
  | _ :: _ :: _ :: _ => r

/-- `panel_update_cmd(b)` (R292), for a command transfer answered ok. A group that starts with a byte outside the
opcode map has no argument count in the spec; the block never sends one (R291), and a frame issued on its own that
does leaves the block not knowing where the panel's groups begin (log 11). -/
def Panel.update (b : Byte) (p : Panel) : Panel :=
  if p.sync then
    match p.pend with
    | none =>
      match argCount b with
      | some 0 => { p with regs := applyGroup b [] p.regs }
      | some _ => { p with pend := some (b, []) }
      | none => { p with sync := false }
    | some (c, args) =>
      if argCount c = some (args.length + 1) then
        { p with regs := applyGroup c (args ++ [b]) p.regs, pend := none }
      else { p with pend := some (c, args ++ [b]) }
  else p

/-- A command transfer answered fail: where groups begin is no longer known, for good (R44, R366). -/
def Panel.lose (p : Panel) : Panel := { p with sync := false }

end Sys2Proof.Machine
end

