-- ==== Sys2Proof/Machine/Ops.lean ====
section
/-! DEFINITION. The named operations the meanings share: the framebuffer's bytes and pixels (20_memory.md), the
glyph ROM, the trace, issuing, completing, refusing and ending in error (the block's "trap entry", R328), the bus
and line primitives of 00_scope.md R16, and the two transfers on each transport (41_transport.md). -/

namespace Sys2Proof.Machine

/-! ## Memory (R15, R70 to R73) -/

/-- One byte; an unlisted address reads as 0x00, which is what ALLOC leaves everywhere (R203). -/
def Memory.read : Memory → Nat → Byte
  | [], _ => 0
  | (k, v) :: m, a => if k = a then v else Memory.read m a

/-- Take an address out of the list. -/
def Memory.erase (a : Nat) (m : Memory) : Memory := m.filter fun c => c.1 ≠ a

/-- Put a cell where it belongs in a rising list that does not list its address. -/
def Memory.place (a : Nat) (v : Byte) : Memory → Memory
  | [] => [(a, v)]
  | (k, u) :: m => if a < k then (a, v) :: (k, u) :: m else (k, u) :: Memory.place a v m

/-- One byte written; writing 0x00 takes the entry out. -/
def Memory.write (a : Nat) (v : Byte) (m : Memory) : Memory :=
  if v = 0 then Memory.erase a m else Memory.place a v (Memory.erase a m)

/-- The canonical form from an address on: addresses strictly rising, below `hi`, and no byte 0x00. -/
def Memory.wfFrom (hi : Nat) : Nat → Memory → Bool
  | _, [] => true
  | lo, (k, v) :: m => decide (lo ≤ k) && decide (k < hi) && decide (v ≠ 0) && Memory.wfFrom hi (k + 1) m

/-- The canonical form of a memory of `size` bytes: nothing lies outside `0 .. size - 1` (R41, R85). -/
def Memory.wf (size : Nat) (m : Memory) : Bool := Memory.wfFrom size 0 m

/-- `MemRead(0, n)`: the bytes in ascending index order (R15, R211). -/
def Memory.bytes (n : Nat) (m : Memory) : List Byte := (List.range n).map (Memory.read m)

/-- `bytes(n, v)` as a memory (R145, R203). -/
def Memory.filled (n : Nat) (v : Byte) : Memory := if v = 0 then [] else (List.range n).map fun a => (a, v)

/-- `inside(x, y)` (R74). -/
def inside (w h : Nat) (x y : Int) : Bool := decide (0 ≤ x ∧ x < w ∧ 0 ≤ y ∧ y < h)

/-- `index(x, y)` (R71), for a pixel inside the canvas. -/
def pixelIndex (w : Nat) (x y : Int) : Nat := y.toNat / 8 * w + x.toNat

/-- `bitpos(y)` (R71). -/
def bitPos (y : Int) : Nat := y.toNat % 8

/-- `fb[index(x, y)][bitpos(y)]`: the bit that holds a pixel of the canvas (R71, R72). -/
def pixelBit (w : Nat) (m : Memory) (x y : Int) : Bool := (m.read (pixelIndex w x y)).getLsbD (bitPos y)

/-- `PixRead(x, y)` (R72). Outside the canvas it is undefined and has no value: 93_implementation_defined.md U9 has a
model reach an error value there (log 25). -/
def pixRead (w h : Nat) (m : Memory) (x y : Int) : Option Bool :=
  if inside w h x y then some (pixelBit w m x y) else none

/-- A pixel to write: where, and what. -/
structure PixelWrite where
  x : Int
  y : Int
  v : Bool
deriving DecidableEq, Repr

/-- The byte with one bit set to `v` (R73). -/
def setBit (byte : Byte) (pos : Nat) (v : Bool) : Byte :=
  (byte &&& (0xFF ^^^ (1 <<< pos))) ||| (if v then 1 <<< pos else 0)

/-- `PixWrite(x, y, b)` (R73): one bit inside the canvas, nothing outside it (R74). -/
def pixWrite (w h : Nat) (p : PixelWrite) (m : Memory) : Memory :=
  if inside w h p.x p.y then
    Memory.write (pixelIndex w p.x p.y) (setBit (m.read (pixelIndex w p.x p.y)) (bitPos p.y) p.v) m
  else m

/-- Pixel writes in list order. -/
def drawPixels (w h : Nat) (ps : List PixelWrite) (m : Memory) : Memory :=
  ps.foldl (fun m p => pixWrite w h p m) m

/-! ## Bitmaps, text and glyphs -/

/-- Bytes in one row of a bitmap `bw` pixels wide (R143). -/
def rowStride (bw : Nat) : Nat := (bw + 7) / 8

/-- `src_pixel(src, bw, i, j)` (R144): row-major, most significant bit first (R77). -/
def srcPixel (src : List Byte) (bw i j : Nat) : Bool :=
  (src.getD (j * rowStride bw + i / 8) 0).getLsbD (7 - i % 8)

/-- The pixel loop of `blit` (R143); empty when `bw <= 0` or `bh <= 0`. -/
def blitPixels (src : List Byte) (x y bw bh : Int) : List PixelWrite :=
  (List.range bh.toNat).flatMap fun (j : Nat) => (List.range bw.toNat).map fun (i : Nat) =>
    ⟨x + i, y + j, srcPixel src bw.toNat i j⟩

/-- The writes of a text pattern for a string of `n` characters placed at `(x0, y0)`: the character at position `k`
in the cell at `x0 + 8k` (R243, T2, T3). -/
def textPixels (pattern : List TextWrite) (n : Nat) (x0 y0 : Int) : List PixelWrite :=
  (pattern.filter fun t => t.cell < n).map fun t => ⟨x0 + 8 * t.cell + t.dx.val, y0 + t.dy.val, t.bit⟩

/-- `TEXT(s, x0, y0)` (R243). -/
def textPrimitive (str : List Char) (x0 y0 : Int) : List PixelWrite :=
  textPixels (Config.textPattern str) str.length x0 y0

/-- The glyph key of a character with a 3-byte UTF-8 encoding, and none of any other (R79, R245; log 24). -/
def glyphKey (c : Char) : Option GlyphKey :=
  if 0x0800 ≤ c.toNat ∧ c.toNat ≤ 0xFFFF then
    some (BitVec.ofNat 24
      ((0xE0 ||| (c.toNat >>> 12)) <<< 16 ||| (0x80 ||| ((c.toNat >>> 6) &&& 0x3F)) <<< 8
        ||| (0x80 ||| (c.toNat &&& 0x3F))))
  else none

/-- `GlyphRead(key)` (R76). -/
def GlyphRom.read (key : Nat) : GlyphRom → Option Glyph
  | [] => none
  | (k, g) :: rom => if k = key then some g else GlyphRom.read key rom

/-- The canonical form from a key on. -/
def GlyphRom.wfFrom : Nat → GlyphRom → Bool
  | _, [] => true
  | lo, (k, _) :: rom => decide (lo ≤ k) && decide (k < 2 ^ 24) && GlyphRom.wfFrom (k + 1) rom

def GlyphRom.wf (rom : GlyphRom) : Bool := GlyphRom.wfFrom 0 rom

/-- The glyph of a character, where it has a key and the ROM an entry (R246). -/
def glyphOf (rom : GlyphRom) (c : Char) : Option Glyph :=
  match glyphKey c with
  | some k => rom.read k.toNat
  | none => none

/-- `glyph_pixel(g, c, r)` (R77). -/
def glyphPixel (g : Glyph) (c r : Nat) : Bool := (g.toList.getD (2 * r + c / 8) 0).getLsbD (7 - c % 8)

/-! ## DRAW steps (R32) -/

/-- The pixel writes of a DRAW step (`fill` writes whole bytes and has none). -/
def DrawOp.pixels (rom : GlyphRom) : DrawOp → List PixelWrite
  | .pixel x y v => [⟨x, y, v⟩]
  | .blit src x y bw bh => blitPixels src x y bw bh
  | .text str col row => textPrimitive str (8 * col) (8 * row)
  | .glyph c index col row =>
    match glyphOf rom c with
    | some g => blitPixels g.toList (col * 16 + 16 * index) (row * 16) 16 16
    | none => []
  | .fill _ => []
  | .idle => []

/-- The framebuffer after a DRAW step. -/
def DrawOp.run (rom : GlyphRom) (w h pages : Nat) (d : DrawOp) (m : Memory) : Memory :=
  match d with
  | .fill v => Memory.filled (pages * w) (if v then 0xFF else 0x00)
  | d => drawPixels w h (d.pixels rom) m

/-- The events a DRAW step reports: a missing glyph's (R247). -/
def DrawOp.events (rom : GlyphRom) : DrawOp → List Event
  | .glyph c index _ _ =>
    match glyphOf rom c with
    | some _ => []
    | none => [.glyphMiss (glyphKey c) index]
  | .pixel _ _ _ | .blit _ _ _ _ _ | .fill _ | .text _ _ _ | .idle => []

/-! ## The trace, the step index and the ends of an operation -/

/-- `emit`, for several events in order (R16). -/
def State.emit (es : List Event) (s : State) : State := { s with trace := s.trace ++ es }

/-- `seq <- seq + 1` (R34). -/
def State.advance (s : State) : State := { s with seq := s.seq + 1 }

/-- The name of the operation in progress. -/
def State.opName (s : State) : OpName :=
  match s.op with
  | some i => opNameOf i
  | none => .transport

/-- Issue (R218, and R201 for construct): it emits nothing and changes no other field. -/
def State.issue (i : Instr) (phase : Phase) (prog : List MicroOp) (s : State) : State :=
  { s with op := some i, prog := prog, seq := 0, phase := phase }

/-- A refusal at issue (R103, R221, R324, R325). -/
def State.refuse (op : OpName) (e : Err) (s : State) : State :=
  { s with
    result  := some (.err e)
    trace   := s.trace ++ [.result op (.err e)]
    refused := true
    phase   := .refused }

/-- `raise E(info)`: the error end of an operation (R220, R328). -/
def State.raise (e : Err) (s : State) : State :=
  { s with
    result := some (.err e)
    trace  := s.trace ++ [.result s.opName (.err e)]
    op     := none
    phase  := s.phase.afterError }

/-- The return from an operation that has run to its end (R34, R220; log 15 for the program and the index). The update
of the program's COMMIT is made here: "only when the operation completes without error" (R37 to R39), which D16 and R219
read as after every transfer was answered ok. The COMMIT is the last step of every program but construct's, so this is
the transition of the COMMIT step itself; construct's stands before its flush (log 29). -/
def State.complete (s : State) : State :=
  { s.commit (commitOf s.prog) with
    result := some .ok
    trace  := s.trace ++ [.result s.opName .ok]
    op     := none
    phase  := .ready }

/-- After a step: an operation whose step index has reached the program's end completes (R34, R220). -/
def State.finish (s : State) : State :=
  if s.phase.running && s.seq == s.prog.length then s.complete else s

/-! ## Bus and lines (R16, R181) -/

/-- The answer the bus gives to the next write (R181). -/
def State.nextAnswer (s : State) : Answer :=
  match s.env.answers with
  | a :: _ => a
  | [] => Config.busAnswer s.env.answerCount

/-- The draw a failed 4-wire write makes next (R176). -/
def State.nextCsDraw (s : State) : CsDraw :=
  match s.env.csDraws with
  | d :: _ => d
  | [] => Config.csDraw s.env.csDrawCount

/-- The next answer has been given. -/
def State.takeAnswer (s : State) : State :=
  { s with env := { s.env with answers := s.env.answers.tail, answerCount := s.env.answerCount + 1 } }

/-- The next chip-select draw has been made. -/
def State.takeCsDraw (s : State) : State :=
  { s with env := { s.env with csDraws := s.env.csDraws.tail, csDrawCount := s.env.csDrawCount + 1 } }

/-- A line register of the 4-wire transport takes a level. -/
def FourWireRegs.drive (l : Line) (v : Bool) (r : FourWireRegs) : FourWireRegs :=
  match l with
  | .dc => { r with dc := v }
  | .cs => { r with cs := v }
  | .res => { r with res := v }

/-- The 4-wire registers after a LINE step. R177's setup ends with chip-select and "Then `s.tr.rate <- SPI_RATE`", for
which it gives no micro-operation: the rate is loaded by that LINE CS step, the only one of any program (log 7). -/
def FourWireRegs.afterLine (cfg : Params) (l : Line) (v : Bool) (r : FourWireRegs) : FourWireRegs :=
  match l with
  | .cs => { r.drive .cs v with rate := cfg.spiRate }
  | .dc => r.drive .dc v
  | .res => r.drive .res v

/-- The event of a line change (R45). -/
def lineEvent (l : Line) (v : Bool) : Event :=
  match l with
  | .dc => .dc v
  | .cs => .cs v
  | .res => .res v

/-- LINE L v on a 4-wire transport: `line(L, v)` with its event (R16, R177, R178). -/
def State.driveLine (r : FourWireRegs) (l : Line) (v : Bool) (s : State) : State :=
  { s with tr := some (.fourWire (r.afterLine s.cfg l v)), trace := s.trace ++ [lineEvent l v] }

/-! ## Transfers (R171, R172, R174 to R176) -/

/-- A transfer that is not answered (R181): no operation runs outside Constructing and Busy, so `op` holds none (R32,
log 12). -/
def State.hang (s : State) : State := { s with phase := .hung, op := none }

/-- The end of a command transfer of `b`, by its answer (R171, R174, R176). -/
def State.endCommand (ans : Answer) (b : Byte) (s : State) : State :=
  match ans with
  | .ok => { s with panel := s.panel.update b, seq := s.seq + 1 }
  | .fail => State.raise (.transportError s.opName s.seq .cmd) { s with panel := s.panel.lose }
  | .hang => s.hang

/-- The end of a data transfer of `bs`, by its answer (R172, R175, R176). -/
def State.endData (ans : Answer) (bs : List Byte) (s : State) : State :=
  match ans with
  | .ok => { s with flushed := some bs, seq := s.seq + 1 }
  | .fail => State.raise (.transportError s.opName s.seq .data) { s with flushed := none }
  | .hang => s.hang

/-- `xfer` of one I2C write, with its event. -/
def State.i2cWrite (addr : DevAddr) (bytes : List Byte) (s : State) : State :=
  s.takeAnswer.emit [.i2c addr bytes s.nextAnswer]

/-- The start of a 4-wire transfer: the clock is configured, chip-select asserted, DC driven (R110, R111, R179). -/
def State.spiOpen (r : FourWireRegs) (dc : Bool) (s : State) : State :=
  { s with
    tr    := some (.fourWire { r with cs := false, dc := dc })
    trace := s.trace ++ [.spiCfg r.rate, .cs false, .dc dc] }

/-- `xfer` of one SPI write, with its event. -/
def State.spiWrite (bytes : List Byte) (s : State) : State :=
  s.takeAnswer.emit [.spi bytes s.nextAnswer]

/-- `line(CS, 1)` after a transfer opened with registers `r`. -/
def State.spiRelease (r : FourWireRegs) (dc : Bool) (s : State) : State :=
  { s with tr := some (.fourWire { r with cs := true, dc := dc }), trace := s.trace ++ [.cs true] }

/-- Chip-select after the write: deasserted when it was answered ok (R174, R175), by a draw when it failed (R176),
still asserted when it was not answered. DESIGN CHOICE (log 28): a failure's CS(1), where it is drawn, comes in the trace
before the RESULT that the raise emits; R176 lists the raise first and no rule gives the order of the two events. -/
def State.spiClose (r : FourWireRegs) (dc : Bool) (ans : Answer) (s : State) : State :=
  match ans with
  | .ok => s.spiRelease r dc
  | .fail =>
    match s.nextCsDraw with
    | .deassert => s.takeCsDraw.spiRelease r dc
    | .stay => s.takeCsDraw
  | .hang => s

/-- `send_command(b)`, 2-wire (R171). -/
def State.i2cCommand (addr : DevAddr) (b : Byte) (s : State) : State :=
  (s.i2cWrite addr [0x80, b]).endCommand s.nextAnswer b

/-- `send_data(bs)`, 2-wire (R172). -/
def State.i2cData (addr : DevAddr) (bs : List Byte) (s : State) : State :=
  (s.i2cWrite addr (0x40 :: bs)).endData s.nextAnswer bs

/-- `send_command(b)`, 4-wire (R174; log 28 for the order of events on a failure). -/
def State.spiCommand (r : FourWireRegs) (b : Byte) (s : State) : State :=
  (((s.spiOpen r false).spiWrite [b]).spiClose r false s.nextAnswer).endCommand s.nextAnswer b

/-- `send_data(bs)`, 4-wire (R175; log 28 for the order of events on a failure). -/
def State.spiData (r : FourWireRegs) (bs : List Byte) (s : State) : State :=
  (((s.spiOpen r true).spiWrite bs).spiClose r true s.nextAnswer).endData s.nextAnswer bs

/-- `send_command(b)` on whichever transport the block has (R170). -/
def State.sendCommand (b : Byte) (s : State) : State :=
  match s.tr with
  | some (.twoWire addr) => s.i2cCommand addr b
  | some (.fourWire r) => s.spiCommand r b
  | none => s

/-- The bytes of command groups, one transfer each (R105), up to the first that is not answered ok (R173, R183). -/
def State.sendBytes : List Byte → State → State
  | [], s => s
  | b :: bs, s => if s.nextAnswer = .ok then State.sendBytes bs (s.sendCommand b) else s.sendCommand b

/-- What a transfer put to the block meets in a terminal phase (R339): no step in Hung and Refused, and in Failed, where
"the host may issue nothing", the refusal NotReady (log 2 for a request that is no host operation). No operation runs in
these phases, so no step CMD or DATA meets it. -/
def State.halted (s : State) : Option (Host.Outcome State Fault Refusal) :=
  match s.phase with
  | .hung => some (.fault .hung)
  | .refused => some (.fault .refusedPhase)
  | .failed => some (.next (s.refuse .transport (.notReady .transport .failed)))
  | .uninit | .constructing | .ready | .busy => none

/-- A command group sent on the block's transport (R105, R270). DESIGN CHOICE (log 2): a wire command put to the block
on its own makes all its transfers, one a byte, within its one step, where R83 has one transfer a step inside an
operation; the CMD steps of an operation's program send one byte each. -/
def sendGroup (bytes : List Byte) (s : State) : Host.Outcome State Fault Refusal :=
  match s.halted with
  | some out => out
  | none =>
    match s.tr with
    | some _ => .next (s.sendBytes bytes)
    | none => .fault .noTransport

/-! ## Issuing a host operation (R218, R221, R326) -/

/-- Issue of an operation other than construct: the phase is checked first, then the operands (R326). `prog` is the
operation's expansion, none where it needs a field that holds no value (R51). -/
def issueReady (i : Instr) (prog : Option (List MicroOp)) (s : State) : Host.Outcome State Fault Refusal :=
  match s.phase with
  | .uninit | .failed => .next (s.refuse (opNameOf i) (.notReady (opNameOf i) s.phase))
  | .constructing | .busy => .fault .noHostMove
  | .hung => .fault .hung
  | .refused => .fault .refusedPhase
  | .ready =>
    match illegalOperand i with
    | some o => .next (s.refuse (opNameOf i) (.invalidOperand (opNameOf i) o))
    | none =>
      match prog with
      | some p => .next (s.issue i .busy p)
      | none => .fault .noValue

/-- Command transfers as micro-operations, one a byte (R105). -/
def cmds (bytes : List Byte) : List MicroOp := bytes.map .cmd

/-- The COMMIT that ends the initialisation list (R201, R205). -/
def initCommit : Commit := { powerOn := some true, contrast := some 0xFF, inverted := some false }

/-- `INIT(H, ext_vcc)` and its COMMIT (R204, R205). -/
def initProgram (h : Nat) (extVcc : Bool) : List MicroOp := cmds (initBytes h extVcc) ++ [.commit initCommit]

/-- `FLUSH(W, pages)` (R210). -/
def flushProgram (w pages : Nat) : List MicroOp := cmds (windowBytes w pages) ++ [.data]

/-- The line setup and the reset pulse of the 4-wire transport (R177, R178); none on the 2-wire (R180). -/
def setupProgram (resActive : Bool) : TransportKind → List MicroOp
  | .twoWire => []
  | .fourWire =>
    [.line .dc false, .line .res resActive, .line .cs true,
     .line .res (!resActive), .sleep 1, .line .res resActive, .sleep 10, .line .res (!resActive)]

/-- The construction micro-program, in the order R201 lists it (and R362's rows 5 to 8): the COMMIT step stands between
the initialisation list and the flush, and takes its place in the step count (R376). DESIGN CHOICE (log 29): its update
is made when the construction completes (`State.complete`), so a construction whose flush fails or hangs leaves the
three fields without a value (R37 to R39, R219, R322, R340, D16). -/
def constructProgram (resActive : Bool) (w h : Int) (extVcc : Bool) (t : TransportKind) : List MicroOp :=
  setupProgram resActive t ++ [.checkGeometry w h, .alloc w h extVcc]
    ++ initProgram h.toNat extVcc ++ flushProgram w.toNat (h.toNat / 8)

/-- A 4-wire transport none of whose lines has been driven (log 7). -/
def undrivenFourWire (rate : Nat) : Transport :=
  .fourWire { dc := Config.undrivenLine .dc, cs := Config.undrivenLine .cs, res := Config.undrivenLine .res, rate := rate }

/-- The transport as the issue of construct makes it (R180, R201): a 4-wire one is set up by the LINE steps of R177,
which load its rate last (log 7). -/
def newTransport (cfg : Params) : TransportKind → Transport
  | .twoWire => .twoWire cfg.i2cAddr
  | .fourWire => undrivenFourWire Config.unloadedRate

/-! ## Placing a request (the loader behind `withFetchWord`, log 1) -/

/-- The phase in which the block takes its next request: as it is where the host has a move, else Ready. -/
def Phase.taking : Phase → Phase
  | .uninit => .uninit
  | .failed => .failed
  | .ready | .constructing | .busy | .hung | .refused => .ready

/-- A transport that can carry a request of an encoding space: the one there is, where it can; a 4-wire one made for it
has its rate loaded. -/
def transportFor (cfg : Params) (f : Format) (tr : Option Transport) : Option Transport :=
  match f, tr with
  | .hostRecord, t => t
  | .wireCommand, some t => some t
  | .wireCommand, none => some (newTransport cfg .twoWire)
  | .frame2Wire, some (.twoWire a) => some (.twoWire a)
  | .frame2Wire, _ => some (newTransport cfg .twoWire)
  | .frame4Wire, some (.fourWire r) => some (.fourWire r)
  | .frame4Wire, _ => some (undrivenFourWire cfg.spiRate)

/-- The request comes next. -/
def State.placeRequest (r : Request) (s : State) : State :=
  { s with
    phase := s.phase.taking
    op    := if s.phase.taking = s.phase then s.op else none
    tr    := transportFor s.cfg r.fmt s.tr
    env   := { s.env with requests := r :: s.env.requests } }

end Sys2Proof.Machine
end

