-- ==== Sys2Proof/Machine/Commands.lean ====
section
/-! DEFINITION. The 17 panel register commands (44_commands.md): each sends its group, opcode then arguments, one
command transfer a byte (R105, R270), and its shadow field is written by the group's last byte (R292). -/

namespace Sys2Proof.Machine

/-- SET_DISP (R271). -/
def execCmdDisp (on : Bool) (s : State) : Host.Outcome State Fault Refusal := sendGroup [fieldOpcode 0xAE 0 on] s

/-- SET_MEM_ADDR (R272). -/
def execCmdMemAddr (a1 : Byte) (s : State) : Host.Outcome State Fault Refusal := sendGroup [0x20, a1] s

/-- SET_DISP_START_LINE (R273). -/
def execCmdDispStartLine (s : State) : Host.Outcome State Fault Refusal := sendGroup [0x40] s

/-- SET_SEG_REMAP (R274). -/
def execCmdSegRemap (remap : Bool) (s : State) : Host.Outcome State Fault Refusal := sendGroup [fieldOpcode 0xA0 0 remap] s

/-- SET_MUX_RATIO (R275). -/
def execCmdMuxRatio (a1 : Byte) (s : State) : Host.Outcome State Fault Refusal := sendGroup [0xA8, a1] s

/-- SET_COM_OUT_DIR (R276). -/
def execCmdComOutDir (rev : Bool) (s : State) : Host.Outcome State Fault Refusal := sendGroup [fieldOpcode 0xC0 3 rev] s

/-- SET_DISP_OFFSET (R277). -/
def execCmdDispOffset (a1 : Byte) (s : State) : Host.Outcome State Fault Refusal := sendGroup [0xD3, a1] s

/-- SET_COM_PIN_CFG (R278). -/
def execCmdComPinCfg (a1 : Byte) (s : State) : Host.Outcome State Fault Refusal := sendGroup [0xDA, a1] s

/-- SET_DISP_CLK_DIV (R279). -/
def execCmdDispClkDiv (a1 : Byte) (s : State) : Host.Outcome State Fault Refusal := sendGroup [0xD5, a1] s

/-- SET_PRECHARGE (R280). -/
def execCmdPrecharge (a1 : Byte) (s : State) : Host.Outcome State Fault Refusal := sendGroup [0xD9, a1] s

/-- SET_VCOM_DESEL (R281). -/
def execCmdVcomDesel (a1 : Byte) (s : State) : Host.Outcome State Fault Refusal := sendGroup [0xDB, a1] s

/-- SET_CONTRAST (R282). -/
def execCmdContrast (a1 : Byte) (s : State) : Host.Outcome State Fault Refusal := sendGroup [0x81, a1] s

/-- SET_ENTIRE_ON (R283). -/
def execCmdEntireOn (s : State) : Host.Outcome State Fault Refusal := sendGroup [0xA4] s

/-- SET_NORM_INV (R284). -/
def execCmdNormInv (inv : Bool) (s : State) : Host.Outcome State Fault Refusal := sendGroup [fieldOpcode 0xA6 0 inv] s

/-- SET_CHARGE_PUMP (R285). -/
def execCmdChargePump (a1 : Byte) (s : State) : Host.Outcome State Fault Refusal := sendGroup [0x8D, a1] s

/-- SET_COL_ADDR (R286). -/
def execCmdColAddr (a1 a2 : Byte) (s : State) : Host.Outcome State Fault Refusal := sendGroup [0x21, a1, a2] s

/-- SET_PAGE_ADDR (R287). -/
def execCmdPageAddr (a1 a2 : Byte) (s : State) : Host.Outcome State Fault Refusal := sendGroup [0x22, a1, a2] s

end Sys2Proof.Machine
end

