-- ==== Sys2Proof/Machine/Controller.lean ====
section
/-! DEFINITION. Controller operations (42_controller.md): issue with the micro-program each rule gives. -/

namespace Sys2Proof.Machine

/-- `construct W, H, ext_vcc, transport` (R201): the one operation Uninit takes; refused in the others where the
host has a move (R221, R325). Its geometry is checked by a step of its own program (R202). -/
def execConstruct (w h : Int) (extVcc : Bool) (t : TransportKind) (s : State) : Host.Outcome State Fault Refusal :=
  match s.phase with
  | .uninit =>
    .next (State.issue (.construct w h extVcc t) .constructing (constructProgram s.cfg.resActive w h extVcc t)
      { s with tr := some (newTransport s.cfg t) })
  | .ready | .failed => .next (s.refuse .construct (.notReady .construct s.phase))
  | .constructing | .busy => .fault .noHostMove
  | .hung => .fault .hung
  | .refused => .fault .refusedPhase

/-- The program of `init_sequence`, from the height and the external-power flag (R205). -/
def initProgramOf (s : State) : Option (List MicroOp) :=
  match s.height, s.extVcc with
  | some h, some e => some (initProgram h e)
  | _, _ => none

/-- `init_sequence` (R205). -/
def execInitSequence (s : State) : Host.Outcome State Fault Refusal :=
  issueReady .initSequence (initProgramOf s) s

/-- The program of `flush`, from the geometry (R210). -/
def flushProgramOf (s : State) : Option (List MicroOp) :=
  match s.width, s.pages with
  | some w, some p => some (flushProgram w p)
  | _, _ => none

/-- `flush` (R210). -/
def execFlush (s : State) : Host.Outcome State Fault Refusal :=
  issueReady .flush (flushProgramOf s) s

/-- `power_on` (R213). -/
def execPowerOn (s : State) : Host.Outcome State Fault Refusal :=
  issueReady .powerOn (some [.cmd 0xAF, .commit { powerOn := some true }]) s

/-- `power_off` (R214). -/
def execPowerOff (s : State) : Host.Outcome State Fault Refusal :=
  issueReady .powerOff (some [.cmd 0xAE, .commit { powerOn := some false }]) s

/-- `set_contrast level` (R215). -/
def execSetContrast (level : Int) (s : State) : Host.Outcome State Fault Refusal :=
  issueReady (.setContrast level)
    (some [.cmd 0x81, .cmd (byteOf level.toNat), .commit { contrast := some (byteOf level.toNat) }]) s

/-- `set_inverted flag` (R216). -/
def execSetInverted (flag : Int) (s : State) : Host.Outcome State Fault Refusal :=
  issueReady (.setInverted flag)
    (some [.cmd (fieldOpcode 0xA6 0 (bitOf flag)), .commit { inverted := some (bitOf flag) }]) s

end Sys2Proof.Machine
end

