-- ==== Sys2Proof/Machine/Drawing.lean ====
section
/-! DEFINITION. Text and glyph rendering (43_drawing.md): programs of DRAW steps only (R240). -/

namespace Sys2Proof.Machine

/-- `draw_text s, col, row` (R242): one step; for the empty string it changes nothing (R241). -/
def execDrawText (str : List Char) (col row : Int) (s : State) : Host.Outcome State Fault Refusal :=
  issueReady (.drawText str col row) (some (if str = [] then [.draw .idle] else [.draw (.text str col row)])) s

/-- The steps `g_k, g_(k+1), …` of `draw_wide_glyphs` for the characters from position `k` on (R246). -/
def glyphSteps (col row : Int) : Nat → List Char → List MicroOp
  | _, [] => []
  | k, c :: cs => .draw (.glyph c k col row) :: glyphSteps col row (k + 1) cs

/-- The program of `draw_wide_glyphs` (R246); one step that changes nothing for the empty string (R241). -/
def glyphProgram (str : List Char) (col row : Int) : List MicroOp :=
  if str = [] then [.draw .idle] else glyphSteps col row 0 str

/-- `draw_wide_glyphs s, col, row` (R246). -/
def execDrawWideGlyphs (str : List Char) (col row : Int) (s : State) : Host.Outcome State Fault Refusal :=
  issueReady (.drawWideGlyphs str col row) (some (glyphProgram str col row)) s

end Sys2Proof.Machine
end

