-- ==== Sys2Proof/Machine/Framebuffer.lean ====
section
/-! DEFINITION. Host operations on the framebuffer (40_framebuffer.md): each is issued with a program of one DRAW
step (R140, R147), which `runMicro` runs. -/

namespace Sys2Proof.Machine

/-- `set_pixel x, y, value` (R142). -/
def execSetPixel (x y value : Int) (s : State) : Host.Outcome State Fault Refusal :=
  issueReady (.setPixel x y value) (some [.draw (.pixel x y (bitOf value))]) s

/-- `blit src, x, y, bw, bh` (R143). -/
def execBlit (src : List Byte) (x y bw bh : Int) (s : State) : Host.Outcome State Fault Refusal :=
  issueReady (.blit src x y bw bh) (some [.draw (.blit src x y bw bh)]) s

/-- `clear value` (R145). -/
def execClear (value : Int) (s : State) : Host.Outcome State Fault Refusal :=
  issueReady (.clear value) (some [.draw (.fill (bitOf value))]) s

end Sys2Proof.Machine
end

