-- ==== Sys2Proof/Machine/Frames.lean ====
section
/-! DEFINITION. The four transport frames (41_transport.md): the micro-operations CMD and DATA on each variant. A
frame of the variant the block was not constructed with has no port to go to (R170), and a block in a terminal phase
makes none (R339; log 2 for a frame put to the block on its own). -/

namespace Sys2Proof.Machine

/-- 2-wire command frame `[0x80, b]` (R107, R171). -/
def execI2cCommandFrame (b : Byte) (s : State) : Host.Outcome State Fault Refusal :=
  match s.halted with
  | some out => out
  | none =>
    match s.tr with
    | some (.twoWire addr) => .next (s.i2cCommand addr b)
    | some (.fourWire _) => .fault .otherTransport
    | none => .fault .noTransport

/-- 2-wire data frame `[0x40] ++ bs` (R108, R172). -/
def execI2cDataFrame (bs : List Byte) (s : State) : Host.Outcome State Fault Refusal :=
  match s.halted with
  | some out => out
  | none =>
    match s.tr with
    | some (.twoWire addr) => .next (s.i2cData addr bs)
    | some (.fourWire _) => .fault .otherTransport
    | none => .fault .noTransport

/-- 4-wire command transfer (R110, R174, R176). -/
def execSpiCommandTransfer (b : Byte) (s : State) : Host.Outcome State Fault Refusal :=
  match s.halted with
  | some out => out
  | none =>
    match s.tr with
    | some (.fourWire r) => .next (s.spiCommand r b)
    | some (.twoWire _) => .fault .otherTransport
    | none => .fault .noTransport

/-- 4-wire data transfer (R111, R175, R176). -/
def execSpiDataTransfer (bs : List Byte) (s : State) : Host.Outcome State Fault Refusal :=
  match s.halted with
  | some out => out
  | none =>
    match s.tr with
    | some (.fourWire r) => .next (s.spiData r bs)
    | some (.twoWire _) => .fault .otherTransport
    | none => .fault .noTransport

end Sys2Proof.Machine
end

