-- ==== Sys2Proof/Machine/Dispatch.lean ====
section
/-! DEFINITION. One arm per instruction, each a call of its meaning. -/

namespace Sys2Proof.Machine

def exec (i : Instr) (s : State) : Host.Outcome State Fault Refusal :=
  match i with
  -- the twelve host operations (R101)
  | .construct w h e t => Sys2Proof.Machine.execConstruct w h e t s
  | .initSequence => Sys2Proof.Machine.execInitSequence s
  | .flush => Sys2Proof.Machine.execFlush s
  | .powerOn => Sys2Proof.Machine.execPowerOn s
  | .powerOff => Sys2Proof.Machine.execPowerOff s
  | .setContrast level => Sys2Proof.Machine.execSetContrast level s
  | .setInverted flag => Sys2Proof.Machine.execSetInverted flag s
  | .setPixel x y value => Sys2Proof.Machine.execSetPixel x y value s
  | .blit src x y bw bh => Sys2Proof.Machine.execBlit src x y bw bh s
  | .clear value => Sys2Proof.Machine.execClear value s
  | .drawText str col row => Sys2Proof.Machine.execDrawText str col row s
  | .drawWideGlyphs str col row => Sys2Proof.Machine.execDrawWideGlyphs str col row s
  -- the 17 wire commands (R104)
  | .cmdDisp on => Sys2Proof.Machine.execCmdDisp on s
  | .cmdMemAddr a => Sys2Proof.Machine.execCmdMemAddr a s
  | .cmdDispStartLine => Sys2Proof.Machine.execCmdDispStartLine s
  | .cmdSegRemap remap => Sys2Proof.Machine.execCmdSegRemap remap s
  | .cmdMuxRatio a => Sys2Proof.Machine.execCmdMuxRatio a s
  | .cmdComOutDir rev => Sys2Proof.Machine.execCmdComOutDir rev s
  | .cmdDispOffset a => Sys2Proof.Machine.execCmdDispOffset a s
  | .cmdComPinCfg a => Sys2Proof.Machine.execCmdComPinCfg a s
  | .cmdDispClkDiv a => Sys2Proof.Machine.execCmdDispClkDiv a s
  | .cmdPrecharge a => Sys2Proof.Machine.execCmdPrecharge a s
  | .cmdVcomDesel a => Sys2Proof.Machine.execCmdVcomDesel a s
  | .cmdContrast a => Sys2Proof.Machine.execCmdContrast a s
  | .cmdEntireOn => Sys2Proof.Machine.execCmdEntireOn s
  | .cmdNormInv inv => Sys2Proof.Machine.execCmdNormInv inv s
  | .cmdChargePump a => Sys2Proof.Machine.execCmdChargePump a s
  | .cmdColAddr a b => Sys2Proof.Machine.execCmdColAddr a b s
  | .cmdPageAddr a b => Sys2Proof.Machine.execCmdPageAddr a b s
  -- the four transport frames (R107 to R111)
  | .i2cCommandFrame b => Sys2Proof.Machine.execI2cCommandFrame b s
  | .i2cDataFrame bs => Sys2Proof.Machine.execI2cDataFrame bs s
  | .spiCommandTransfer b => Sys2Proof.Machine.execSpiCommandTransfer b s
  | .spiDataTransfer bs => Sys2Proof.Machine.execSpiDataTransfer bs s

end Sys2Proof.Machine
end

