-- ==== Sys2Proof/Machine/Micro.lean ====
section
/-! DEFINITION. The sequencer (10_state.md R32 to R34): what one micro-operation does, and the request the block
takes when none is in progress. Step.lean only calls these. -/

namespace Sys2Proof.Machine

/-- CMD b: one command transfer, the frame of the transport the block has (R171, R174). -/
def runCmd (b : Byte) (s : State) : Host.Outcome State Fault Refusal :=
  match s.tr with
  | some (.twoWire _) => exec (.i2cCommandFrame b) s
  | some (.fourWire _) => exec (.spiCommandTransfer b) s
  | none => .fault .noTransport

/-- The payload of a DATA step: `MemRead(0, pages*W)`, read when the step runs (R172, R211). -/
def flushPayload (s : State) : Option (List Byte) :=
  match s.width, s.pages, s.fb with
  | some w, some p, some m => some (m.bytes (p * w))
  | _, _, _ => none

/-- DATA: one data transfer of the whole framebuffer (R172, R175). -/
def runData (s : State) : Host.Outcome State Fault Refusal :=
  match flushPayload s with
  | some bs =>
    match s.tr with
    | some (.twoWire _) => exec (.i2cDataFrame bs) s
    | some (.fourWire _) => exec (.spiDataTransfer bs) s
    | none => .fault .noTransport
  | none => .fault .noValue

/-- LINE L v (R177, R178). -/
def runLine (l : Line) (v : Bool) (s : State) : Host.Outcome State Fault Refusal :=
  match s.tr with
  | some (.fourWire r) => .next (s.driveLine r l v).advance
  | some (.twoWire _) => .fault .otherTransport
  | none => .fault .noTransport

/-- CHECK_GEOMETRY (R202, R321). -/
def runCheckGeometry (w h : Int) (s : State) : State :=
  if geometryOk w h then s.advance else s.raise (.invalidGeometry w h)

/-- ALLOC (R203). -/
def runAlloc (w h : Int) (extVcc : Bool) (s : State) : State :=
  { s with
    width  := some w.toNat
    height := some h.toNat
    pages  := some (h.toNat / 8)
    extVcc := some extVcc
    fb     := some (Memory.filled (h.toNat / 8 * w.toNat) 0x00)
    seq    := s.seq + 1 }

/-- DRAW f (R32): the framebuffer update and its reports. -/
def runDraw (d : DrawOp) (s : State) : Host.Outcome State Fault Refusal :=
  match s.width, s.height, s.pages, s.fb with
  | some w, some h, some p, some m =>
    .next { s with
      fb    := some (d.run s.rom w h p m)
      trace := s.trace ++ d.events s.rom
      seq   := s.seq + 1 }
  | _, _, _, _ => .fault .noValue

/-- One micro-operation (R32). The update of a COMMIT is made by the completion of its operation, which follows the
COMMIT in the same transition in every program but construct's (R37 to R39, R219). In construct's, a failure of the
flush finds the earlier COMMIT without its effect, which R322 asks and R327's "every step < seq" does not (log 29). -/
def runMicro (m : MicroOp) (s : State) : Host.Outcome State Fault Refusal :=
  match m with
  | .cmd b => runCmd b s
  | .data => runData s
  | .line l v => runLine l v s
  | .sleep ms => .next (s.emit [.sleep ms]).advance
  | .checkGeometry w h => .next (runCheckGeometry w h s)
  | .alloc w h e => .next (runAlloc w h e s)
  | .draw d => runDraw d s
  | .commit _ => .next s.advance

/-- After the micro-operation, the completion check (R34, R220). -/
def thenFinish : Host.Outcome State Fault Refusal → Host.Outcome State Fault Refusal
  | .next s => .next s.finish
  | .fault f => .fault f
  | .refused r => .refused r

/-- A sequencer step: `s.prog[s.seq]`, then the completion check; with the index at the program's end already, the
check alone (R34). -/
def sequencerStep (s : State) : Host.Outcome State Fault Refusal :=
  match s.prog[s.seq]? with
  | some m => thenFinish (runMicro m s)
  | none => if s.seq = s.prog.length then .next s.complete else .fault .pastProgram

/-- With no operation in progress the block takes the host's next request; with none queued it waits (R8, log 1). -/
def takeRequest (s : State) : Host.Outcome State Fault Refusal :=
  match s.env.requests with
  | [] => .next s
  | r :: rest =>
    match decode r.fmt r.bytes with
    | .ok i => exec i { s with env := { s.env with requests := rest } }
    | .error e => .refused (.undecodable e)

/-- One transition of the block, by its phase (R31, R200, R339). -/
def stepBlock (s : State) : Host.Outcome State Fault Refusal :=
  match s.phase with
  | .uninit | .ready | .failed => takeRequest s
  | .constructing | .busy => sequencerStep s
  | .hung => .fault .hung
  | .refused => .fault .refusedPhase

end Sys2Proof.Machine
end

