-- ==== Sys2Proof/Machine/Step.lean ====
section
/-! DEFINITION. One step of the machine, and the placing of a table word where it takes its next instruction. -/

namespace Sys2Proof.Machine

/-- One step (R34, R200). -/
def step (s : State) : Host.Outcome State Fault Refusal := stepBlock s

/-- The instruction a table word stands for, queued as the block's next request, with a transport that can carry it
where it is a wire-level one (log 1, log 2). -/
def State.withFetchWord (s : State) (nbits w : Nat) : State :=
  s.placeRequest ⟨(tableImage nbits w).1, (tableImage nbits w).2⟩

end Sys2Proof.Machine
end

