-- ==== Sys2Proof/Machine/Trace.lean ====
section
/-! DEFINITION. The variant-independent view of the wire trace (41_transport.md R184). -/

namespace Sys2Proof.Machine

/-- An abstract transfer with its answer (R184). -/
inductive Xfer where
  | cmd (b : Byte) (ans : Answer)
  | data (bs : List Byte) (ans : Answer)
deriving DecidableEq, Repr

/-- What a 2-wire transaction carries: 0x80 and one command byte, or 0x40 and data (R115, R184). The block makes no
transaction of another form. -/
def i2cXfer (bytes : List Byte) (ans : Answer) : List Xfer :=
  match bytes with
  | [] => []
  | p :: rest =>
    if p = 0x80 then
      match rest with
      | [b] => [.cmd b ans]
      | _ => []
    else if p = 0x40 then [.data rest ans]
    else []

/-- What a 4-wire write carries, by the last level of DC driven before it (R184); a write before any has no reading. -/
def spiXfer (dc : Option Bool) (bytes : List Byte) (ans : Answer) : List Xfer :=
  match dc with
  | some false =>
    match bytes with
    | b :: _ => [.cmd b ans]
    | [] => []
  | some true => [.data bytes ans]
  | none => []

/-- `ctrace` of a trace whose last DC event so far is `dc`. -/
def ctraceFrom : Option Bool → List Event → List Xfer
  | _, [] => []
  | dc, .i2c _ bytes ans :: es => i2cXfer bytes ans ++ ctraceFrom dc es
  | dc, .spi bytes ans :: es => spiXfer dc bytes ans ++ ctraceFrom dc es
  | _, .dc v :: es => ctraceFrom (some v) es
  | dc, .spiCfg _ :: es => ctraceFrom dc es
  | dc, .cs _ :: es => ctraceFrom dc es
  | dc, .res _ :: es => ctraceFrom dc es
  | dc, .sleep _ :: es => ctraceFrom dc es
  | dc, .glyphMiss _ _ :: es => ctraceFrom dc es
  | dc, .result _ _ :: es => ctraceFrom dc es

/-- `ctrace(trace)` (R184). -/
def ctrace (es : List Event) : List Xfer := ctraceFrom none es

/-- The reports and results of a trace, in order: everything `ctrace` drops that is not a line of the 4-wire port. -/
def reports : List Event → List Event
  | [] => []
  | .glyphMiss k i :: es => .glyphMiss k i :: reports es
  | .result op r :: es => .result op r :: reports es
  | .i2c _ _ _ :: es => reports es
  | .spi _ _ :: es => reports es
  | .dc _ :: es => reports es
  | .spiCfg _ :: es => reports es
  | .cs _ :: es => reports es
  | .res _ :: es => reports es
  | .sleep _ :: es => reports es

end Sys2Proof.Machine
end

