-- ==== Sys2Proof/Machine/PanelRef.lean ====
section
/-! DEFINITION. The panel reference model (44_commands.md R288 to R290), which the spec marks non-normative: no step
of the block uses it. It says what a correct panel shows for what the block sent. It is not part of State: the panel
is outside the block (R6; log 21). -/

namespace Sys2Proof.Machine

/-- A panel in horizontal addressing mode: its display memory of 8 pages by 128 columns, one byte each (R288), its write
pointer (R289) and its command parser, which takes the same groups as the block's shadow (R104). -/
structure RefPanel where
  ram    : Fin 8 → Fin 128 → Byte
  page   : Nat
  column : Nat
  parser : Panel

/-- The panel's pixel in a row of its 64 and a column of its 128: bit 0 of a byte is the top row of its page (R288). DESIGN
CHOICE (log 27): it is the memory's bit, whatever the panel's inversion, remap, scan and offset registers hold. -/
def RefPanel.pixel (p : RefPanel) (row : Fin 64) (column : Fin 128) : Bool :=
  (p.ram ⟨row.val / 8, by omega⟩ column).getLsbD (row.val % 8)

/-- A data byte stored at the pointer, and the pointer's move inside the window (R289). DESIGN CHOICE (log 27): R289 is
silent on a window that leaves the memory of R288, which the block never sends; a pointer outside it stores nowhere. -/
def RefPanel.store (x0 x1 p0 p1 : Nat) (b : Byte) (p : RefPanel) : RefPanel :=
  { p with
    ram    := fun page col => if page.val = p.page ∧ col.val = p.column then b else p.ram page col
    column := if p.column + 1 > x1 then x0 else p.column + 1
    page   := if p.column + 1 > x1 then (if p.page + 1 > p1 then p0 else p.page + 1) else p.page }

/-- A command byte: the parser takes it; the last byte of a window group resets the pointer. DESIGN CHOICE (log 27): R289
says that a SET_COL_ADDR and a SET_PAGE_ADDR together reset it to `(page p0, column x0)` and not what one does alone; here
SET_COL_ADDR resets the column only and SET_PAGE_ADDR the page only, which after both is R289's. DESIGN CHOICE (log 27)
too: no rule says what this panel does once its parser has lost sync, as an unlisted opcode makes it (U13, log 11). Here
the parser ignores every later command byte (R292's `return`); a window group that stands one byte short of its end then
stays open, and each command byte resets the pointer's coordinate again. -/
def RefPanel.command (b : Byte) (p : RefPanel) : RefPanel :=
  match p.parser.pend with
  | some (c, [a1]) =>
    { p with
      parser := p.parser.update b
      column := if c = 0x21 then a1.toNat else p.column
      page   := if c = 0x22 then a1.toNat else p.page }
  | _ => { p with parser := p.parser.update b }

/-- A data block: each byte in turn, in the window last set. DESIGN CHOICE (log 27): R289 speaks of horizontal addressing
mode only; here the bytes are stored as in that mode whatever the parser's `memAddrMode` holds (unknown, 0x00, 0x01, 0x02
or any other byte), and also with a command group open or sync lost. R289 describes no write with no window set; here the
memory keeps its bytes. -/
def RefPanel.block (bs : List Byte) (p : RefPanel) : RefPanel :=
  match p.parser.regs.colWindow, p.parser.regs.pageWindow with
  | some (x0, x1), some (p0, p1) =>
    bs.foldl (fun p b => p.store x0.toNat x1.toNat p0.toNat p1.toNat b) p
  | _, _ => p

/-- A transfer that was answered ok reaches the panel. DESIGN CHOICE (log 27): any other leaves it as it is. -/
def RefPanel.receive (p : RefPanel) (x : Xfer) : RefPanel :=
  match x with
  | .cmd b .ok => p.command b
  | .data bs .ok => p.block bs
  | .cmd _ .fail | .cmd _ .hang | .data _ .fail | .data _ .hang => p

/-- What the panel holds after the transfers of a trace. -/
def RefPanel.after (es : List Event) (p : RefPanel) : RefPanel := (ctrace es).foldl RefPanel.receive p

end Sys2Proof.Machine
end

