-- ==== Sys2Proof/Safety.lean ====
section
/-! DEFINITION. What claims speak of: runs, the block's whole-state invariant, and the parts it is made of. -/

namespace Sys2Proof.Machine

/-- `k` steps, stopping at the first fault or refusal. -/
def runSteps : Nat → State → Host.Outcome State Fault Refusal
  | 0, s => .next s
  | k + 1, s =>
    match step s with
    | .next s' => runSteps k s'
    | .fault f => .fault f
    | .refused r => .refused r

/-- The framebuffer byte at an index (R15, `MemRead(i, 1)`): no value where no framebuffer exists (R51, log 23). At an
index past the framebuffer's end, where R15 never reads, it is what `Memory.read` answers (log 10). -/
def State.fbByte (s : State) (a : Nat) : Option Byte := s.fb.map fun m => m.read a

/-- Pixel `(x, y)` of a state's framebuffer (R72): no value outside the canvas (U9), nor before construction (R51). -/
def State.pixel (s : State) (x y : Int) : Option Bool :=
  match s.width, s.height, s.fb with
  | some w, some h, some m => pixRead w h m x y
  | _, _, _ => none

/-- Constructed: a supported geometry and a framebuffer in canonical form of exactly `pages*W` bytes (R35, R41). -/
def Built (s : State) : Prop :=
  ∃ w h e m, s.width = some w ∧ s.height = some h ∧ s.pages = some (h / 8) ∧ s.extVcc = some e ∧ s.fb = some m ∧
    (w = 64 ∨ w = 128) ∧ (h = 32 ∨ h = 64) ∧ Memory.wf (h / 8 * w) m = true

/-- Not constructed: none of these fields holds a value (R51, R321). -/
def Unbuilt (s : State) : Prop :=
  s.width = none ∧ s.height = none ∧ s.pages = none ∧ s.extVcc = none ∧ s.fb = none

/-- The micro-operations still to run; none outside an operation. -/
def State.remaining (s : State) : List MicroOp := if s.phase.running then s.prog.drop s.seq else []

/-- The command bytes of a program, in order. -/
def cmdBytes : List MicroOp → List Byte
  | [] => []
  | .cmd b :: ms => b :: cmdBytes ms
  | .data :: ms => cmdBytes ms
  | .line _ _ :: ms => cmdBytes ms
  | .sleep _ :: ms => cmdBytes ms
  | .checkGeometry _ _ :: ms => cmdBytes ms
  | .alloc _ _ _ :: ms => cmdBytes ms
  | .draw _ :: ms => cmdBytes ms
  | .commit _ :: ms => cmdBytes ms

/-- The shadow after command bytes each answered ok. -/
def panelAfter (bytes : List Byte) (p : Panel) : Panel := bytes.foldl (fun p b => p.update b) p

/-- The state with the update of the operation in progress made, as its completion will make it (R219). -/
def State.atEnd (s : State) : State := if s.phase.running then s.commit (commitOf s.prog) else s

/-- The panel shadow and the controller's shadow fields say the same of power, contrast and inversion, and no command
group is open. -/
def PanelMatches (p : Panel) (s : State) : Prop :=
  p.sync = true ∧ p.pend = none ∧ p.regs.displayOn = s.powerOn ∧ p.regs.contrast = s.contrast ∧
    p.regs.invert = s.inverted

/-- While `sync = 1`: running the rest of the program with every answer ok makes the two shadows agree, on whole
groups (R44, R291, R292). With no operation in progress that is: they agree now. The terminal phases are left out: an
operation may have stopped between its first command and its COMMIT. -/
def ShadowsAgree (s : State) : Prop :=
  s.phase ≠ .hung → s.phase ≠ .failed → s.phase ≠ .refused → s.panel.sync = true →
    PanelMatches (panelAfter (cmdBytes s.remaining) s.panel) s.atEnd

/-- Nothing in the rest of a program reads a field that will hold no value, or a line the transport lacks, when its
turn comes; `built` says whether the framebuffer exists before it. -/
def runnable (t : Transport) : Bool → List MicroOp → Bool
  | built, [] => built
  | built, .cmd _ :: ms => runnable t built ms
  | built, .data :: ms => built && runnable t built ms
  | built, .line _ _ :: ms => (match t with | .fourWire _ => true | .twoWire _ => false) && runnable t built ms
  | built, .sleep _ :: ms => runnable t built ms
  | built, .checkGeometry w h :: ms => if geometryOk w h then runnable t built ms else true
  | built, .alloc w h _ :: ms => !built && geometryOk w h && runnable t true ms
  | built, .draw _ :: ms => built && runnable t built ms
  | built, .commit _ :: ms => runnable t built ms

/-- The program an operation expands to at issue (R32). -/
def expansion (i : Instr) (s : State) : Option (List MicroOp) :=
  match i with
  | .construct w h e t => some (constructProgram s.cfg.resActive w h e t)
  | .initSequence => initProgramOf s
  | .flush => flushProgramOf s
  | .powerOn => some [.cmd 0xAF, .commit { powerOn := some true }]
  | .powerOff => some [.cmd 0xAE, .commit { powerOn := some false }]
  | .setContrast level =>
    some [.cmd 0x81, .cmd (byteOf level.toNat), .commit { contrast := some (byteOf level.toNat) }]
  | .setInverted flag => some [.cmd (fieldOpcode 0xA6 0 (bitOf flag)), .commit { inverted := some (bitOf flag) }]
  | .setPixel x y value => some [.draw (.pixel x y (bitOf value))]
  | .blit src x y bw bh => some [.draw (.blit src x y bw bh)]
  | .clear value => some [.draw (.fill (bitOf value))]
  | .drawText str col row => some (if str = [] then [.draw .idle] else [.draw (.text str col row)])
  | .drawWideGlyphs str col row => some (glyphProgram str col row)
  | .cmdDisp _ | .cmdMemAddr _ | .cmdDispStartLine | .cmdSegRemap _ | .cmdMuxRatio _ | .cmdComOutDir _
  | .cmdDispOffset _ | .cmdComPinCfg _ | .cmdDispClkDiv _ | .cmdPrecharge _ | .cmdVcomDesel _ | .cmdContrast _
  | .cmdEntireOn | .cmdNormInv _ | .cmdChargePump _ | .cmdColAddr _ _ | .cmdPageAddr _ _ => none
  | .i2cCommandFrame _ | .i2cDataFrame _ | .spiCommandTransfer _ | .spiDataTransfer _ => none

/-- The operation is construct. -/
def isConstruct (i : Instr) : Bool := opNameOf i == .construct

/-- The line setup of a 4-wire construction has not yet made its last step, which loads the rate (R177). -/
def SetupPending (s : State) : Prop :=
  s.phase = .constructing ∧ s.seq < 3 ∧
    ∃ dc res cs, s.prog.take 3 = [.line .dc dc, .line .res res, .line .cs cs]

/-- The transport holds the configuration's constants (R43). -/
def TransportFits (cfg : Params) : Transport → Prop
  | .twoWire a => a = cfg.i2cAddr
  | .fourWire r => r.rate = cfg.spiRate

/-- What the phase says of the other fields (R31, R32, R51, R52, R200). -/
def PhaseFits (s : State) : Prop :=
  match s.phase with
  | .uninit => Unbuilt s ∧ s.op = none ∧ s.tr = none
  | .constructing =>
    ∃ i t, s.op = some i ∧ isConstruct i = true ∧ expansion i s = some s.prog ∧ s.tr = some t ∧
      s.seq < s.prog.length ∧ runnable t s.fb.isSome (s.prog.drop s.seq) = true
  | .busy =>
    ∃ i t, s.op = some i ∧ isConstruct i = false ∧ i.wf = true ∧ expansion i s = some s.prog ∧ s.tr = some t ∧
      s.seq < s.prog.length ∧ runnable t true (s.prog.drop s.seq) = true ∧ Built s
  | .ready => Built s ∧ s.op = none ∧ s.tr.isSome = true
  | .failed => s.op = none ∧ s.tr.isSome = true
  | .hung => s.op = none ∧ s.tr.isSome = true
  | .refused => s.op = none

/-- None of the controller's shadow fields holds a value. -/
def ShadowsEmpty (s : State) : Prop := s.powerOn = none ∧ s.contrast = none ∧ s.inverted = none

/-- The controller's shadow fields all hold values. -/
def ShadowsHold (s : State) : Prop := s.powerOn.isSome = true ∧ s.contrast.isSome = true ∧ s.inverted.isSome = true

/-- The controller's shadow fields hold no value before a construction completes, nor after one that failed, and a
construction that completes gives them theirs (R37 to R39, R219, R340, log 29). -/
def ShadowsFilled (s : State) : Prop :=
  (s.phase = .uninit ∨ s.phase = .constructing ∨ s.phase = .failed → ShadowsEmpty s) ∧
    (s.phase = .ready ∨ s.phase = .busy → ShadowsHold s) ∧ (s.phase = .constructing → ShadowsHold s.atEnd)

/-- A remembered image has the framebuffer's length (R47). -/
def FlushedFits (s : State) : Prop :=
  ∀ bs, s.flushed = some bs → ∃ w p, s.width = some w ∧ s.pages = some p ∧ bs.length = p * w

/-- The host queues host operations only (R2, R8): the premise under which a run is one of the spec's block (log 2). -/
def HostOnly (s : State) : Prop := ∀ r ∈ s.env.requests, r.fmt = .hostRecord

/-- The phase is none of the three terminal ones (R339). -/
abbrev NotTerminal (s : State) : Prop := s.phase ≠ .failed ∧ s.phase ≠ .refused ∧ s.phase ≠ .hung

/-- The block's invariant. -/
structure Inv (s : State) : Prop where
  geometry  : Built s ∨ Unbuilt s
  phaseFits : PhaseFits s
  mark      : s.refused = true ↔ s.phase = .refused
  romFits   : GlyphRom.wf s.rom = true
  wires     : ∀ t, s.tr = some t → TransportFits s.cfg t ∨ SetupPending s
  host      : HostOnly s
  agree     : ShadowsAgree s
  filled    : ShadowsFilled s
  image     : FlushedFits s

/-! ## The vocabulary of claims about transfers -/

/-- The next `n` answers of the bus are all `ok`, as an environment may have it (R181: "a claim that an operation
completes must assume that every answer in it is `ok`"). -/
def AnswersOk (n : Nat) (s : State) : Prop := ∃ rest, s.env.answers = List.replicate n Answer.ok ++ rest

/-- The events of one transfer of `bytes` answered ok, a command (`dc = false`, one byte) or data (R107, R108, R110,
R111). -/
def okEvents (t : Transport) (dc : Bool) (bytes : List Byte) : List Event :=
  match t with
  | .twoWire a => [.i2c a ((if dc then 0x40 else 0x80) :: bytes) .ok]
  | .fourWire r => [.spiCfg r.rate, .cs false, .dc dc, .spi bytes .ok, .cs true]

/-- The transport's registers after a transfer answered ok: on the 4-wire one DC as driven and CS deasserted. -/
def okTransport (t : Transport) (dc : Bool) : Transport :=
  match t with
  | .twoWire a => .twoWire a
  | .fourWire r => .fourWire { r with dc := dc, cs := true }

/-- The events of command bytes each sent by a transfer of its own and answered ok (R105). -/
def okCommands (t : Transport) (bytes : List Byte) : List Event := bytes.flatMap fun b => okEvents t false [b]

/-- The events of a transfer that was not answered ok, with what the draw then does to chip-select (R171, R172, R174
to R176). -/
def badEvents (t : Transport) (dc : Bool) (bytes : List Byte) (ans : Answer) (d : CsDraw) : List Event :=
  match t with
  | .twoWire a => [.i2c a ((if dc then 0x40 else 0x80) :: bytes) ans]
  | .fourWire r =>
    [.spiCfg r.rate, .cs false, .dc dc, .spi bytes ans] ++
      (if ans = .fail ∧ d = .deassert then [.cs true] else [])

/-- The transport's registers after it: chip-select still asserted unless a failure's draw deasserted it (R176). -/
def badTransport (t : Transport) (dc : Bool) (ans : Answer) (d : CsDraw) : Transport :=
  match t with
  | .twoWire a => .twoWire a
  | .fourWire r => .fourWire { r with dc := dc, cs := decide (ans = .fail ∧ d = .deassert) }

/-- Two states of blocks that differ in their transport alone, as R184 compares them: one 2-wire, one 4-wire, the same
abstract transfers, the same reports, and the same every other field (the chip-select draws belong to the 4-wire port). -/
structure SameButWires (s t : State) : Prop where
  twoWire  : ∃ a, s.tr = some (.twoWire a)
  fourWire : ∃ r, t.tr = some (.fourWire r)
  fields   : { s with tr := none, trace := [], env := { s.env with csDraws := [], csDrawCount := 0 } } =
               { t with tr := none, trace := [], env := { t.env with csDraws := [], csDrawCount := 0 } }
  transfers : ctrace s.trace = ctrace t.trace
  reported  : reports s.trace = reports t.trace

end Sys2Proof.Machine
end

