-- ==== Sys2Proof/Certificates/Slice0/Obligations.lean ====
section
/-! DEFINITION. The statements for the provers, in the order of OBLIGATIONS.json. Where a conclusion says
`∃ prog seq env, v = …`, the program and step index after an operation are left free (R33) and `env`, the model's own
record of the environment's moves, is not spoken of; every field the record does not name is as it was. -/

open Sys2Proof Sys2Proof.Machine

/-! ## Encoding -/

/-- Every instruction, with every operand at every value, is what the decoder reads from its encoding. The operand
bytes of a host record (log 3) and the level of DC that begins the image of a 4-wire frame (log 4) are the model's. -/
def Obligations.DecodeEncodeRoundTrip : Prop := ∀ i : Instr, decode i.format (encode i) = .ok i

/-- Words written out from the spec's encodings (R101's tags, R104's opcodes, R107, R108). -/
def Obligations.SpecWordsDecode : Prop :=
  decode .hostRecord [0x03] = .ok .flush ∧ decode .hostRecord [0x05] = .ok .powerOff ∧
  decode .wireCommand [0xAF] = .ok (.cmdDisp true) ∧ decode .wireCommand [0xAE] = .ok (.cmdDisp false) ∧
  decode .wireCommand [0xC8] = .ok (.cmdComOutDir true) ∧ decode .wireCommand [0x81, 0x7F] = .ok (.cmdContrast 0x7F) ∧
  decode .wireCommand [0x21, 0x20, 0x5F] = .ok (.cmdColAddr 0x20 0x5F) ∧
  decode .frame2Wire [0x80, 0xAE] = .ok (.i2cCommandFrame 0xAE) ∧
  decode .frame2Wire [0x40, 0x01, 0x02] = .ok (.i2cDataFrame [0x01, 0x02]) ∧
  decode .wireCommand [0xA5] = .error (.unknownOpcode 0xA5)

/-- The opcode map: 17 rows, no two of which share a byte, and exactly 21 opcode bytes, of which eleven take arguments
(R112). The decoder goes by it: a group that starts with any other byte is refused as an unknown opcode (R114), and one
of the 21 with exactly its number of arguments, whatever they are, and no other number is the instruction that
encodes to it (R104, R115). -/
def Obligations.OpcodeMapIsExact : Prop :=
  opcodeTable.length = 17 ∧
  (∀ c : Byte, ∀ r ∈ opcodeTable, ∀ r' ∈ opcodeTable, c &&& r.mask = r.base → c &&& r'.mask = r'.base → r = r') ∧
  (∀ c : Byte, argCount c ≠ none ↔ c ∈ ([0x20, 0x21, 0x22, 0x40, 0x81, 0x8D, 0xA0, 0xA1, 0xA4, 0xA6, 0xA7, 0xA8, 0xAE,
    0xAF, 0xC0, 0xC8, 0xD3, 0xD5, 0xD9, 0xDA, 0xDB] : List Byte)) ∧
  (∀ c : Byte, (∃ k, argCount c = some (k + 1)) ↔ c ∈ ([0x20, 0x21, 0x22, 0x81, 0x8D, 0xA8, 0xD3, 0xD5, 0xD9, 0xDA,
    0xDB] : List Byte)) ∧
  (∀ (c : Byte) (args : List Byte), argCount c = none → decodeWire (c :: args) = .error (.unknownOpcode c)) ∧
  (∀ (c : Byte) (args : List Byte) (k : Nat), argCount c = some k →
    if args.length = k then ∃ i, decodeWire (c :: args) = .ok i ∧ i.format = .wireCommand ∧ encode i = c :: args
    else decodeWire (c :: args) = .error (if args.length < k then .truncated else .trailingBytes))

/-! ## The step -/

/-- With no operation in progress, where the next request's bytes decode to an instruction, the step is that
instruction's meaning with the request taken from the queue (the queue is the model's: log 1). -/
def Obligations.StepRunsTheDecodedRequest : Prop :=
  ∀ (s : State) (r : Request) (rest : List Request) (i : Instr),
    s.phase = .uninit ∨ s.phase = .ready ∨ s.phase = .failed → s.env.requests = r :: rest →
    decode r.fmt r.bytes = .ok i →
    step s = exec i { s with env := { s.env with requests := rest } }

/-- With an operation in progress, the step executes `s.prog[s.seq]`; CMD and DATA are the frames of the transport the
block has, and an index that has reached the program's end completes the operation (R32, R34, R220). -/
def Obligations.StepRunsTheProgram : Prop :=
  ∀ (s : State) (m : MicroOp), s.phase = .constructing ∨ s.phase = .busy → s.prog[s.seq]? = some m →
    (∀ t, runMicro m s = .next t → step s = .next (if (t.phase = .constructing ∨ t.phase = .busy) ∧
      t.seq = t.prog.length then t.complete else t)) ∧
    (∀ f, runMicro m s = .fault f → step s = .fault f) ∧
    (∀ b a, m = .cmd b → s.tr = some (.twoWire a) → runMicro m s = exec (.i2cCommandFrame b) s) ∧
    (∀ b r, m = .cmd b → s.tr = some (.fourWire r) → runMicro m s = exec (.spiCommandTransfer b) s) ∧
    (∀ w p g a, m = .data → s.width = some w → s.pages = some p → s.fb = some g → s.tr = some (.twoWire a) →
      runMicro m s = exec (.i2cDataFrame (g.bytes (p * w))) s) ∧
    (∀ w p g r, m = .data → s.width = some w → s.pages = some p → s.fb = some g → s.tr = some (.fourWire r) →
      runMicro m s = exec (.spiDataTransfer (g.bytes (p * w))) s)

/-- A table word placed for fetching is the instruction the very next step runs (log 1). -/
def Obligations.PlacedWordRunsNext : Prop :=
  ∀ (s : State) (nbits w : Nat) (i : Instr), decodeTableWord nbits w = some i →
    step (s.withFetchWord nbits w) = exec i { s.withFetchWord nbits w with env := s.env }

/-- Hung and Refused have no step, so no instruction runs there, and in Failed every host operation is refused NotReady (R339). -/
def Obligations.TerminalPhases : Prop :=
  (∀ (s : State) (i : Instr), s.phase = .hung → step s = .fault .hung ∧ exec i s = .fault .hung) ∧
  (∀ (s : State) (i : Instr), s.phase = .refused → step s = .fault .refusedPhase ∧ exec i s = .fault .refusedPhase) ∧
  (∀ (s : State) (i : Instr), s.phase = .failed → i.format = .hostRecord →
    exec i s = .next { s with
      phase := .refused, refused := true
      result := some (.err (.notReady (opNameOf i) .failed))
      trace := s.trace ++ [.result (opNameOf i) (.err (.notReady (opNameOf i) .failed))] })

/-! ## Reset and the invariant -/

/-- The power-up value of every field (R51). -/
def Obligations.PowerUpState : Prop :=
  State.reset.phase = .uninit ∧ State.reset.op = none ∧ State.reset.prog = [] ∧ State.reset.width = none ∧
  State.reset.height = none ∧ State.reset.pages = none ∧ State.reset.extVcc = none ∧ State.reset.powerOn = none ∧
  State.reset.contrast = none ∧ State.reset.inverted = none ∧ State.reset.fb = none ∧ State.reset.tr = none ∧
  State.reset.panel.shown = {} ∧ State.reset.panel.sync = true ∧ State.reset.panel.pend = none ∧
  State.reset.trace = [] ∧ State.reset.result = none ∧ State.reset.flushed = none ∧ State.reset.refused = false

/-- The invariant holds at power-up. -/
def Obligations.PowerUpMeetsTheInvariant : Prop := Inv State.reset

/-- Every step keeps the invariant: a supported geometry with a canonical framebuffer of exactly `pages*W` bytes or
none at all, a program that is what its operation expands to, fields fitting the phase, the refusal mark, the
transport's constants, and the two shadows in agreement while `sync = 1`. Power, contrast and inversion hold no value until
a construction completes, nor after one that failed (R37 to R39, R219, R340; log 29). -/
def Obligations.StepKeepsTheInvariant : Prop := ∀ s t : State, Inv s → step s = .next t → Inv t

/-! ## Issue and refusal -/

/-- Issue in Ready with legal operands loads the operation's program and changes no other field (R218). -/
def Obligations.IssueLoadsTheProgram : Prop :=
  ∀ (s : State) (i : Instr) (p : List MicroOp), s.phase = .ready → i.format = .hostRecord →
    (∀ w h e t, i ≠ .construct w h e t) → i.wf = true → expansion i s = some p →
    exec i s = .next { s with op := some i, prog := p, seq := 0, phase := .busy }

/-- Construct in a phase other than Uninit, and any other operation before Ready or after a failed construction, is
refused NotReady whatever its operands: only the result, the RESULT event, the mark and the phase change (R221, R325,
R326). In Constructing and Busy the host has no move, and Hung and Refused have no step. -/
def Obligations.WrongPhaseIsRefused : Prop :=
  ∀ (s : State) (i : Instr), i.format = .hostRecord →
    ((∃ w h e t, i = .construct w h e t) ∧ (s.phase = .ready ∨ s.phase = .failed)) ∨
      ((∀ w h e t, i ≠ .construct w h e t) ∧ (s.phase = .uninit ∨ s.phase = .failed)) →
    exec i s = .next { s with
      phase := .refused, refused := true
      result := some (.err (.notReady (opNameOf i) s.phase))
      trace := s.trace ++ [.result (opNameOf i) (.err (.notReady (opNameOf i) s.phase))] }

/-- An operand outside its domain is refused InvalidOperand at issue: nothing is sent and nothing else changes (R324). -/
def Obligations.IllegalOperandIsRefused : Prop :=
  ∀ (s : State), s.phase = .ready →
    let refusedAs (op : OpName) (o : OperandName) : Host.Outcome State Fault Refusal :=
      .next { s with
        phase := .refused, refused := true
        result := some (.err (.invalidOperand op o))
        trace := s.trace ++ [.result op (.err (.invalidOperand op o))] }
    (∀ level, level < 0 ∨ 255 < level → exec (.setContrast level) s = refusedAs .setContrast .level) ∧
    (∀ flag, flag ≠ 0 → flag ≠ 1 → exec (.setInverted flag) s = refusedAs .setInverted .flag) ∧
    (∀ x y value, value ≠ 0 → value ≠ 1 → exec (.setPixel x y value) s = refusedAs .setPixel .value) ∧
    (∀ value, value ≠ 0 → value ≠ 1 → exec (.clear value) s = refusedAs .clear .value) ∧
    (∀ src x y bw bh, 0 < bw → 0 < bh → (src.length : Int) < bh * ((bw + 7) / 8) →
      exec (.blit src x y bw bh) s = refusedAs .blit .src)

/-! ## Framebuffer operations -/

/-- The mapping of R71: every pixel of the canvas has its own byte of the framebuffer and bit of that byte, and every
bit of every byte is some pixel's. `PixRead` is that bit inside the canvas (R72) and has no value outside it (ruling U9
of 93_implementation_defined.md). -/
def Obligations.PixelMappingIsExact : Prop :=
  ∀ w h : Nat, 8 ∣ h →
    (∀ x y : Int, inside w h x y = true → pixelIndex w x y = y.toNat / 8 * w + x.toNat ∧
      pixelIndex w x y < h / 8 * w ∧ bitPos y = y.toNat % 8) ∧
    (∀ x y x' y' : Int, inside w h x y = true → inside w h x' y' = true → pixelIndex w x y = pixelIndex w x' y' →
      bitPos y = bitPos y' → x = x' ∧ y = y') ∧
    (∀ i b : Nat, i < h / 8 * w → b < 8 → ∃ x y : Int, inside w h x y = true ∧ pixelIndex w x y = i ∧ bitPos y = b) ∧
    (∀ (m : Memory) (x y : Int), pixRead w h m x y =
      if 0 ≤ x ∧ x < w ∧ 0 ≤ y ∧ y < h then some ((m.read (y.toNat / 8 * w + x.toNat)).getLsbD (y.toNat % 8)) else none)

/-- `PixWrite` inside the canvas writes bit `y % 8` of byte `(y // 8) * W + x` and leaves the other seven bits and every
other byte; outside it changes nothing (R73, R74). -/
def Obligations.PixWriteWritesOneBit : Prop :=
  ∀ (w h : Nat) (m : Memory) (x y : Int) (v : Bool),
    (0 ≤ x ∧ x < w ∧ 0 ≤ y ∧ y < h →
      (∀ j < 8, ((pixWrite w h ⟨x, y, v⟩ m).read (y.toNat / 8 * w + x.toNat)).getLsbD j =
        if j = y.toNat % 8 then v else (m.read (y.toNat / 8 * w + x.toNat)).getLsbD j) ∧
      (∀ a, a ≠ y.toNat / 8 * w + x.toNat → (pixWrite w h ⟨x, y, v⟩ m).read a = m.read a)) ∧
    (¬(0 ≤ x ∧ x < w ∧ 0 ≤ y ∧ y < h) → pixWrite w h ⟨x, y, v⟩ m = m)

/-- `set_pixel` is issued, and its one step sets exactly the addressed bit to the value (outside the canvas it changes
no byte), with result ok (R142, R147). -/
def Obligations.SetPixelWritesThePixel : Prop :=
  ∀ (s : State) (w h : Nat) (m : Memory) (x y value : Int), s.phase = .ready → Built s → s.width = some w →
    s.height = some h → s.fb = some m → value = 0 ∨ value = 1 →
    ∃ u v m', exec (.setPixel x y value) s = .next u ∧ u.phase = .busy ∧ step u = .next v ∧
      (∃ prog seq, v = { s with
        op := none, prog := prog, seq := seq, fb := some m', result := some .ok
        trace := s.trace ++ [.result .setPixel .ok] }) ∧
      (∀ a j, j < 8 → (m'.read a).getLsbD j =
        if 0 ≤ x ∧ x < w ∧ 0 ≤ y ∧ y < h ∧ a = y.toNat / 8 * w + x.toNat ∧ j = y.toNat % 8 then decide (value = 1)
        else (m.read a).getLsbD j)

/-- `blit` copies its bitmap, clipped per pixel: every pixel of the canvas inside the rectangle takes the source bit
(row-major, rows of `(bw + 7) // 8` bytes, most significant bit first), a 0 bit included, and every other pixel and
every byte outside the framebuffer is as it was; a degenerate size writes nothing (R143, R144). -/
def Obligations.BlitCopiesTheBitmap : Prop :=
  ∀ (s : State) (w h : Nat) (m : Memory) (src : List Byte) (x y bw bh : Int), s.phase = .ready → Built s →
    s.width = some w → s.height = some h → s.fb = some m → (0 < bw → 0 < bh → bh * ((bw + 7) / 8) ≤ src.length) →
    ∃ u v m', exec (.blit src x y bw bh) s = .next u ∧ u.phase = .busy ∧ step u = .next v ∧
      (∃ prog seq, v = { s with
        op := none, prog := prog, seq := seq, fb := some m', result := some .ok
        trace := s.trace ++ [.result .blit .ok] }) ∧
      (bw ≤ 0 ∨ bh ≤ 0 → m' = m) ∧
      (∀ px py : Int, inside w h px py = true → pixRead w h m' px py =
        if x ≤ px ∧ px < x + bw ∧ y ≤ py ∧ py < y + bh then
          some ((src.getD ((py - y).toNat * ((bw.toNat + 7) / 8) + (px - x).toNat / 8) 0).getLsbD
            (7 - (px - x).toNat % 8))
        else pixRead w h m px py) ∧
      (∀ a, h / 8 * w ≤ a → m'.read a = m.read a)

/-- `clear value` makes every byte of the framebuffer 0x00 or 0xFF, in one step, with result ok (R145). -/
def Obligations.ClearSetsEveryPixel : Prop :=
  ∀ (s : State) (w h : Nat) (value : Int), s.phase = .ready → Built s → s.width = some w → s.height = some h →
    value = 0 ∨ value = 1 →
    ∃ u v m', exec (.clear value) s = .next u ∧ u.phase = .busy ∧ step u = .next v ∧
      (∃ prog seq, v = { s with
        op := none, prog := prog, seq := seq, fb := some m', result := some .ok
        trace := s.trace ++ [.result .clear .ok] }) ∧
      m'.bytes (h / 8 * w) = List.replicate (h / 8 * w) (if value = 1 then 0xFF else 0x00) ∧
      (∀ px py : Int, inside w h px py = true → pixRead w h m' px py = some (decide (value = 1)))

/-- Drawing that lies wholly outside the canvas completes with result ok and changes no byte: a pixel, a bitmap, a text
whose cells and wide glyphs whose squares all lie outside (R141, R242, R246). -/
def Obligations.ClippedDrawingChangesNothing : Prop :=
  ∀ (s : State) (w h : Nat), s.phase = .ready → Built s → s.width = some w → s.height = some h →
    (∀ x y value : Int, value = 0 ∨ value = 1 → (x < 0 ∨ w ≤ x ∨ y < 0 ∨ h ≤ y) →
      ∃ u v, exec (.setPixel x y value) s = .next u ∧ step u = .next v ∧ v.fb = s.fb ∧ v.result = some .ok) ∧
    (∀ (src : List Byte) (x y bw bh : Int), (Instr.blit src x y bw bh).wf = true →
      (x + bw ≤ 0 ∨ w ≤ x ∨ y + bh ≤ 0 ∨ h ≤ y) →
      ∃ u v, exec (.blit src x y bw bh) s = .next u ∧ step u = .next v ∧ v.fb = s.fb ∧ v.result = some .ok) ∧
    (∀ (str : List Char) (col row : Int),
      (8 * col + 8 * (str.length : Int) ≤ 0 ∨ w ≤ 8 * col ∨ 8 * row + 8 ≤ 0 ∨ h ≤ 8 * row) →
      ∃ u v, exec (.drawText str col row) s = .next u ∧ step u = .next v ∧ v.fb = s.fb ∧ v.result = some .ok) ∧
    (∀ (str : List Char) (col row : Int),
      (16 * col + 16 * (str.length : Int) ≤ 0 ∨ w ≤ 16 * col ∨ 16 * row + 16 ≤ 0 ∨ h ≤ 16 * row) →
      ∃ u v, exec (.drawWideGlyphs str col row) s = .next u ∧ runSteps (max 1 str.length) u = .next v ∧ v.fb = s.fb ∧
        v.result = some .ok)

/-! ## Text and glyphs -/

/-- `draw_text` performs the writes of TEXT at `(8*col, 8*row)` in one step, clipped per pixel: a pixel outside the cells
`[8*col + 8k, 8*col + 8k + 8) × [8*row, 8*row + 8)` of its characters is as it was, and the empty string changes no
byte (R241, R242, R243 T1, T2, T4). -/
def Obligations.DrawTextStaysInItsCells : Prop :=
  ∀ (s : State) (w h : Nat) (m : Memory) (str : List Char) (col row : Int), s.phase = .ready → Built s →
    s.width = some w → s.height = some h → s.fb = some m →
    ∃ u v m', exec (.drawText str col row) s = .next u ∧ u.phase = .busy ∧ step u = .next v ∧
      (∃ prog seq, v = { s with
        op := none, prog := prog, seq := seq, fb := some m', result := some .ok
        trace := s.trace ++ [.result .drawText .ok] }) ∧
      m' = drawPixels w h (textPrimitive str (8 * col) (8 * row)) m ∧
      (∀ px py : Int, inside w h px py = true →
        ¬(8 * col ≤ px ∧ px < 8 * col + 8 * (str.length : Int) ∧ 8 * row ≤ py ∧ py < 8 * row + 8) →
        pixRead w h m' px py = pixRead w h m px py) ∧
      (∀ a, h / 8 * w ≤ a → m'.read a = m.read a)

/-- TEXT's writes lie in their characters' cells and move with the text (R243 T2, T3), whatever the primitive's pattern
for the string is. -/
def Obligations.TextPatternsFillCellsAndMove : Prop :=
  ∀ (pattern : List TextWrite) (n : Nat) (x0 y0 dx dy : Int),
    (∀ p ∈ textPixels pattern n x0 y0, ∃ k < n, x0 + 8 * (k : Int) ≤ p.x ∧ p.x < x0 + 8 * (k : Int) + 8 ∧
      y0 ≤ p.y ∧ p.y < y0 + 8) ∧
    textPixels pattern n (x0 + dx) (y0 + dy) =
      (textPixels pattern n x0 y0).map fun p => ⟨p.x + dx, p.y + dy, p.v⟩

/-- The key of a character: the three bytes of its UTF-8 encoding, most significant first, for `0x0800 .. 0xFFFF`, and
none for any other (R79, R245). -/
def Obligations.GlyphKeyIsTheUtf8Encoding : Prop :=
  ∀ c : Char,
    (0x0800 ≤ c.toNat ∧ c.toNat ≤ 0xFFFF → ∃ k : GlyphKey, glyphKey c = some k ∧
      k.toNat = (0xE0 + c.toNat / 4096) * 65536 + (0x80 + c.toNat / 64 % 64) * 256 + (0x80 + c.toNat % 64)) ∧
    (c.toNat < 0x0800 ∨ 0xFFFF < c.toNat → glyphKey c = none)

/-- `draw_wide_glyphs` takes `max(1, n)` steps, in input order: the step of character `i` copies its 16×16 glyph to
`(16*col + 16*i, 16*row)`, or reports a miss and changes no byte; the result is ok (R246, R247, R376). -/
def Obligations.DrawWideGlyphsRunsInInputOrder : Prop :=
  ∀ (s : State) (w h : Nat) (m : Memory) (str : List Char) (col row : Int), s.phase = .ready → Built s →
    s.width = some w → s.height = some h → s.fb = some m →
    ∃ u v, exec (.drawWideGlyphs str col row) s = .next u ∧ u.phase = .busy ∧
      runSteps (max 1 str.length) u = .next v ∧
      ∃ prog seq, v = { s with
        op := none, prog := prog, seq := seq, result := some .ok
        fb := some (str.zipIdx.foldl (fun m ci => (glyphOf s.rom ci.1).elim m fun g =>
          drawPixels w h (blitPixels g.toList (col * 16 + 16 * ci.2) (row * 16) 16 16) m) m)
        trace := s.trace ++
          (str.zipIdx.flatMap fun ci => (glyphOf s.rom ci.1).elim [.glyphMiss (glyphKey ci.1) ci.2] fun _ => []) ++
          [.result .drawWideGlyphs .ok] }

/-- After `draw_wide_glyphs` of one character with a glyph `g`, placed fully inside the canvas, the 16×16 square reads
back as `g` exactly, and no pixel outside it has changed (R248). -/
def Obligations.GlyphReadsBackExactly : Prop :=
  ∀ (s : State) (w h : Nat) (c : Char) (k : GlyphKey) (g : Glyph) (col row : Int), s.phase = .ready → Built s →
    s.width = some w → s.height = some h → glyphKey c = some k → s.rom.read k.toNat = some g →
    0 ≤ 16 * col → 16 * col + 16 ≤ w → 0 ≤ 16 * row → 16 * row + 16 ≤ h →
    ∃ u v, exec (.drawWideGlyphs [c] col row) s = .next u ∧ step u = .next v ∧ v.phase = .ready ∧
      v.result = some .ok ∧
      (∀ i r : Nat, i < 16 → r < 16 → v.pixel (16 * col + i) (16 * row + r) =
        some ((g.toList.getD (2 * r + i / 8) 0).getLsbD (7 - i % 8))) ∧
      (∀ px py : Int, inside w h px py = true →
        ¬(16 * col ≤ px ∧ px < 16 * col + 16 ∧ 16 * row ≤ py ∧ py < 16 * row + 16) →
        v.pixel px py = s.pixel px py)

/-- A DRAW step runs its framebuffer update and sends nothing: it consults no bus answer, and changes the framebuffer, the
trace and the step index only (R146, R182, R240). It reports nothing but the miss of a glyph step whose glyph is absent.
A step that writes no whole bytes leaves every byte in which none of its pixels inside the canvas lies; so the step of an
empty string and the step of a missed glyph leave every byte (R241, R247). Filling gives every byte of the framebuffer
the fill's value (R145). -/
def Obligations.DrawStepTouchesOnlyTheFramebuffer : Prop :=
  ∀ (s t : State) (d : DrawOp), runMicro (.draw d) s = .next t →
    ∃ w h p m, s.width = some w ∧ s.height = some h ∧ s.pages = some p ∧ s.fb = some m ∧
      t = { s with fb := some (d.run s.rom w h p m), trace := s.trace ++ d.events s.rom, seq := s.seq + 1 } ∧
      (d.events s.rom ≠ [] → ∃ c i col row, d = .glyph c i col row ∧ glyphOf s.rom c = none ∧
        d.events s.rom = [.glyphMiss (glyphKey c) i]) ∧
      ((∀ v, d ≠ .fill v) → ∀ a : Nat, (∀ q ∈ d.pixels s.rom, inside w h q.x q.y = true →
        a ≠ q.y.toNat / 8 * w + q.x.toNat) → t.fbByte a = s.fbByte a) ∧
      (d = .idle → t.fb = s.fb ∧ t.trace = s.trace) ∧
      (∀ c i col row, d = .glyph c i col row → glyphOf s.rom c = none →
        t.fb = s.fb ∧ t.trace = s.trace ++ [.glyphMiss (glyphKey c) i]) ∧
      (∀ v, d = .fill v → ∀ a : Nat, a < p * w → t.fbByte a = some (if v then 0xFF else 0x00))

/-! ## Transfers -/

/-- `send_command(b)` on the 2-wire transport: one transaction of exactly `[0x80, b]`; ok moves the shadow and the step
index, fail loses `sync` and ends the operation with TransportError, hang hangs the block (R171, R107). With no operation
in progress the error's operation name, the phase that stays and the step index are the model's (log 2). That the program
and the step index stay as they were once fail or hang has ended an operation is log 15's, where R33 leaves the index open;
that a hang leaves no operation is log 12's. -/
def Obligations.TwoWireCommandTransfer : Prop :=
  ∀ (s : State) (a : DevAddr) (b : Byte), NotTerminal s → s.tr = some (.twoWire a) →
    (s.nextAnswer = .ok → exec (.i2cCommandFrame b) s = .next { s with
      env := s.takeAnswer.env, trace := s.trace ++ [.i2c a [0x80, b] .ok]
      panel := s.panel.update b, seq := s.seq + 1 }) ∧
    (s.nextAnswer = .fail → exec (.i2cCommandFrame b) s = .next { s with
      env := s.takeAnswer.env, panel := { s.panel with sync := false }, op := none, phase := s.phase.afterError
      result := some (.err (.transportError s.opName s.seq .cmd))
      trace := s.trace ++ [.i2c a [0x80, b] .fail,
        .result s.opName (.err (.transportError s.opName s.seq .cmd))] }) ∧
    (s.nextAnswer = .hang → exec (.i2cCommandFrame b) s = .next { s with
      env := s.takeAnswer.env, trace := s.trace ++ [.i2c a [0x80, b] .hang], phase := .hung, op := none })

/-- `send_data(bs)` on the 2-wire transport: one transaction of exactly `[0x40] ++ bs`; ok remembers the image, fail
forgets it and ends the operation with TransportError, and the framebuffer and `sync` are as they were (R172, R108). With
no operation in progress the error's name, the phase and the step index are log 2's; the program and the index after a fail
or a hang has ended an operation log 15's (R33); the operation on a hang log 12's. -/
def Obligations.TwoWireDataTransfer : Prop :=
  ∀ (s : State) (a : DevAddr) (bs : List Byte), NotTerminal s → s.tr = some (.twoWire a) →
    (s.nextAnswer = .ok → exec (.i2cDataFrame bs) s = .next { s with
      env := s.takeAnswer.env, trace := s.trace ++ [.i2c a ([0x40] ++ bs) .ok]
      flushed := some bs, seq := s.seq + 1 }) ∧
    (s.nextAnswer = .fail → exec (.i2cDataFrame bs) s = .next { s with
      env := s.takeAnswer.env, flushed := none, op := none, phase := s.phase.afterError
      result := some (.err (.transportError s.opName s.seq .data))
      trace := s.trace ++ [.i2c a ([0x40] ++ bs) .fail,
        .result s.opName (.err (.transportError s.opName s.seq .data))] }) ∧
    (s.nextAnswer = .hang → exec (.i2cDataFrame bs) s = .next { s with
      env := s.takeAnswer.env, trace := s.trace ++ [.i2c a ([0x40] ++ bs) .hang], phase := .hung, op := none })

/-- `send_command(b)` on the 4-wire transport: clock, CS low, DC low, the byte; ok raises CS; fail raises it or leaves
it by a draw, loses `sync` and ends the operation; hang leaves it asserted (R110, R174, R176). With no operation in
progress the error's name, the phase and the step index are log 2's; that a drawn CS(1) comes before RESULT is log 28's,
the program and the index after a fail or a hang has ended an operation log 15's (R33), and the operation on a hang log
12's. -/
def Obligations.FourWireCommandTransfer : Prop :=
  ∀ (s : State) (r : FourWireRegs) (b : Byte), NotTerminal s → s.tr = some (.fourWire r) →
    (s.nextAnswer = .ok → exec (.spiCommandTransfer b) s = .next { s with
      env := s.takeAnswer.env, tr := some (.fourWire { r with cs := true, dc := false })
      trace := s.trace ++ [.spiCfg r.rate, .cs false, .dc false, .spi [b] .ok, .cs true]
      panel := s.panel.update b, seq := s.seq + 1 }) ∧
    (s.nextAnswer = .fail → s.nextCsDraw = .deassert → exec (.spiCommandTransfer b) s = .next { s with
      env := s.takeAnswer.takeCsDraw.env, tr := some (.fourWire { r with cs := true, dc := false })
      panel := { s.panel with sync := false }, op := none, phase := s.phase.afterError
      result := some (.err (.transportError s.opName s.seq .cmd))
      trace := s.trace ++ [.spiCfg r.rate, .cs false, .dc false, .spi [b] .fail, .cs true,
        .result s.opName (.err (.transportError s.opName s.seq .cmd))] }) ∧
    (s.nextAnswer = .fail → s.nextCsDraw = .stay → exec (.spiCommandTransfer b) s = .next { s with
      env := s.takeAnswer.takeCsDraw.env, tr := some (.fourWire { r with cs := false, dc := false })
      panel := { s.panel with sync := false }, op := none, phase := s.phase.afterError
      result := some (.err (.transportError s.opName s.seq .cmd))
      trace := s.trace ++ [.spiCfg r.rate, .cs false, .dc false, .spi [b] .fail,
        .result s.opName (.err (.transportError s.opName s.seq .cmd))] }) ∧
    (s.nextAnswer = .hang → exec (.spiCommandTransfer b) s = .next { s with
      env := s.takeAnswer.env, tr := some (.fourWire { r with cs := false, dc := false })
      trace := s.trace ++ [.spiCfg r.rate, .cs false, .dc false, .spi [b] .hang], phase := .hung, op := none })

/-- `send_data(bs)` on the 4-wire transport: the same with DC high and the whole block in one interval (R111, R175,
R176). Logs 2, 28, 15 (the program and the index after an operation's end) and 12 as for the command transfer. -/
def Obligations.FourWireDataTransfer : Prop :=
  ∀ (s : State) (r : FourWireRegs) (bs : List Byte), NotTerminal s → s.tr = some (.fourWire r) →
    (s.nextAnswer = .ok → exec (.spiDataTransfer bs) s = .next { s with
      env := s.takeAnswer.env, tr := some (.fourWire { r with cs := true, dc := true })
      trace := s.trace ++ [.spiCfg r.rate, .cs false, .dc true, .spi bs .ok, .cs true]
      flushed := some bs, seq := s.seq + 1 }) ∧
    (s.nextAnswer = .fail → s.nextCsDraw = .deassert → exec (.spiDataTransfer bs) s = .next { s with
      env := s.takeAnswer.takeCsDraw.env, tr := some (.fourWire { r with cs := true, dc := true })
      flushed := none, op := none, phase := s.phase.afterError
      result := some (.err (.transportError s.opName s.seq .data))
      trace := s.trace ++ [.spiCfg r.rate, .cs false, .dc true, .spi bs .fail, .cs true,
        .result s.opName (.err (.transportError s.opName s.seq .data))] }) ∧
    (s.nextAnswer = .fail → s.nextCsDraw = .stay → exec (.spiDataTransfer bs) s = .next { s with
      env := s.takeAnswer.takeCsDraw.env, tr := some (.fourWire { r with cs := false, dc := true })
      flushed := none, op := none, phase := s.phase.afterError
      result := some (.err (.transportError s.opName s.seq .data))
      trace := s.trace ++ [.spiCfg r.rate, .cs false, .dc true, .spi bs .fail,
        .result s.opName (.err (.transportError s.opName s.seq .data))] }) ∧
    (s.nextAnswer = .hang → exec (.spiDataTransfer bs) s = .next { s with
      env := s.takeAnswer.env, tr := some (.fourWire { r with cs := false, dc := true })
      trace := s.trace ++ [.spiCfg r.rate, .cs false, .dc true, .spi bs .hang], phase := .hung, op := none })

/-- A frame of the variant the block was not constructed with, and any transfer before a transport exists, stops by name
(R170, R51); a transfer put to a Failed block is refused NotReady, since the host may issue nothing there, and sends
nothing (R339). That a transfer is put to the block on its own, and how it is refused, is the model's (log 2). -/
def Obligations.FramesNeedTheirTransport : Prop :=
  (∀ (s : State) (r : FourWireRegs) (b : Byte) (bs : List Byte), NotTerminal s →
    s.tr = some (.fourWire r) →
    exec (.i2cCommandFrame b) s = .fault .otherTransport ∧ exec (.i2cDataFrame bs) s = .fault .otherTransport) ∧
  (∀ (s : State) (a : DevAddr) (b : Byte) (bs : List Byte), NotTerminal s →
    s.tr = some (.twoWire a) →
    exec (.spiCommandTransfer b) s = .fault .otherTransport ∧ exec (.spiDataTransfer bs) s = .fault .otherTransport) ∧
  (∀ (s : State) (i : Instr), NotTerminal s → s.tr = none → i.format ≠ .hostRecord →
    exec i s = .fault .noTransport) ∧
  (∀ (s : State) (i : Instr), s.phase = .failed → i.format ≠ .hostRecord →
    exec i s = .next { s with
      phase := .refused, refused := true
      result := some (.err (.notReady .transport .failed))
      trace := s.trace ++ [.result .transport (.err (.notReady .transport .failed))] })

/-- The frame of every wire command and every transfer: they leave the program, the geometry, the framebuffer (every
byte of it), the controller's shadow fields, the refusal mark, the configuration, the glyph ROM and the host's queue,
and the transport stays of its variant (R270, R41, R42). The mark is set where a Failed block refuses one (log 2);
that the program stays where a failure or a hang ends an operation is log 15's. -/
def Obligations.WireInstructionsFrame : Prop :=
  ∀ (s t : State) (i : Instr), i.format ≠ .hostRecord → exec i s = .next t →
    t.prog = s.prog ∧ t.width = s.width ∧ t.height = s.height ∧ t.pages = s.pages ∧ t.extVcc = s.extVcc ∧
    t.fb = s.fb ∧ (∀ a, t.fbByte a = s.fbByte a) ∧ t.powerOn = s.powerOn ∧ t.contrast = s.contrast ∧
    t.inverted = s.inverted ∧ (s.phase ≠ .failed → t.refused = s.refused) ∧ t.cfg = s.cfg ∧ t.rom = s.rom ∧
    t.env.requests = s.env.requests ∧ (∃ es, t.trace = s.trace ++ es) ∧
    (∀ a, s.tr = some (.twoWire a) → t.tr = some (.twoWire a)) ∧
    (∀ r, s.tr = some (.fourWire r) → ∃ r', t.tr = some (.fourWire r') ∧ r'.res = r.res ∧ r'.rate = r.rate)

/-! ## Panel register commands -/

/-- The six commands of one byte, answered ok: the byte is sent and the shadow is updated by it (R292). With no group open
the register's shadow takes the value of its "Shadow" line (R271, R273, R274, R276, R283, R284), and with `sync` lost the
shadow is as it was. That such a command runs on its own, the step index it advances and the phase and operation it keeps
are the model's (log 2). -/
def Obligations.OneByteCommands : Prop :=
  ∀ (s : State) (t : Transport) (v : Bool), NotTerminal s → s.tr = some t → AnswersOk 1 s →
    let sent (i : Instr) (byte : Byte) (regs : PanelRegs) : Prop :=
      (∃ env, exec i s = .next { s with
        env := env, tr := some (okTransport t false), trace := s.trace ++ okCommands t [byte]
        panel := s.panel.update byte, seq := s.seq + 1 }) ∧
      (s.panel.sync = true → s.panel.pend = none → s.panel.update byte = { s.panel with regs := regs }) ∧
      (s.panel.sync = false → s.panel.update byte = s.panel)
    sent (.cmdDisp v) (if v then 0xAF else 0xAE) { s.panel.regs with displayOn := some v } ∧
    sent .cmdDispStartLine 0x40 { s.panel.regs with startLine := some 0 } ∧
    sent (.cmdSegRemap v) (if v then 0xA1 else 0xA0) { s.panel.regs with segRemap := some v } ∧
    sent (.cmdComOutDir v) (if v then 0xC8 else 0xC0) { s.panel.regs with comOutDir := some v } ∧
    sent .cmdEntireOn 0xA4 { s.panel.regs with entireOn := some false } ∧
    sent (.cmdNormInv v) (if v then 0xA7 else 0xA6) { s.panel.regs with invert := some v }

/-- The nine commands of one argument, both bytes answered ok: opcode and argument are sent as two command transfers and
the shadow is updated by each (R292). With no group open the register's shadow takes the argument (R272, R275, R277 to
R282, R285), and with `sync` lost the shadow is as it was. That such a command runs on its own and in one step, and the
step index, phase and operation, are the model's (log 2). -/
def Obligations.OneArgumentCommands : Prop :=
  ∀ (s : State) (t : Transport) (a : Byte), NotTerminal s → s.tr = some t → AnswersOk 2 s →
    let sent (i : Instr) (opcode : Byte) (regs : PanelRegs) : Prop :=
      (∃ env, exec i s = .next { s with
        env := env, tr := some (okTransport t false), trace := s.trace ++ okCommands t [opcode, a]
        panel := panelAfter [opcode, a] s.panel, seq := s.seq + 2 }) ∧
      (s.panel.sync = true → s.panel.pend = none → panelAfter [opcode, a] s.panel = { s.panel with regs := regs }) ∧
      (s.panel.sync = false → panelAfter [opcode, a] s.panel = s.panel)
    sent (.cmdMemAddr a) 0x20 { s.panel.regs with memAddrMode := some a } ∧
    sent (.cmdMuxRatio a) 0xA8 { s.panel.regs with muxRatio := some a } ∧
    sent (.cmdDispOffset a) 0xD3 { s.panel.regs with dispOffset := some a } ∧
    sent (.cmdComPinCfg a) 0xDA { s.panel.regs with comPinCfg := some a } ∧
    sent (.cmdDispClkDiv a) 0xD5 { s.panel.regs with clkDiv := some a } ∧
    sent (.cmdPrecharge a) 0xD9 { s.panel.regs with precharge := some a } ∧
    sent (.cmdVcomDesel a) 0xDB { s.panel.regs with vcomDesel := some a } ∧
    sent (.cmdContrast a) 0x81 { s.panel.regs with contrast := some a } ∧
    sent (.cmdChargePump a) 0x8D { s.panel.regs with chargePump := some a }

/-- The two window commands, three bytes answered ok: the bytes are sent as three command transfers and the shadow is
updated by each (R292). With no group open the window's shadow takes the two arguments (R286, R287), and with `sync` lost
the shadow is as it was. That such a command runs on its own and in one step, and the step index, phase and operation,
are the model's (log 2). -/
def Obligations.WindowCommands : Prop :=
  ∀ (s : State) (t : Transport) (a b : Byte), NotTerminal s → s.tr = some t → AnswersOk 3 s →
    let sent (i : Instr) (opcode : Byte) (regs : PanelRegs) : Prop :=
      (∃ env, exec i s = .next { s with
        env := env, tr := some (okTransport t false), trace := s.trace ++ okCommands t [opcode, a, b]
        panel := panelAfter [opcode, a, b] s.panel, seq := s.seq + 3 }) ∧
      (s.panel.sync = true → s.panel.pend = none → panelAfter [opcode, a, b] s.panel = { s.panel with regs := regs }) ∧
      (s.panel.sync = false → panelAfter [opcode, a, b] s.panel = s.panel)
    sent (.cmdColAddr a b) 0x21 { s.panel.regs with colWindow := some (a, b) } ∧
    sent (.cmdPageAddr a b) 0x22 { s.panel.regs with pageWindow := some (a, b) }

/-- A command group stops at the first byte not answered ok: the bytes before it stay sent, the bytes after it are not.
After a failure the register's shadow keeps its value and reads unknown, and TransportError is reported; a byte not
answered at all hangs the block, with no report (R173, R181, R183, R270, R292). The group is put to the block on its own:
the error's operation name, the step index it carries and the phase after it are the model's (log 2). On the 4-wire
transport a drawn CS(1) comes before the RESULT (log 28). -/
def Obligations.GroupStopsAtAFailedByte : Prop :=
  ∀ (s : State) (t : Transport) (i : Instr) (sent unsent : List Byte) (b : Byte) (bad : Answer) (rest : List Answer),
    NotTerminal s → s.tr = some t → i.format = .wireCommand → encode i = sent ++ b :: unsent → bad ≠ .ok →
    s.panel.sync = true → s.panel.pend = none →
    s.env.answers = List.replicate sent.length Answer.ok ++ bad :: rest →
    ∃ v, exec i s = .next v ∧ v.tr = some (badTransport t false bad s.nextCsDraw) ∧ v.panel.regs = s.panel.regs ∧
      (bad = .fail → v.panel.sync = false ∧ v.panel.shown = {} ∧ v.phase = s.phase.afterError ∧
        v.result = some (.err (.transportError s.opName (s.seq + sent.length) .cmd)) ∧
        v.trace = s.trace ++ okCommands t sent ++ badEvents t false [b] .fail s.nextCsDraw ++
          [.result s.opName (.err (.transportError s.opName (s.seq + sent.length) .cmd))]) ∧
      (bad = .hang → v.panel.sync = true ∧ v.phase = .hung ∧ v.result = s.result ∧
        v.trace = s.trace ++ okCommands t sent ++ badEvents t false [b] .hang s.nextCsDraw)

/-- Once lost, `sync` is never regained, and then every register of the shadow reads unknown (R44, R292). -/
def Obligations.SyncIsLostForGood : Prop :=
  ∀ s t : State, s.panel.sync = false → step s = .next t → t.panel.sync = false ∧ t.panel.shown = {}

/-! ## Controller operations -/

/-- Issue of construct in Uninit: the transport's kind and the 2-wire address are set and the construction program loaded;
nothing is sent (R201, R180). On the 4-wire transport the three steps of the line setup drive DC to 0, RES
to RES_ACTIVE and CS to 1, and leave the rate register at SPI_RATE (R177). That CHECK_GEOMETRY and ALLOC carry operands is
log 18's, that the rate is loaded by the third of the steps log 7's, and the COMMIT's place R201's, its
update being made when the construction completes (log 29). -/
def Obligations.ConstructIsIssued : Prop :=
  ∀ (s : State) (w h : Int) (e : Bool) (k : TransportKind), s.phase = .uninit →
    ∃ u t, exec (.construct w h e k) s = .next u ∧
      u = { s with phase := .constructing, op := some (.construct w h e k), seq := 0, prog := u.prog, tr := some t } ∧
      (k = .twoWire → t = .twoWire s.cfg.i2cAddr) ∧
      (k = .fourWire → (∃ r, t = .fourWire r) ∧ ∃ v, runSteps 3 u = .next v ∧
        v = { u with
          seq := 3, trace := s.trace ++ [.dc false, .res s.cfg.resActive, .cs true]
          tr := some (.fourWire { dc := false, res := s.cfg.resActive, cs := true, rate := s.cfg.spiRate }) }) ∧
      let setup : List MicroOp := if k = .fourWire then
        [.line .dc false, .line .res s.cfg.resActive, .line .cs true, .line .res (!s.cfg.resActive), .sleep 1,
         .line .res s.cfg.resActive, .sleep 10, .line .res (!s.cfg.resActive)] else []
      let check : List MicroOp := [.checkGeometry w h, .alloc w h e]
      let commit : List MicroOp := [.commit { powerOn := some true, contrast := some 0xFF, inverted := some false }]
      u.prog = setup ++ check ++ (initBytes h.toNat e).map MicroOp.cmd ++ commit ++
        (windowBytes w.toNat (h.toNat / 8)).map MicroOp.cmd ++ [MicroOp.data]

/-- A construction of a supported geometry in which every answer is ok takes 35 steps (43 on the 4-wire transport) after
its issue and ends in Ready with every field as R52 gives it and the trace as R362 orders it. The zero framebuffer is the
empty list of log 10's sparse form. -/
def Obligations.ConstructionCompletes : Prop :=
  ∀ (s : State) (w h : Nat) (e : Bool) (k : TransportKind), s.phase = .uninit → s.panel = {} → w = 64 ∨ w = 128 →
    h = 32 ∨ h = 64 → AnswersOk 32 s →
    ∃ u v, exec (.construct w h e k) s = .next u ∧ u.phase = .constructing ∧
      runSteps (if k = .fourWire then 43 else 35) u = .next v ∧
      ∃ prog seq env,
        let regs : FourWireRegs := { dc := true, cs := true, res := !s.cfg.resActive, rate := s.cfg.spiRate }
        let t : Transport := if k = .fourWire then .fourWire regs else .twoWire s.cfg.i2cAddr
        v = { s with
          phase := .ready, op := none, prog := prog, seq := seq, env := env
          width := some w, height := some h, pages := some (h / 8), extVcc := some e
          powerOn := some true, contrast := some 0xFF, inverted := some false
          fb := some [], flushed := some (List.replicate (h / 8 * w) 0), result := some .ok, tr := some t
          panel := { sync := true, pend := none, regs := {
            displayOn := some true, memAddrMode := some 0x00, startLine := some 0, segRemap := some true
            muxRatio := some (if h = 32 then 31 else 63), comOutDir := some true, dispOffset := some 0x00
            comPinCfg := some (if h = 32 then 0x02 else 0x12), clkDiv := some 0x80
            precharge := some (if e then 0x22 else 0xF1), vcomDesel := some 0x30, contrast := some 0xFF
            entireOn := some false, invert := some false, chargePump := some (if e then 0x10 else 0x14)
            colWindow := some (if w = 128 then (0, 127) else (32, 95))
            pageWindow := some (0, if h = 32 then 3 else 7) } }
          trace := s.trace ++
            (if k = .fourWire then [.dc false, .res s.cfg.resActive, .cs true, .res (!s.cfg.resActive), .sleep 1,
              .res s.cfg.resActive, .sleep 10, .res (!s.cfg.resActive)] else []) ++
            okCommands t (initBytes h e ++ windowBytes w (h / 8)) ++
            okEvents t true (List.replicate (h / 8 * w) 0) ++ [.result .construct .ok] }

/-- The initialisation list for each height and supply, and the flush window for each geometry, byte for byte (R204,
R207, R208, R209; the lists are those of 95_test_vectors.md section 0). -/
def Obligations.CommandListsAreTheSpecs : Prop :=
  initBytes 32 false = [0xAE, 0x20, 0x00, 0x40, 0xA1, 0xA8, 0x1F, 0xC8, 0xD3, 0x00, 0xDA, 0x02, 0xD5, 0x80, 0xD9, 0xF1,
    0xDB, 0x30, 0x81, 0xFF, 0xA4, 0xA6, 0x8D, 0x14, 0xAF] ∧
  initBytes 32 true = [0xAE, 0x20, 0x00, 0x40, 0xA1, 0xA8, 0x1F, 0xC8, 0xD3, 0x00, 0xDA, 0x02, 0xD5, 0x80, 0xD9, 0x22,
    0xDB, 0x30, 0x81, 0xFF, 0xA4, 0xA6, 0x8D, 0x10, 0xAF] ∧
  initBytes 64 false = [0xAE, 0x20, 0x00, 0x40, 0xA1, 0xA8, 0x3F, 0xC8, 0xD3, 0x00, 0xDA, 0x12, 0xD5, 0x80, 0xD9, 0xF1,
    0xDB, 0x30, 0x81, 0xFF, 0xA4, 0xA6, 0x8D, 0x14, 0xAF] ∧
  initBytes 64 true = [0xAE, 0x20, 0x00, 0x40, 0xA1, 0xA8, 0x3F, 0xC8, 0xD3, 0x00, 0xDA, 0x12, 0xD5, 0x80, 0xD9, 0x22,
    0xDB, 0x30, 0x81, 0xFF, 0xA4, 0xA6, 0x8D, 0x10, 0xAF] ∧
  windowBytes 64 4 = [0x21, 0x20, 0x5F, 0x22, 0x00, 0x03] ∧ windowBytes 64 8 = [0x21, 0x20, 0x5F, 0x22, 0x00, 0x07] ∧
  windowBytes 128 4 = [0x21, 0x00, 0x7F, 0x22, 0x00, 0x03] ∧ windowBytes 128 8 = [0x21, 0x00, 0x7F, 0x22, 0x00, 0x07]

/-- An unsupported geometry fails construction at its check: nothing has been sent but the 4-wire line setup and reset
pulse, the geometry fields keep no value, the result is InvalidGeometry, the phase Failed (R202, R321). -/
def Obligations.UnsupportedGeometryFailsConstruction : Prop :=
  ∀ (s : State) (w h : Int) (e : Bool) (k : TransportKind), s.phase = .uninit → Unbuilt s →
    ¬((w = 64 ∨ w = 128) ∧ (h = 32 ∨ h = 64)) →
    ∃ u v, exec (.construct w h e k) s = .next u ∧
      runSteps (if k = .fourWire then 9 else 1) u = .next v ∧
      ∃ prog seq tr, v = { s with
        phase := .failed, op := none, prog := prog, seq := seq, tr := some tr
        result := some (.err (.invalidGeometry w h))
        trace := s.trace ++
          (if k = .fourWire then [.dc false, .res s.cfg.resActive, .cs true, .res (!s.cfg.resActive), .sleep 1,
            .res s.cfg.resActive, .sleep 10, .res (!s.cfg.resActive)] else []) ++
          [.result .construct (.err (.invalidGeometry w h))] }

/-- `init_sequence` with every answer ok: 26 steps, the 25 bytes of INIT as command transfers and then the COMMIT; the
framebuffer and the remembered image are as they were (R205, R204, R219). -/
def Obligations.InitSequenceCompletes : Prop :=
  ∀ (s : State) (h : Nat) (e : Bool) (t : Transport), s.phase = .ready → s.height = some h → s.extVcc = some e →
    s.tr = some t → AnswersOk 25 s →
    ∃ u v, exec .initSequence s = .next u ∧ u.phase = .busy ∧ runSteps 26 u = .next v ∧
      ∃ prog seq env, v = { s with
        op := none, prog := prog, seq := seq, env := env, tr := some (okTransport t false)
        panel := panelAfter (initBytes h e) s.panel
        powerOn := some true, contrast := some 0xFF, inverted := some false, result := some .ok
        trace := s.trace ++ okCommands t (initBytes h e) ++ [.result .initSequence .ok] }

/-- `flush` with every answer ok: 7 steps, the six window bytes and then every framebuffer byte once in ascending index
order as one data transfer, whose image is remembered; the framebuffer is as it was (R210, R211, R209). -/
def Obligations.FlushCompletes : Prop :=
  ∀ (s : State) (w h : Nat) (m : Memory) (t : Transport), s.phase = .ready → Built s → s.width = some w →
    s.height = some h → s.fb = some m → s.tr = some t → AnswersOk 7 s →
    ∃ u v image, exec .flush s = .next u ∧ u.phase = .busy ∧ runSteps 7 u = .next v ∧
      image.length = h / 8 * w ∧ (∀ a, a < h / 8 * w → image[a]? = some (m.read a)) ∧
      ∃ prog seq env, v = { s with
        op := none, prog := prog, seq := seq, env := env, tr := some (okTransport t true)
        panel := panelAfter (windowBytes w (h / 8)) s.panel, flushed := some image, result := some .ok
        trace := s.trace ++
          okCommands t [0x21, if w = 64 then 0x20 else 0x00, if w = 64 then 0x5F else 0x7F,
            0x22, 0x00, if h = 32 then 0x03 else 0x07] ++
          okEvents t true image ++ [.result .flush .ok] }

/-- `power_on` and `power_off`: one command transfer, 0xAF or 0xAE whatever the flag holds, then the flag; nothing else
of the controller and no framebuffer byte changes (R213, R214). -/
def Obligations.PowerSwitches : Prop :=
  ∀ (s : State) (t : Transport) (on : Bool), s.phase = .ready → s.tr = some t → AnswersOk 1 s →
    ∃ u v, exec (if on then .powerOn else .powerOff) s = .next u ∧ u.phase = .busy ∧ runSteps 2 u = .next v ∧
      ∃ prog seq env, v = { s with
        op := none, prog := prog, seq := seq, env := env, tr := some (okTransport t false)
        panel := s.panel.update (if on then 0xAF else 0xAE), powerOn := some on, result := some .ok
        trace := s.trace ++ okCommands t [if on then 0xAF else 0xAE] ++
          [.result (if on then .powerOn else .powerOff) .ok] }

/-- `set_contrast level` for every level 0..255: two command transfers, 0x81 and the level, then the field (R215). -/
def Obligations.SetContrastCompletes : Prop :=
  ∀ (s : State) (t : Transport) (level : Byte), s.phase = .ready → s.tr = some t → AnswersOk 2 s →
    ∃ u v, exec (.setContrast level.toNat) s = .next u ∧ u.phase = .busy ∧ runSteps 3 u = .next v ∧
      ∃ prog seq env, v = { s with
        op := none, prog := prog, seq := seq, env := env, tr := some (okTransport t false)
        panel := (s.panel.update 0x81).update level, contrast := some level, result := some .ok
        trace := s.trace ++ okCommands t [0x81, level] ++ [.result .setContrast .ok] }

/-- `set_inverted flag`: one command transfer, 0xA7 or 0xA6, then the flag (R216). -/
def Obligations.SetInvertedCompletes : Prop :=
  ∀ (s : State) (t : Transport) (flag : Bool), s.phase = .ready → s.tr = some t → AnswersOk 1 s →
    ∃ u v, exec (.setInverted (if flag then 1 else 0)) s = .next u ∧ u.phase = .busy ∧ runSteps 2 u = .next v ∧
      ∃ prog seq env, v = { s with
        op := none, prog := prog, seq := seq, env := env, tr := some (okTransport t false)
        panel := s.panel.update (if flag then 0xA7 else 0xA6), inverted := some flag, result := some .ok
        trace := s.trace ++ okCommands t [if flag then 0xA7 else 0xA6] ++ [.result .setInverted .ok] }

/-- Flushing twice with no drawing between sends the same events both times and leaves the framebuffer (R212). -/
def Obligations.FlushIsIdempotent : Prop :=
  ∀ (s : State) (t : Transport), s.phase = .ready → Built s → s.tr = some t → AnswersOk 14 s →
    ∃ u v u' v' es, exec .flush s = .next u ∧ runSteps 7 u = .next v ∧ exec .flush v = .next u' ∧
      runSteps 7 u' = .next v' ∧ v.trace = s.trace ++ es ∧ v'.trace = v.trace ++ es ∧ v.fb = s.fb ∧ v'.fb = s.fb ∧
      v'.flushed = v.flushed ∧ v.phase = .ready ∧ v'.phase = .ready

/-- The program lengths behind R376's step counts. -/
def Obligations.ProgramLengths : Prop :=
  ∀ (s : State) (i : Instr) (p : List MicroOp), expansion i s = some p →
    p.length = match i with
      | .construct _ _ _ .twoWire => 35
      | .construct _ _ _ .fourWire => 43
      | .initSequence => 26
      | .flush => 7
      | .powerOn | .powerOff | .setInverted _ => 2
      | .setContrast _ => 3
      | .drawWideGlyphs str _ _ => max 1 str.length
      | _ => 1

/-! ## How operations end -/

/-- A command transfer answered fail ends the operation at that step: the result and RESULT carry TransportError with
the operation and the step index, `sync` is lost, the phase is Failed from Constructing and Ready from Busy, and the
framebuffer, the geometry and the controller's shadow fields are as they were (R322, R328). That a drawn CS(1) comes before
RESULT is log 28's; that the program and the step index stay is log 15's, where R33 leaves the index open. -/
def Obligations.CommandFailureEndsTheOperation : Prop :=
  ∀ (s : State) (t : Transport) (i : Instr) (b : Byte), s.phase = .constructing ∨ s.phase = .busy → s.op = some i →
    s.tr = some t → s.prog[s.seq]? = some (.cmd b) → s.nextAnswer = .fail →
    ∃ env, step s = .next { s with
      phase := if s.phase = .constructing then .failed else .ready
      op := none, env := env, panel := { s.panel with sync := false }
      tr := some (badTransport t false .fail s.nextCsDraw)
      result := some (.err (.transportError (opNameOf i) s.seq .cmd))
      trace := s.trace ++ badEvents t false [b] .fail s.nextCsDraw ++
        [.result (opNameOf i) (.err (.transportError (opNameOf i) s.seq .cmd))] }

/-- A data transfer answered fail ends the operation the same way, forgets the remembered image and keeps `sync` and the
framebuffer, so that a retried flush sends the same block (R322, R328, R370). That a drawn CS(1) comes before RESULT is log
28's; that the program and the step index stay is log 15's, where R33 leaves the index open. -/
def Obligations.DataFailureEndsTheOperation : Prop :=
  ∀ (s : State) (t : Transport) (i : Instr) (w p : Nat) (m : Memory), s.phase = .constructing ∨ s.phase = .busy →
    s.op = some i → s.tr = some t → s.width = some w → s.pages = some p → s.fb = some m →
    s.prog[s.seq]? = some .data → s.nextAnswer = .fail →
    ∃ env, step s = .next { s with
      phase := if s.phase = .constructing then .failed else .ready
      op := none, env := env, flushed := none
      tr := some (badTransport t true .fail s.nextCsDraw)
      result := some (.err (.transportError (opNameOf i) s.seq .data))
      trace := s.trace ++ badEvents t true (m.bytes (p * w)) .fail s.nextCsDraw ++
        [.result (opNameOf i) (.err (.transportError (opNameOf i) s.seq .data))] }

/-- A transfer that is not answered, a command's or a data block's, hangs the block: the event is recorded, no result is
written, chip-select of a 4-wire transport stays asserted, and no step follows (R171, R172, R174, R175, R181, R373). That
no operation is held then is log 12's, that the program and the step index stay log 15's (R33). -/
def Obligations.UnansweredTransferHangs : Prop :=
  ∀ (s : State) (t : Transport), s.phase = .constructing ∨ s.phase = .busy → s.tr = some t → s.nextAnswer = .hang →
    let hangs (data : Bool) (bytes : List Byte) : Prop :=
      ∃ v env, step s = .next v ∧ step v = .fault .hung ∧
        v = { s with
          phase := .hung, op := none, env := env, tr := some (badTransport t data .hang s.nextCsDraw)
          trace := s.trace ++ badEvents t data bytes .hang s.nextCsDraw }
    (∀ b, s.prog[s.seq]? = some (.cmd b) → hangs false [b]) ∧
    (∀ w p m, s.width = some w → s.pages = some p → s.fb = some m → s.prog[s.seq]? = some .data →
      hangs true (m.bytes (p * w)))

/-! ## Rules of the whole machine -/

/-- Every move of the phase is one of R200's, or the refusal of an operation issued after a failed construction (R221,
R325, R339), or none: a block that has nothing to do waits (log 1). The host queues host operations only (log 2). -/
def Obligations.PhaseMovesAreTheDiagrams : Prop :=
  ∀ s t : State, HostOnly s → step s = .next t →
    match s.phase with
    | .uninit => t.phase = .uninit ∨ t.phase = .constructing ∨ t.phase = .refused
    | .constructing => t.phase = .constructing ∨ t.phase = .ready ∨ t.phase = .failed ∨ t.phase = .hung
    | .ready => t.phase = .ready ∨ t.phase = .busy ∨ t.phase = .refused
    | .busy => t.phase = .busy ∨ t.phase = .ready ∨ t.phase = .hung
    | .failed => t.phase = .failed ∨ t.phase = .refused
    | .hung => False
    | .refused => False

/-- The trace is only ever appended to (R45). -/
def Obligations.TraceOnlyGrows : Prop := ∀ s t : State, step s = .next t → ∃ es, t.trace = s.trace ++ es

/-- No step writes the glyph ROM or the configuration, and the refusal mark is never cleared (R78, R48). -/
def Obligations.ConstantsAndTheMarkStay : Prop :=
  ∀ s t : State, step s = .next t → t.rom = s.rom ∧ t.cfg = s.cfg ∧ (s.refused = true → t.refused = true)

/-- The geometry and the external-power flag are written once: a constructed block keeps them at every step, and its
framebuffer keeps its length (R35, R36, R41). -/
def Obligations.GeometryIsWrittenOnce : Prop :=
  ∀ s t : State, Inv s → Built s → step s = .next t →
    t.width = s.width ∧ t.height = s.height ∧ t.pages = s.pages ∧ t.extVcc = s.extVcc ∧ Built t

/-- The controller's shadow fields change only when an operation completes with the result ok, and then by its program's
COMMIT: only the fields it names. No transfer that failed or was not answered, no refusal and no issue
writes them (R37, R38, R39, R219, R322, R340). That construct's COMMIT, which R201 puts before the flush, is made then too is log 29's. -/
def Obligations.ShadowFieldsChangeOnlyByCommit : Prop :=
  ∀ s t : State, step s = .next t →
    (t.powerOn = s.powerOn ∧ t.contrast = s.contrast ∧ t.inverted = s.inverted) ∨
    ((s.phase = .constructing ∨ s.phase = .busy) ∧ t.phase = .ready ∧ t.result = some .ok ∧
      t.powerOn = (commitOf s.prog).powerOn.or s.powerOn ∧ t.contrast = (commitOf s.prog).contrast.or s.contrast ∧
      t.inverted = (commitOf s.prog).inverted.or s.inverted)

/-- The framebuffer changes only by a DRAW step and by ALLOC, never by a transfer, a failure, a refusal or an issue
(R41, R212, R340). -/
def Obligations.FramebufferChangesOnlyByDrawing : Prop :=
  ∀ s t : State, step s = .next t →
    t.fb = s.fb ∨ ((s.phase = .constructing ∨ s.phase = .busy) ∧
      ((∃ d, s.prog[s.seq]? = some (.draw d)) ∨ ∃ w h e, s.prog[s.seq]? = some (.alloc w h e)))

/-- While `sync = 1`, a command byte sent with no group open is one of the 21 opcode bytes (R291). -/
def Obligations.GroupsStartWithListedOpcodes : Prop :=
  ∀ (s : State) (b : Byte), Inv s → s.phase = .constructing ∨ s.phase = .busy → s.panel.sync = true →
    s.panel.pend = none → s.prog[s.seq]? = some (.cmd b) →
    b ∈ ([0x20, 0x21, 0x22, 0x40, 0x81, 0x8D, 0xA0, 0xA1, 0xA4, 0xA6, 0xA7, 0xA8, 0xAE, 0xAF, 0xC0, 0xC8, 0xD3, 0xD5,
      0xD9, 0xDA, 0xDB] : List Byte)

/-- Between operations, while `sync = 1`, no command group is open and the panel's power, contrast and inversion, as the
block has told it, are the controller's own fields (R44, R37, R38, R39). -/
def Obligations.ShadowsAgreeBetweenOperations : Prop :=
  ∀ s : State, Inv s → s.phase = .ready → s.panel.sync = true →
    s.panel.pend = none ∧ s.panel.shown.displayOn = s.powerOn ∧ s.panel.shown.contrast = s.contrast ∧
    s.panel.shown.invert = s.inverted ∧ s.powerOn.isSome = true ∧ s.contrast.isSome = true ∧ s.inverted.isSome = true

/-- Two constructed blocks that differ in their transport alone, given the same operations and the same answers, go on
step by step with the same abstract transfers, framebuffer, control fields and reports (R184). The program and the index
agree after an operation's end too, by log 15. -/
def Obligations.TransportsAgreeStepByStep : Prop :=
  ∀ s t : State, Inv s → s.phase ≠ .uninit → s.phase ≠ .constructing → SameButWires s t →
    (∃ s' t', step s = .next s' ∧ step t = .next t' ∧ SameButWires s' t') ∨
    (∃ f, step s = .fault f ∧ step t = .fault f) ∨ (∃ r, step s = .refused r ∧ step t = .refused r)

/-- A flush whose answers are all ok puts the framebuffer on a panel of the reference model: byte `(p, x)` at page `p`,
column `x0 + x`, and no other cell of the panel's 8 pages by 128 columns changes, so that the panel's pixel in row `y` and
column `x0 + x` is pixel `(x, y)` (R288 to R290, which the spec marks non-normative). Log 27's, not R289's: what each window
command does alone, that the bytes are stored as in horizontal mode whatever mode the shadow holds (init_sequence sets that
mode, R272), and that a pixel is the memory's bit. -/
def Obligations.FlushShowsThePicture : Prop :=
  ∀ (s : State) (w h : Nat) (m : Memory) (t : Transport) (panel : RefPanel), s.phase = .ready → Built s →
    s.width = some w → s.height = some h → s.fb = some m → s.tr = some t → s.panel.sync = true → s.panel.pend = none →
    panel.parser = s.panel → AnswersOk 7 s →
    ∃ u v es, exec .flush s = .next u ∧ runSteps 7 u = .next v ∧ v.trace = s.trace ++ es ∧
      let x0 := if w = 64 then 32 else 0
      (∀ (page : Fin 8) (column : Fin 128), (panel.after es).ram page column =
        if page.val < h / 8 ∧ x0 ≤ column.val ∧ column.val < x0 + w then m.read (page.val * w + (column.val - x0))
        else panel.ram page column) ∧
      (∀ (row : Fin 64) (column : Fin 128), row.val < h → x0 ≤ column.val → column.val < x0 + w →
        some ((panel.after es).pixel row column) = pixRead w h m (column.val - x0 : Nat) row.val)
end

