-- ==== Sys2Proof/Laws/Decode.lean ====
section
/-! SUPPORT. Each operand reader gives back what its writer wrote, whatever bytes follow; the opcode map's rows. -/

namespace Sys2Proof

theorem decodeNat_encodeNatFuel (fuel n : Nat) (h : n ≤ fuel) (rest : List Byte) :
    decodeNat (encodeNatFuel fuel n ++ rest) = .ok (n, rest) := by
  induction fuel generalizing n with
  | zero =>
    obtain rfl : n = 0 := by omega
    simp [encodeNatFuel, decodeNat]
  | succ fuel ih =>
    unfold encodeNatFuel
    split
    · rename_i hn
      have : (BitVec.ofNat 8 n).toNat = n := by simp; omega
      simp [decodeNat, this, hn]
    · rename_i hn
      have hb : (BitVec.ofNat 8 (128 + n % 128)).toNat = 128 + n % 128 := by simp; omega
      simp only [List.cons_append, decodeNat, hb]
      rw [if_neg (by omega), ih _ (by omega)]
      simp only [Except.ok.injEq, Prod.mk.injEq, and_true]
      omega

@[simp] theorem decodeNat_encodeNat (n : Nat) (rest : List Byte) :
    decodeNat (encodeNat n ++ rest) = .ok (n, rest) := decodeNat_encodeNatFuel n n (Nat.le_refl n) rest

@[simp] theorem unzigzag_zigzag (z : Int) : unzigzag (zigzag z) = z := by
  cases z with
  | ofNat n => simp [zigzag, unzigzag]
  | negSucc n =>
    have h1 : (2 * n + 1) % 2 = 1 := by omega
    have h2 : (2 * n + 1) / 2 = n := by omega
    simp [zigzag, unzigzag, h1, h2]

@[simp] theorem decodeInt_encodeInt (z : Int) (rest : List Byte) :
    decodeInt (encodeInt z ++ rest) = .ok (z, rest) := by simp [decodeInt, encodeInt]

@[simp] theorem decodeInt_encodeInt_end (z : Int) : decodeInt (encodeInt z) = .ok (z, []) := by
  simpa using decodeInt_encodeInt z []

@[simp] theorem decodeBool_encodeBool (b : Bool) (rest : List Byte) :
    decodeBool (encodeBool b ++ rest) = .ok (b, rest) := by cases b <;> simp [decodeBool, encodeBool]

@[simp] theorem decodeKind_encodeKind (t : TransportKind) : decodeKind (encodeKind t) = .ok (t, []) := by
  cases t <;> simp [decodeKind, encodeKind]

theorem decodeBytes_append (bs rest : List Byte) : decodeBytes bs.length (bs ++ rest) = .ok (bs, rest) := by
  induction bs with
  | nil => cases rest <;> rfl
  | cons b bs ih => simp [decodeBytes, ih]

@[simp] theorem decodeByteList_encodeByteList (bs rest : List Byte) :
    decodeByteList (encodeByteList bs ++ rest) = .ok (bs, rest) := by
  simp [decodeByteList, encodeByteList, decodeBytes_append]

@[simp] theorem decodeChar_encodeNat (c : Char) (rest : List Byte) :
    decodeChar (encodeNat c.toNat ++ rest) = .ok (c, rest) := by
  have h : c.toNat.isValidChar := c.valid
  simp [decodeChar, h]

theorem decodeChars_encodeChars (cs : List Char) (rest : List Byte) :
    decodeChars cs.length (encodeChars cs ++ rest) = .ok (cs, rest) := by
  induction cs with
  | nil => cases rest <;> rfl
  | cons c cs ih => simp [decodeChars, encodeChars, ih]

@[simp] theorem decodeString_encodeString (str : List Char) (rest : List Byte) :
    decodeString (encodeString str ++ rest) = .ok (str, rest) := by
  simp [decodeString, encodeString, decodeChars_encodeChars]

/-- An operand that was written is read, and the rest goes on. -/
theorem operand_eq {α : Type} {read : List Byte → Except DecodeError (α × List Byte)}
    {next : α → List Byte → Except DecodeError Instr} {bs rest : List Byte} {a : α} (h : read bs = .ok (a, rest)) :
    operand read next bs = next a rest := by simp [operand, h]

/-- A reader all of whose instructions are host operations. -/
def ReadsHostOps (f : List Byte → Except DecodeError Instr) : Prop := ∀ bs i, f bs = .ok i → i.format = .hostRecord

theorem readsHostOps_ite {c : Prop} [Decidable c] {f g : List Byte → Except DecodeError Instr} (hf : ReadsHostOps f)
    (hg : ReadsHostOps g) : ReadsHostOps (if c then f else g) := by
  split
  · exact hf
  · exact hg

theorem readsHostOps_operand {α : Type} {read : List Byte → Except DecodeError (α × List Byte)}
    {next : α → List Byte → Except DecodeError Instr} (hn : ∀ a, ReadsHostOps (next a)) :
    ReadsHostOps (operand read next) := by
  intro bs i h
  unfold operand at h
  split at h
  · exact hn _ _ _ h
  · simp at h

theorem readsHostOps_end {i : Instr} (hi : i.format = .hostRecord) : ReadsHostOps (endOfRecord i) := by
  intro bs j h
  cases bs <;> simp [endOfRecord] at h
  rw [← h]; exact hi

/-- The host-record space holds host operations only (R101). -/
theorem format_of_decode_host {bs : List Byte} {i : Instr} (h : decode .hostRecord bs = .ok i) :
    i.format = .hostRecord := by
  cases bs with
  | nil => simp [decode, decodeHost] at h
  | cons tag rest =>
    have key : ReadsHostOps (decodeHostOperands tag) := by
      unfold decodeHostOperands
      repeat' refine readsHostOps_ite ?_ ?_
      case refine_2 => intro bs i h; simp at h
      all_goals repeat' first
        | exact readsHostOps_end rfl
        | (refine readsHostOps_operand fun _ => ?_)
    exact key rest i h

/-- No opcode byte belongs to two rows of the map (R112: "No two commands' match/mask pairs overlap"). -/
theorem opcodeTable_disjoint :
    opcodeTable.Pairwise fun r r' => r.base &&& r'.mask &&& r.mask ≠ r'.base &&& r.mask &&& r'.mask := by decide

/-- The 21 opcode bytes (R112). -/
def opcodeBytes : List Byte :=
  [0x20, 0x21, 0x22, 0x40, 0x81, 0x8D, 0xA0, 0xA1, 0xA4, 0xA6, 0xA7, 0xA8, 0xAE, 0xAF, 0xC0, 0xC8, 0xD3, 0xD5, 0xD9,
   0xDA, 0xDB]

end Sys2Proof
end

