-- ==== Sys2Proof/Laws/GlyphRom.lean ====
section
/-! SUPPORT. The glyph ROM: its canonical form, and what a loaded list reads as (R76, R78). -/

namespace Sys2Proof.Machine

namespace GlyphRom

theorem wfFrom_mono {lo lo' : Nat} {rom : GlyphRom} (h : wfFrom lo rom = true) (hl : lo' ≤ lo) :
    wfFrom lo' rom = true := by
  cases rom with
  | nil => rfl
  | cons e rom =>
    simp only [wfFrom, Bool.and_eq_true, decide_eq_true_eq] at h ⊢
    exact ⟨⟨by omega, h.1.2⟩, h.2⟩

theorem wfFrom_insert {lo key : Nat} {rom : GlyphRom} (g : Glyph) (h : wfFrom lo rom = true) (hlo : lo ≤ key)
    (hk : key < 2 ^ 24) : wfFrom lo (insert key g rom) = true := by
  induction rom generalizing lo with
  | nil =>
    simp only [GlyphRom.insert, wfFrom, Bool.and_eq_true, decide_eq_true_eq, and_true]
    exact ⟨hlo, hk⟩
  | cons e rom ih =>
    obtain ⟨k, v⟩ := e
    simp only [wfFrom, Bool.and_eq_true, decide_eq_true_eq] at h
    simp only [GlyphRom.insert]
    split
    · simp only [wfFrom, Bool.and_eq_true, decide_eq_true_eq]
      exact ⟨⟨hlo, hk⟩, ⟨by omega, h.1.2⟩, h.2⟩
    · split
      · subst_vars
        simp only [wfFrom, Bool.and_eq_true, decide_eq_true_eq]
        exact ⟨⟨hlo, hk⟩, h.2⟩
      · simp only [wfFrom, Bool.and_eq_true, decide_eq_true_eq]
        exact ⟨h.1, ih h.2 (by omega)⟩

/-- A loaded ROM is in canonical form (R78). -/
theorem wf_ofList (es : List (GlyphKey × Glyph)) : wf (ofList es) = true := by
  induction es with
  | nil => rfl
  | cons e es ih => exact wfFrom_insert e.2 ih (by omega) e.1.isLt

theorem read_insert (key k : Nat) (g : Glyph) (rom : GlyphRom) :
    (insert key g rom).read k = if k = key then some g else rom.read k := by
  induction rom with
  | nil => simp only [GlyphRom.insert, GlyphRom.read]; grind
  | cons e rom ih =>
    obtain ⟨k', v⟩ := e
    simp only [GlyphRom.insert]
    split
    · simp only [GlyphRom.read]; grind
    · split
      · simp only [GlyphRom.read]; grind
      · simp only [GlyphRom.read, ih]; grind

end GlyphRom

end Sys2Proof.Machine
end

