-- ==== Sys2Proof/Laws/Panel.lean ====
section
/-! SUPPORT. The panel shadow: argument counts by opcode, groups as a whole, and what keeps `sync` lost. -/

namespace Sys2Proof.Machine

/-- `k(c)` of each opcode (R104). -/
@[simp] theorem argCount_opcodes :
    argCount 0xAE#8 = some 0 ∧ argCount 0xAF#8 = some 0 ∧ argCount 0x20#8 = some 1 ∧
    argCount 0x40#8 = some 0 ∧ argCount 0xA0#8 = some 0 ∧ argCount 0xA1#8 = some 0 ∧
    argCount 0xA8#8 = some 1 ∧ argCount 0xC0#8 = some 0 ∧ argCount 0xC8#8 = some 0 ∧
    argCount 0xD3#8 = some 1 ∧ argCount 0xDA#8 = some 1 ∧ argCount 0xD5#8 = some 1 ∧
    argCount 0xD9#8 = some 1 ∧ argCount 0xDB#8 = some 1 ∧ argCount 0x81#8 = some 1 ∧
    argCount 0xA4#8 = some 0 ∧ argCount 0xA6#8 = some 0 ∧ argCount 0xA7#8 = some 0 ∧
    argCount 0x8D#8 = some 1 ∧ argCount 0x21#8 = some 2 ∧ argCount 0x22#8 = some 2 := by decide

/-- Once lost, `sync` stays lost, and nothing is written (R44, R292). -/
theorem update_of_lost {p : Panel} (b : Byte) (h : p.sync = false) : p.update b = p := by simp [Panel.update, h]

theorem panelAfter_of_lost {p : Panel} (bs : List Byte) (h : p.sync = false) : panelAfter bs p = p := by
  induction bs with
  | nil => rfl
  | cons b bs ih => rw [panelAfter, List.foldl_cons, update_of_lost b h]; exact ih

@[simp] theorem panelAfter_nil (p : Panel) : panelAfter [] p = p := rfl

@[simp] theorem panelAfter_cons (b : Byte) (bs : List Byte) (p : Panel) :
    panelAfter (b :: bs) p = panelAfter bs (p.update b) := rfl

@[simp] theorem panelAfter_append (as bs : List Byte) (p : Panel) :
    panelAfter (as ++ bs) p = panelAfter bs (panelAfter as p) := by simp [panelAfter]

/-- A byte never makes the shadow know again where groups begin. -/
theorem sync_of_update {p : Panel} {b : Byte} (h : (p.update b).sync = true) : p.sync = true := by
  cases hp : p.sync with
  | true => rfl
  | false => rw [update_of_lost b hp, hp] at h; exact h

theorem sync_of_panelAfter {bs : List Byte} {p : Panel} (h : (panelAfter bs p).sync = true) : p.sync = true := by
  cases hp : p.sync with
  | true => rfl
  | false => rw [panelAfter_of_lost bs hp, hp] at h; exact h

/-- A shadow that knows where groups begin, with none open, is its registers. -/
theorem panel_eq_regs {p : Panel} (hs : p.sync = true) (hp : p.pend = none) : p = { regs := p.regs } := by
  obtain ⟨r, pend, sync⟩ := p
  subst hs hp
  rfl

/-- A whole group of one byte (R292). -/
theorem panelAfter_group0 (c : Byte) (r : PanelRegs) (hc : argCount c = some 0) :
    panelAfter [c] { regs := r } = { regs := applyGroup c [] r } := by simp [Panel.update, hc]

/-- A whole group of two bytes (R292). -/
theorem panelAfter_group1 (c a : Byte) (r : PanelRegs) (hc : argCount c = some 1) :
    panelAfter [c, a] { regs := r } = { regs := applyGroup c [a] r } := by simp [Panel.update, hc]

/-- A whole group of three bytes (R292). -/
theorem panelAfter_group2 (c a b : Byte) (r : PanelRegs) (hc : argCount c = some 2) :
    panelAfter [c, a, b] { regs := r } = { regs := applyGroup c [a, b] r } := by simp [Panel.update, hc]

/-- The shadow after the initialisation list, whatever it held before (R204, R292). -/
theorem panelAfter_init (h : Nat) (e : Bool) (r : PanelRegs) :
    panelAfter (initBytes h e) { regs := r } = { regs := { r with
      displayOn := some true, memAddrMode := some 0x00, startLine := some 0, segRemap := some true
      muxRatio := some (byteOf (h - 1)), comOutDir := some true, dispOffset := some 0x00
      comPinCfg := some (comPin h), clkDiv := some 0x80
      precharge := some (prechargeArg e), vcomDesel := some 0x30, contrast := some 0xFF
      entireOn := some false, invert := some false, chargePump := some (chargePumpArg e) } } := by
  have split : initBytes h e = [0xAE] ++ ([0x20, 0x00] ++ ([0x40] ++ ([0xA1] ++ ([0xA8, byteOf (h - 1)] ++ ([0xC8] ++
    ([0xD3, 0x00] ++ ([0xDA, comPin h] ++ ([0xD5, 0x80] ++ ([0xD9, prechargeArg e] ++ ([0xDB, 0x30] ++ ([0x81, 0xFF] ++
    ([0xA4] ++ ([0xA6] ++ ([0x8D, chargePumpArg e] ++ [0xAF])))))))))))))) := rfl
  rw [split, panelAfter_append, panelAfter_group0 0xAE _ (by decide)]
  rw [panelAfter_append, panelAfter_group1 0x20 0x00 _ (by decide)]
  rw [panelAfter_append, panelAfter_group0 0x40 _ (by decide)]
  rw [panelAfter_append, panelAfter_group0 0xA1 _ (by decide)]
  rw [panelAfter_append, panelAfter_group1 0xA8 _ _ (by decide)]
  rw [panelAfter_append, panelAfter_group0 0xC8 _ (by decide)]
  rw [panelAfter_append, panelAfter_group1 0xD3 _ _ (by decide)]
  rw [panelAfter_append, panelAfter_group1 0xDA _ _ (by decide)]
  rw [panelAfter_append, panelAfter_group1 0xD5 _ _ (by decide)]
  rw [panelAfter_append, panelAfter_group1 0xD9 _ _ (by decide)]
  rw [panelAfter_append, panelAfter_group1 0xDB _ _ (by decide)]
  rw [panelAfter_append, panelAfter_group1 0x81 _ _ (by decide)]
  rw [panelAfter_append, panelAfter_group0 0xA4 _ (by decide)]
  rw [panelAfter_append, panelAfter_group0 0xA6 _ (by decide)]
  rw [panelAfter_append, panelAfter_group1 0x8D _ _ (by decide)]
  rw [panelAfter_group0 0xAF _ (by decide)]
  rfl

/-- The shadow after the flush window (R210, R292). -/
theorem panelAfter_window (w pages : Nat) (r : PanelRegs) :
    panelAfter (windowBytes w pages) { regs := r } = { regs := { r with
      colWindow := some (colStart w, colEnd w), pageWindow := some (0x00, byteOf (pages - 1)) } } := by
  have split : windowBytes w pages = [0x21, colStart w, colEnd w] ++ [0x22, 0x00, byteOf (pages - 1)] := rfl
  rw [split, panelAfter_append, panelAfter_group2 0x21 _ _ _ (by decide),
    panelAfter_group2 0x22 _ _ _ (by decide)]
  rfl

end Sys2Proof.Machine
end

