-- ==== Sys2Proof/Laws/Memory.lean ====
section
/-! SUPPORT. Sparse memory: read after write, the canonical form and what keeps it, fills, and the byte image. -/

namespace Sys2Proof.Machine

namespace Memory

@[simp] theorem read_nil (a : Nat) : Memory.read [] a = 0 := rfl

theorem read_cons (k : Nat) (v : Byte) (m : Memory) (a : Nat) :
    Memory.read ((k, v) :: m) a = if k = a then v else m.read a := rfl

theorem read_erase (a : Nat) (m : Memory) (b : Nat) :
    (Memory.erase a m).read b = if b = a then 0 else m.read b := by
  induction m with
  | nil => simp [Memory.erase]
  | cons c m ih =>
    obtain ⟨k, v⟩ := c
    rw [Memory.erase] at ih ⊢
    by_cases hk : k = a <;> by_cases hb : b = a <;> simp_all [read_cons]; grind

theorem read_place (a : Nat) (v : Byte) (m : Memory) (h : ∀ c ∈ m, c.1 ≠ a) (b : Nat) :
    (Memory.place a v m).read b = if b = a then v else m.read b := by
  induction m with
  | nil => simp only [Memory.place, read_cons, read_nil]; grind
  | cons c m ih =>
    obtain ⟨k, u⟩ := c
    have hk : k ≠ a := h (k, u) (by simp)
    have ih' := ih fun c hc => h c (by simp [hc])
    simp only [Memory.place]
    split <;> simp only [read_cons, ih'] <;> grind

/-- Read after write (R73): the byte written is read back, and every other byte is as it was. -/
theorem read_write (a : Nat) (v : Byte) (m : Memory) (b : Nat) :
    (Memory.write a v m).read b = if b = a then v else m.read b := by
  unfold Memory.write
  split
  · rename_i h; subst h; exact read_erase a m b
  · rw [read_place _ _ _ (by simp [Memory.erase]), read_erase]
    split <;> rfl

theorem wfFrom_mono {hi lo lo' : Nat} {m : Memory} (h : wfFrom hi lo m = true) (hl : lo' ≤ lo) :
    wfFrom hi lo' m = true := by
  cases m with
  | nil => rfl
  | cons c m => obtain ⟨k, v⟩ := c; simp only [wfFrom, Bool.and_eq_true, decide_eq_true_eq] at h ⊢; exact ⟨⟨⟨by omega, h.1.1.2⟩, h.1.2⟩, h.2⟩

theorem wfFrom_erase {hi lo : Nat} (a : Nat) {m : Memory} (h : wfFrom hi lo m = true) :
    wfFrom hi lo (Memory.erase a m) = true := by
  induction m generalizing lo with
  | nil => rfl
  | cons c m ih =>
    obtain ⟨k, v⟩ := c
    simp only [wfFrom, Bool.and_eq_true, decide_eq_true_eq] at h
    have ih' := ih h.2
    by_cases hk : k = a
    · have : Memory.erase a ((k, v) :: m) = Memory.erase a m := by simp [Memory.erase, hk]
      rw [this]
      exact wfFrom_mono ih' (by omega)
    · have : Memory.erase a ((k, v) :: m) = (k, v) :: Memory.erase a m := by simp [Memory.erase, hk]
      rw [this]
      simp only [wfFrom, Bool.and_eq_true, decide_eq_true_eq]
      exact ⟨h.1, ih'⟩

theorem wfFrom_place {hi lo a : Nat} {v : Byte} {m : Memory} (h : wfFrom hi lo m = true) (hv : v ≠ 0)
    (hlo : lo ≤ a) (hhi : a < hi) (hm : ∀ c ∈ m, c.1 ≠ a) : wfFrom hi lo (Memory.place a v m) = true := by
  induction m generalizing lo with
  | nil =>
    simp only [Memory.place, wfFrom, Bool.and_eq_true, decide_eq_true_eq, and_true]
    exact ⟨⟨hlo, hhi⟩, hv⟩
  | cons c m ih =>
    obtain ⟨k, u⟩ := c
    have hk : k ≠ a := hm (k, u) (by simp)
    simp only [wfFrom, Bool.and_eq_true, decide_eq_true_eq] at h
    simp only [Memory.place]
    split
    · simp only [wfFrom, Bool.and_eq_true, decide_eq_true_eq]
      exact ⟨⟨⟨hlo, hhi⟩, hv⟩, ⟨⟨by omega, h.1.1.2⟩, h.1.2⟩, h.2⟩
    · simp only [wfFrom, Bool.and_eq_true, decide_eq_true_eq]
      exact ⟨h.1, ih h.2 (by omega) fun c hc => hm c (by simp [hc])⟩

/-- A write inside the memory keeps the canonical form. -/
theorem wf_write {size a : Nat} (v : Byte) {m : Memory} (h : wf size m = true) (ha : a < size) :
    wf size (Memory.write a v m) = true := by
  unfold Memory.write
  split
  · exact wfFrom_erase a h
  · rename_i hv
    exact wfFrom_place (wfFrom_erase a h) hv (by omega) ha (by simp [Memory.erase])

@[simp] theorem wf_nil (size : Nat) : wf size [] = true := rfl

theorem wfFrom_range' (v : Byte) (hv : v ≠ 0) (n lo hi : Nat) (h : lo + n ≤ hi) :
    wfFrom hi lo ((List.range' lo n).map fun a => (a, v)) = true := by
  induction n generalizing lo with
  | zero => rfl
  | succ n ih =>
    simp only [List.range'_succ, List.map_cons, wfFrom, Bool.and_eq_true, decide_eq_true_eq]
    exact ⟨⟨⟨by omega, by omega⟩, hv⟩, ih (lo + 1) (by omega)⟩

/-- A fill is in canonical form (R145, R203). -/
theorem wf_filled (n : Nat) (v : Byte) : wf n (filled n v) = true := by
  unfold filled
  split
  · rfl
  · rename_i h; rw [List.range_eq_range']; exact wfFrom_range' v h n 0 n (by omega)

theorem read_range' (v : Byte) (n lo a : Nat) :
    Memory.read ((List.range' lo n).map fun a => (a, v)) a = if lo ≤ a ∧ a < lo + n then v else 0 := by
  induction n generalizing lo with
  | zero => simp
  | succ n ih => simp only [List.range'_succ, List.map_cons, read_cons, ih]; grind

/-- What a fill reads as. -/
theorem read_filled (n : Nat) (v : Byte) (a : Nat) : (filled n v).read a = if a < n then v else 0 := by
  unfold filled
  split
  · rename_i h; simp [h]
  · rw [List.range_eq_range', read_range']; simp

@[simp] theorem length_bytes (n : Nat) (m : Memory) : (m.bytes n).length = n := by simp [bytes]

theorem getElem_bytes (n : Nat) (m : Memory) (a : Nat) (h : a < (m.bytes n).length) : (m.bytes n)[a] = m.read a := by
  simp [bytes]

/-- The image of a fill (R145, R203). -/
theorem bytes_filled (n : Nat) (v : Byte) : (filled n v).bytes n = List.replicate n v := by
  apply List.ext_getElem (by simp)
  intro i h1 h2
  rw [getElem_bytes, read_filled, List.getElem_replicate, if_pos (by simpa using h1)]

end Memory

end Sys2Proof.Machine
end

