-- ==== Sys2Proof/Laws/Pixels.lean ====
section
/-! SUPPORT. Pixels: the coordinate mapping (R71), one pixel write (R73, R74), lists of them, and the bitmap, text and
glyph lists the drawing operations make. -/

namespace Sys2Proof.Machine

theorem inside_iff {w h : Nat} {x y : Int} : inside w h x y = true ↔ 0 ≤ x ∧ x < w ∧ 0 ≤ y ∧ y < h := by
  simp [inside]

/-- A pixel inside the canvas has its byte inside the framebuffer (R71: `0 <= index < pages*W`). -/
theorem pixelIndex_lt {w h : Nat} {x y : Int} (hin : inside w h x y = true) (h8 : 8 ∣ h) :
    pixelIndex w x y < h / 8 * w := by
  obtain ⟨hx0, hx, hy0, hy⟩ := inside_iff.mp hin
  obtain ⟨k, rfl⟩ := h8
  have hd : y.toNat / 8 < k := by omega
  have : (y.toNat / 8 + 1) * w ≤ k * w := Nat.mul_le_mul_right w hd
  simp only [pixelIndex, Nat.mul_div_cancel_left k (by omega : 0 < 8)]
  rw [Nat.add_mul] at this
  omega

/-- `PixRead` has a value exactly inside the canvas (R72, U9). -/
theorem pixRead_inside {w h : Nat} {x y : Int} (m : Memory) (hin : inside w h x y = true) :
    pixRead w h m x y = some (pixelBit w m x y) := by simp [pixRead, hin]

theorem pixRead_outside {w h : Nat} {x y : Int} (m : Memory) (hin : inside w h x y = false) :
    pixRead w h m x y = none := by simp [pixRead, hin]

theorem bitPos_lt (y : Int) : bitPos y < 8 := Nat.mod_lt _ (by omega)

/-- Two pixels of the canvas that share a byte and a bit are one pixel (R71). -/
theorem pixel_position_injective {w h : Nat} {x y x' y' : Int} (h1 : inside w h x y = true)
    (h2 : inside w h x' y' = true) (hi : pixelIndex w x y = pixelIndex w x' y') (hb : bitPos y = bitPos y') :
    x = x' ∧ y = y' := by
  obtain ⟨hx0, hx, hy0, hy⟩ := inside_iff.mp h1
  obtain ⟨hx0', hx', hy0', hy'⟩ := inside_iff.mp h2
  have hw : 0 < w := by omega
  have hd : ∀ a b : Nat, b < w → (a * w + b) / w = a := fun a b hb => by
    rw [Nat.add_comm, Nat.add_mul_div_right _ _ hw, Nat.div_eq_of_lt hb, Nat.zero_add]
  have hm : ∀ a b : Nat, b < w → (a * w + b) % w = b := fun a b hb => by
    rw [Nat.add_comm, Nat.add_mul_mod_self_right, Nat.mod_eq_of_lt hb]
  have e1 := congrArg (· / w) hi
  have e2 := congrArg (· % w) hi
  simp only [pixelIndex] at e1 e2
  rw [hd _ _ (by omega), hd _ _ (by omega)] at e1
  rw [hm _ _ (by omega), hm _ _ (by omega)] at e2
  simp only [bitPos] at hb
  omega

/-- `setBit` writes one bit and leaves the other seven (R73). -/
theorem setBit_getLsbD (b : Byte) (pos i : Nat) (v : Bool) (hp : pos < 8) (hi : i < 8) :
    (setBit b pos v).getLsbD i = if i = pos then v else b.getLsbD i := by
  unfold setBit
  interval_cases pos <;> interval_cases i <;> cases v <;> simp

/-- A write outside the canvas changes nothing (R74). -/
theorem pixWrite_outside {w h : Nat} {p : PixelWrite} (hp : inside w h p.x p.y = false) (m : Memory) :
    pixWrite w h p m = m := by simp [pixWrite, hp]

/-- Every byte but the pixel's own is as it was (R73). -/
theorem read_pixWrite_other {w h : Nat} {p : PixelWrite} {a : Nat} (m : Memory)
    (ha : inside w h p.x p.y = true → a ≠ pixelIndex w p.x p.y) : (pixWrite w h p m).read a = m.read a := by
  unfold pixWrite
  split
  · rw [Memory.read_write, if_neg (ha ‹_›)]
  · rfl

/-- One pixel written, read back as a pixel; every other pixel of the canvas is as it was (R72, R73). -/
theorem pixelBit_pixWrite {w h : Nat} {p : PixelWrite} {x y : Int} (m : Memory) (hq : inside w h x y = true) :
    pixelBit w (pixWrite w h p m) x y = if p.x = x ∧ p.y = y then p.v else pixelBit w m x y := by
  by_cases hp : inside w h p.x p.y = true
  · simp only [pixWrite, hp, if_true, pixelBit, Memory.read_write]
    by_cases hi : pixelIndex w x y = pixelIndex w p.x p.y
    · rw [if_pos hi, setBit_getLsbD _ _ _ _ (bitPos_lt p.y) (bitPos_lt y)]
      by_cases hb : bitPos y = bitPos p.y
      · have := pixel_position_injective hq hp hi hb
        rw [if_pos hb, if_pos ⟨this.1.symm, this.2.symm⟩]
      · rw [if_neg hb, if_neg (by rintro ⟨rfl, rfl⟩; exact hb rfl), hi]
    · rw [if_neg hi, if_neg (by rintro ⟨rfl, rfl⟩; exact hi rfl)]
  · rw [pixWrite_outside (by simpa using hp), if_neg (by rintro ⟨rfl, rfl⟩; exact hp hq)]

/-- A pixel write keeps the framebuffer's canonical form. -/
theorem wf_pixWrite {w h : Nat} (p : PixelWrite) {m : Memory} (h8 : 8 ∣ h) (hm : Memory.wf (h / 8 * w) m = true) :
    Memory.wf (h / 8 * w) (pixWrite w h p m) = true := by
  unfold pixWrite
  split
  · exact Memory.wf_write _ hm (pixelIndex_lt ‹_› h8)
  · exact hm

@[simp] theorem drawPixels_nil (w h : Nat) (m : Memory) : drawPixels w h [] m = m := rfl

@[simp] theorem drawPixels_cons (w h : Nat) (p : PixelWrite) (ps : List PixelWrite) (m : Memory) :
    drawPixels w h (p :: ps) m = drawPixels w h ps (pixWrite w h p m) := rfl

theorem wf_drawPixels {w h : Nat} (ps : List PixelWrite) {m : Memory} (h8 : 8 ∣ h)
    (hm : Memory.wf (h / 8 * w) m = true) : Memory.wf (h / 8 * w) (drawPixels w h ps m) = true := by
  induction ps generalizing m with
  | nil => exact hm
  | cons p ps ih => exact ih (wf_pixWrite p h8 hm)

/-- The last write to a pixel decides it; a pixel nothing writes is as it was. -/
theorem pixelBit_drawPixels {w h : Nat} (ps : List PixelWrite) (m : Memory) {x y : Int} (hq : inside w h x y = true) :
    pixelBit w (drawPixels w h ps m) x y =
      ps.foldl (fun v p => if p.x = x ∧ p.y = y then p.v else v) (pixelBit w m x y) := by
  induction ps generalizing m with
  | nil => rfl
  | cons p ps ih => rw [drawPixels_cons, ih, List.foldl_cons, pixelBit_pixWrite m hq]

/-- A pixel no write of the list names is as it was. -/
theorem pixelBit_drawPixels_other {w h : Nat} (ps : List PixelWrite) (m : Memory) {x y : Int}
    (hq : inside w h x y = true) (hn : ∀ p ∈ ps, ¬(p.x = x ∧ p.y = y)) :
    pixelBit w (drawPixels w h ps m) x y = pixelBit w m x y := by
  rw [pixelBit_drawPixels ps m hq]
  generalize pixelBit w m x y = v
  induction ps with
  | nil => rfl
  | cons p ps ih => rw [List.foldl_cons, if_neg (hn p (by simp))]; exact ih fun q hq => hn q (by simp [hq])

/-- A pixel every write of the list gives one value, and some write names, has that value. -/
theorem pixelBit_drawPixels_written {w h : Nat} (ps : List PixelWrite) (m : Memory) {x y : Int} {v : Bool}
    (hq : inside w h x y = true) (hv : ∀ p ∈ ps, p.x = x ∧ p.y = y → p.v = v) (hs : ∃ p ∈ ps, p.x = x ∧ p.y = y) :
    pixelBit w (drawPixels w h ps m) x y = v := by
  rw [pixelBit_drawPixels ps m hq]
  generalize pixelBit w m x y = u
  induction ps generalizing u with
  | nil => simp at hs
  | cons p ps ih =>
    rw [List.foldl_cons]
    by_cases hps : ∃ p ∈ ps, p.x = x ∧ p.y = y
    · exact ih (fun q hq => hv q (by simp [hq])) hps _
    · have hp : p.x = x ∧ p.y = y := by
        obtain ⟨q, hq, hqe⟩ := hs
        rcases List.mem_cons.mp hq with rfl | hq
        · exact hqe
        · exact absurd ⟨q, hq, hqe⟩ hps
      rw [if_pos hp, hv p (by simp) hp]
      have hn : ∀ q ∈ ps, ¬(q.x = x ∧ q.y = y) := fun q hq he => hps ⟨q, hq, he⟩
      clear ih hv hs hps
      induction ps with
      | nil => rfl
      | cons q ps ih => rw [List.foldl_cons, if_neg (hn q (by simp))]; exact ih fun r hr => hn r (by simp [hr])

/-- A byte no write of the list lands in is as it was. -/
theorem read_drawPixels_other {w h : Nat} (ps : List PixelWrite) (m : Memory) {a : Nat}
    (hn : ∀ p ∈ ps, inside w h p.x p.y = true → a ≠ pixelIndex w p.x p.y) :
    (drawPixels w h ps m).read a = m.read a := by
  induction ps generalizing m with
  | nil => rfl
  | cons p ps ih =>
    rw [drawPixels_cons, ih _ fun q hq => hn q (by simp [hq]), read_pixWrite_other m (hn p (by simp))]

/-- Writes that are all outside the canvas change nothing (R141). -/
theorem drawPixels_all_outside {w h : Nat} (ps : List PixelWrite) (m : Memory)
    (hn : ∀ p ∈ ps, inside w h p.x p.y = false) : drawPixels w h ps m = m := by
  induction ps with
  | nil => rfl
  | cons p ps ih =>
    rw [drawPixels_cons, pixWrite_outside (hn p (by simp))]; exact ih fun q hq => hn q (by simp [hq])

/-- What the pixel loop of `blit` writes (R143, R144). -/
theorem mem_blitPixels {src : List Byte} {x y bw bh : Int} {p : PixelWrite} :
    p ∈ blitPixels src x y bw bh ↔
      ∃ i j : Nat, (i : Int) < bw ∧ (j : Int) < bh ∧ p = ⟨x + i, y + j, srcPixel src bw.toNat i j⟩ := by
  simp only [blitPixels, List.mem_flatMap, List.mem_map, List.mem_range]
  constructor
  · rintro ⟨j, hj, i, hi, rfl⟩; exact ⟨i, j, by omega, by omega, rfl⟩
  · rintro ⟨i, j, hi, hj, rfl⟩; exact ⟨j, by omega, i, by omega, rfl⟩

/-- A degenerate bitmap writes nothing (R143). -/
theorem blitPixels_degenerate {src : List Byte} {x y bw bh : Int} (h : bw ≤ 0 ∨ bh ≤ 0) :
    blitPixels src x y bw bh = [] := by
  rw [List.eq_nil_iff_forall_not_mem]
  intro p hp
  obtain ⟨i, j, hi, hj, -⟩ := mem_blitPixels.mp hp
  omega

/-- For a 16-pixel-wide bitmap the source pixel is the glyph pixel (R144). -/
theorem srcPixel_glyph (g : Glyph) (c r : Nat) : srcPixel g.toList 16 c r = glyphPixel g c r := by
  simp [srcPixel, glyphPixel, rowStride, Nat.mul_comm]

/-- The writes of a text pattern lie in the cells of its characters (R243, T2). -/
theorem mem_textPixels {pattern : List TextWrite} {n : Nat} {x0 y0 : Int} {p : PixelWrite}
    (hp : p ∈ textPixels pattern n x0 y0) :
    ∃ k < n, x0 + 8 * k ≤ p.x ∧ p.x < x0 + 8 * k + 8 ∧ y0 ≤ p.y ∧ p.y < y0 + 8 := by
  simp only [textPixels, List.mem_map, List.mem_filter, decide_eq_true_eq] at hp
  obtain ⟨t, ⟨-, hk⟩, rfl⟩ := hp
  exact ⟨t.cell, hk, by simp⟩

end Sys2Proof.Machine
end

