-- ==== Sys2Proof/Laws/State.lean ====
section
/-! SUPPORT. One lemma per field per update of the state, all by `rfl`, so that no proof unfolds a record update. -/

namespace Sys2Proof.Machine

variable (s : State)

/-! ### emit -/

@[simp] theorem State.emit_phase (es : List Event) : (s.emit es).phase = s.phase := rfl
@[simp] theorem State.emit_op (es : List Event) : (s.emit es).op = s.op := rfl
@[simp] theorem State.emit_prog (es : List Event) : (s.emit es).prog = s.prog := rfl
@[simp] theorem State.emit_seq (es : List Event) : (s.emit es).seq = s.seq := rfl
@[simp] theorem State.emit_width (es : List Event) : (s.emit es).width = s.width := rfl
@[simp] theorem State.emit_height (es : List Event) : (s.emit es).height = s.height := rfl
@[simp] theorem State.emit_pages (es : List Event) : (s.emit es).pages = s.pages := rfl
@[simp] theorem State.emit_extVcc (es : List Event) : (s.emit es).extVcc = s.extVcc := rfl
@[simp] theorem State.emit_powerOn (es : List Event) : (s.emit es).powerOn = s.powerOn := rfl
@[simp] theorem State.emit_contrast (es : List Event) : (s.emit es).contrast = s.contrast := rfl
@[simp] theorem State.emit_inverted (es : List Event) : (s.emit es).inverted = s.inverted := rfl
@[simp] theorem State.emit_fb (es : List Event) : (s.emit es).fb = s.fb := rfl
@[simp] theorem State.emit_tr (es : List Event) : (s.emit es).tr = s.tr := rfl
@[simp] theorem State.emit_panel (es : List Event) : (s.emit es).panel = s.panel := rfl
@[simp] theorem State.emit_trace (es : List Event) : (s.emit es).trace = s.trace ++ es := rfl
@[simp] theorem State.emit_result (es : List Event) : (s.emit es).result = s.result := rfl
@[simp] theorem State.emit_flushed (es : List Event) : (s.emit es).flushed = s.flushed := rfl
@[simp] theorem State.emit_refused (es : List Event) : (s.emit es).refused = s.refused := rfl
@[simp] theorem State.emit_cfg (es : List Event) : (s.emit es).cfg = s.cfg := rfl
@[simp] theorem State.emit_rom (es : List Event) : (s.emit es).rom = s.rom := rfl
@[simp] theorem State.emit_env (es : List Event) : (s.emit es).env = s.env := rfl

/-! ### advance -/

@[simp] theorem State.advance_phase : s.advance.phase = s.phase := rfl
@[simp] theorem State.advance_op : s.advance.op = s.op := rfl
@[simp] theorem State.advance_prog : s.advance.prog = s.prog := rfl
@[simp] theorem State.advance_seq : s.advance.seq = s.seq + 1 := rfl
@[simp] theorem State.advance_width : s.advance.width = s.width := rfl
@[simp] theorem State.advance_height : s.advance.height = s.height := rfl
@[simp] theorem State.advance_pages : s.advance.pages = s.pages := rfl
@[simp] theorem State.advance_extVcc : s.advance.extVcc = s.extVcc := rfl
@[simp] theorem State.advance_powerOn : s.advance.powerOn = s.powerOn := rfl
@[simp] theorem State.advance_contrast : s.advance.contrast = s.contrast := rfl
@[simp] theorem State.advance_inverted : s.advance.inverted = s.inverted := rfl
@[simp] theorem State.advance_fb : s.advance.fb = s.fb := rfl
@[simp] theorem State.advance_tr : s.advance.tr = s.tr := rfl
@[simp] theorem State.advance_panel : s.advance.panel = s.panel := rfl
@[simp] theorem State.advance_trace : s.advance.trace = s.trace := rfl
@[simp] theorem State.advance_result : s.advance.result = s.result := rfl
@[simp] theorem State.advance_flushed : s.advance.flushed = s.flushed := rfl
@[simp] theorem State.advance_refused : s.advance.refused = s.refused := rfl
@[simp] theorem State.advance_cfg : s.advance.cfg = s.cfg := rfl
@[simp] theorem State.advance_rom : s.advance.rom = s.rom := rfl
@[simp] theorem State.advance_env : s.advance.env = s.env := rfl

/-! ### issue: R218: issue changes the sequencer's fields and nothing else -/

@[simp] theorem State.issue_phase (i : Instr) (ph : Phase) (prog : List MicroOp) : (s.issue i ph prog).phase = ph := rfl
@[simp] theorem State.issue_op (i : Instr) (ph : Phase) (prog : List MicroOp) : (s.issue i ph prog).op = some i := rfl
@[simp] theorem State.issue_prog (i : Instr) (ph : Phase) (prog : List MicroOp) : (s.issue i ph prog).prog = prog := rfl
@[simp] theorem State.issue_seq (i : Instr) (ph : Phase) (prog : List MicroOp) : (s.issue i ph prog).seq = 0 := rfl
@[simp] theorem State.issue_width (i : Instr) (ph : Phase) (prog : List MicroOp) : (s.issue i ph prog).width = s.width := rfl
@[simp] theorem State.issue_height (i : Instr) (ph : Phase) (prog : List MicroOp) : (s.issue i ph prog).height = s.height := rfl
@[simp] theorem State.issue_pages (i : Instr) (ph : Phase) (prog : List MicroOp) : (s.issue i ph prog).pages = s.pages := rfl
@[simp] theorem State.issue_extVcc (i : Instr) (ph : Phase) (prog : List MicroOp) : (s.issue i ph prog).extVcc = s.extVcc := rfl
@[simp] theorem State.issue_powerOn (i : Instr) (ph : Phase) (prog : List MicroOp) : (s.issue i ph prog).powerOn = s.powerOn := rfl
@[simp] theorem State.issue_contrast (i : Instr) (ph : Phase) (prog : List MicroOp) : (s.issue i ph prog).contrast = s.contrast := rfl
@[simp] theorem State.issue_inverted (i : Instr) (ph : Phase) (prog : List MicroOp) : (s.issue i ph prog).inverted = s.inverted := rfl
@[simp] theorem State.issue_fb (i : Instr) (ph : Phase) (prog : List MicroOp) : (s.issue i ph prog).fb = s.fb := rfl
@[simp] theorem State.issue_tr (i : Instr) (ph : Phase) (prog : List MicroOp) : (s.issue i ph prog).tr = s.tr := rfl
@[simp] theorem State.issue_panel (i : Instr) (ph : Phase) (prog : List MicroOp) : (s.issue i ph prog).panel = s.panel := rfl
@[simp] theorem State.issue_trace (i : Instr) (ph : Phase) (prog : List MicroOp) : (s.issue i ph prog).trace = s.trace := rfl
@[simp] theorem State.issue_result (i : Instr) (ph : Phase) (prog : List MicroOp) : (s.issue i ph prog).result = s.result := rfl
@[simp] theorem State.issue_flushed (i : Instr) (ph : Phase) (prog : List MicroOp) : (s.issue i ph prog).flushed = s.flushed := rfl
@[simp] theorem State.issue_refused (i : Instr) (ph : Phase) (prog : List MicroOp) : (s.issue i ph prog).refused = s.refused := rfl
@[simp] theorem State.issue_cfg (i : Instr) (ph : Phase) (prog : List MicroOp) : (s.issue i ph prog).cfg = s.cfg := rfl
@[simp] theorem State.issue_rom (i : Instr) (ph : Phase) (prog : List MicroOp) : (s.issue i ph prog).rom = s.rom := rfl
@[simp] theorem State.issue_env (i : Instr) (ph : Phase) (prog : List MicroOp) : (s.issue i ph prog).env = s.env := rfl

/-! ### refuse: R324: what a refusal changes -/

@[simp] theorem State.refuse_phase (op : OpName) (e : Err) : (s.refuse op e).phase = .refused := rfl
@[simp] theorem State.refuse_op (op : OpName) (e : Err) : (s.refuse op e).op = s.op := rfl
@[simp] theorem State.refuse_prog (op : OpName) (e : Err) : (s.refuse op e).prog = s.prog := rfl
@[simp] theorem State.refuse_seq (op : OpName) (e : Err) : (s.refuse op e).seq = s.seq := rfl
@[simp] theorem State.refuse_width (op : OpName) (e : Err) : (s.refuse op e).width = s.width := rfl
@[simp] theorem State.refuse_height (op : OpName) (e : Err) : (s.refuse op e).height = s.height := rfl
@[simp] theorem State.refuse_pages (op : OpName) (e : Err) : (s.refuse op e).pages = s.pages := rfl
@[simp] theorem State.refuse_extVcc (op : OpName) (e : Err) : (s.refuse op e).extVcc = s.extVcc := rfl
@[simp] theorem State.refuse_powerOn (op : OpName) (e : Err) : (s.refuse op e).powerOn = s.powerOn := rfl
@[simp] theorem State.refuse_contrast (op : OpName) (e : Err) : (s.refuse op e).contrast = s.contrast := rfl
@[simp] theorem State.refuse_inverted (op : OpName) (e : Err) : (s.refuse op e).inverted = s.inverted := rfl
@[simp] theorem State.refuse_fb (op : OpName) (e : Err) : (s.refuse op e).fb = s.fb := rfl
@[simp] theorem State.refuse_tr (op : OpName) (e : Err) : (s.refuse op e).tr = s.tr := rfl
@[simp] theorem State.refuse_panel (op : OpName) (e : Err) : (s.refuse op e).panel = s.panel := rfl
@[simp] theorem State.refuse_trace (op : OpName) (e : Err) : (s.refuse op e).trace = s.trace ++ [.result op (.err e)] := rfl
@[simp] theorem State.refuse_result (op : OpName) (e : Err) : (s.refuse op e).result = some (.err e) := rfl
@[simp] theorem State.refuse_flushed (op : OpName) (e : Err) : (s.refuse op e).flushed = s.flushed := rfl
@[simp] theorem State.refuse_refused (op : OpName) (e : Err) : (s.refuse op e).refused = true := rfl
@[simp] theorem State.refuse_cfg (op : OpName) (e : Err) : (s.refuse op e).cfg = s.cfg := rfl
@[simp] theorem State.refuse_rom (op : OpName) (e : Err) : (s.refuse op e).rom = s.rom := rfl
@[simp] theorem State.refuse_env (op : OpName) (e : Err) : (s.refuse op e).env = s.env := rfl

/-! ### raise: R328: what an error end changes -/

@[simp] theorem State.raise_phase (e : Err) : (s.raise e).phase = s.phase.afterError := rfl
@[simp] theorem State.raise_op (e : Err) : (s.raise e).op = none := rfl
@[simp] theorem State.raise_prog (e : Err) : (s.raise e).prog = s.prog := rfl
@[simp] theorem State.raise_seq (e : Err) : (s.raise e).seq = s.seq := rfl
@[simp] theorem State.raise_width (e : Err) : (s.raise e).width = s.width := rfl
@[simp] theorem State.raise_height (e : Err) : (s.raise e).height = s.height := rfl
@[simp] theorem State.raise_pages (e : Err) : (s.raise e).pages = s.pages := rfl
@[simp] theorem State.raise_extVcc (e : Err) : (s.raise e).extVcc = s.extVcc := rfl
@[simp] theorem State.raise_powerOn (e : Err) : (s.raise e).powerOn = s.powerOn := rfl
@[simp] theorem State.raise_contrast (e : Err) : (s.raise e).contrast = s.contrast := rfl
@[simp] theorem State.raise_inverted (e : Err) : (s.raise e).inverted = s.inverted := rfl
@[simp] theorem State.raise_fb (e : Err) : (s.raise e).fb = s.fb := rfl
@[simp] theorem State.raise_tr (e : Err) : (s.raise e).tr = s.tr := rfl
@[simp] theorem State.raise_panel (e : Err) : (s.raise e).panel = s.panel := rfl
@[simp] theorem State.raise_trace (e : Err) : (s.raise e).trace = s.trace ++ [.result s.opName (.err e)] := rfl
@[simp] theorem State.raise_result (e : Err) : (s.raise e).result = some (.err e) := rfl
@[simp] theorem State.raise_flushed (e : Err) : (s.raise e).flushed = s.flushed := rfl
@[simp] theorem State.raise_refused (e : Err) : (s.raise e).refused = s.refused := rfl
@[simp] theorem State.raise_cfg (e : Err) : (s.raise e).cfg = s.cfg := rfl
@[simp] theorem State.raise_rom (e : Err) : (s.raise e).rom = s.rom := rfl
@[simp] theorem State.raise_env (e : Err) : (s.raise e).env = s.env := rfl

/-! ### The update of a program's COMMIT (R219) -/

@[simp] theorem committed_none {α : Type} (x : Option α) : committed none x = x := rfl
@[simp] theorem committed_some {α : Type} (v : α) (x : Option α) : committed (some v) x = some v := rfl

theorem committed_committed {α : Type} (x y z : Option α) :
    committed (committed x y) z = committed x (committed y z) := by cases x <;> rfl

@[simp] theorem Commit.empty_andThen (u : Commit) : ({} : Commit).andThen u = u := by
  obtain ⟨p, c, i⟩ := u; cases p <;> cases c <;> cases i <;> rfl

@[simp] theorem Commit.andThen_empty (u : Commit) : u.andThen {} = u := rfl

theorem Commit.andThen_assoc (u v x : Commit) : (u.andThen v).andThen x = u.andThen (v.andThen x) := by
  simp [Commit.andThen, committed_committed]

@[simp] theorem commitOf_append (ms ns : List MicroOp) : commitOf (ms ++ ns) = (commitOf ms).andThen (commitOf ns) := by
  induction ms with
  | nil => simp [commitOf]
  | cons m ms ih => cases m <;> simp [commitOf, ih, Commit.andThen_assoc]

@[simp] theorem commitOf_cmds (bs : List Byte) : commitOf (cmds bs) = {} := by
  induction bs with
  | nil => rfl
  | cons b bs ih => exact ih

@[simp] theorem commitOf_init (h : Nat) (e : Bool) : commitOf (initProgram h e) = initCommit := by
  simp [initProgram, commitOf]

@[simp] theorem commitOf_flush (w p : Nat) : commitOf (flushProgram w p) = {} := by simp [flushProgram, commitOf]

@[simp] theorem commitOf_construct (a : Bool) (w h : Int) (e : Bool) (k : TransportKind) :
    commitOf (constructProgram a w h e k) = initCommit := by
  have : commitOf (setupProgram a k) = {} := by cases k <;> rfl
  simp [constructProgram, this, commitOf]

@[simp] theorem commitOf_glyph (str : List Char) (col row : Int) : commitOf (glyphProgram str col row) = {} := by
  have gen : ∀ k, commitOf (glyphSteps col row k str) = {} := by
    induction str with
    | nil => intro k; rfl
    | cons c cs ih => intro k; exact ih _
  unfold glyphProgram
  split
  · rfl
  · exact gen 0

/-! ### complete: R220: what completion changes -/

@[simp] theorem State.complete_phase : s.complete.phase = .ready := rfl
@[simp] theorem State.complete_op : s.complete.op = none := rfl
@[simp] theorem State.complete_prog : s.complete.prog = s.prog := rfl
@[simp] theorem State.complete_seq : s.complete.seq = s.seq := rfl
@[simp] theorem State.complete_width : s.complete.width = s.width := rfl
@[simp] theorem State.complete_height : s.complete.height = s.height := rfl
@[simp] theorem State.complete_pages : s.complete.pages = s.pages := rfl
@[simp] theorem State.complete_extVcc : s.complete.extVcc = s.extVcc := rfl
@[simp] theorem State.complete_powerOn : s.complete.powerOn = committed (commitOf s.prog).powerOn s.powerOn := rfl
@[simp] theorem State.complete_contrast : s.complete.contrast = committed (commitOf s.prog).contrast s.contrast := rfl
@[simp] theorem State.complete_inverted : s.complete.inverted = committed (commitOf s.prog).inverted s.inverted := rfl
@[simp] theorem State.complete_fb : s.complete.fb = s.fb := rfl
@[simp] theorem State.complete_tr : s.complete.tr = s.tr := rfl
@[simp] theorem State.complete_panel : s.complete.panel = s.panel := rfl
@[simp] theorem State.complete_trace : s.complete.trace = s.trace ++ [.result s.opName .ok] := rfl
@[simp] theorem State.complete_result : s.complete.result = some .ok := rfl
@[simp] theorem State.complete_flushed : s.complete.flushed = s.flushed := rfl
@[simp] theorem State.complete_refused : s.complete.refused = s.refused := rfl
@[simp] theorem State.complete_cfg : s.complete.cfg = s.cfg := rfl
@[simp] theorem State.complete_rom : s.complete.rom = s.rom := rfl
@[simp] theorem State.complete_env : s.complete.env = s.env := rfl

/-! ### takeAnswer -/

@[simp] theorem State.takeAnswer_phase : s.takeAnswer.phase = s.phase := rfl
@[simp] theorem State.takeAnswer_op : s.takeAnswer.op = s.op := rfl
@[simp] theorem State.takeAnswer_prog : s.takeAnswer.prog = s.prog := rfl
@[simp] theorem State.takeAnswer_seq : s.takeAnswer.seq = s.seq := rfl
@[simp] theorem State.takeAnswer_width : s.takeAnswer.width = s.width := rfl
@[simp] theorem State.takeAnswer_height : s.takeAnswer.height = s.height := rfl
@[simp] theorem State.takeAnswer_pages : s.takeAnswer.pages = s.pages := rfl
@[simp] theorem State.takeAnswer_extVcc : s.takeAnswer.extVcc = s.extVcc := rfl
@[simp] theorem State.takeAnswer_powerOn : s.takeAnswer.powerOn = s.powerOn := rfl
@[simp] theorem State.takeAnswer_contrast : s.takeAnswer.contrast = s.contrast := rfl
@[simp] theorem State.takeAnswer_inverted : s.takeAnswer.inverted = s.inverted := rfl
@[simp] theorem State.takeAnswer_fb : s.takeAnswer.fb = s.fb := rfl
@[simp] theorem State.takeAnswer_tr : s.takeAnswer.tr = s.tr := rfl
@[simp] theorem State.takeAnswer_panel : s.takeAnswer.panel = s.panel := rfl
@[simp] theorem State.takeAnswer_trace : s.takeAnswer.trace = s.trace := rfl
@[simp] theorem State.takeAnswer_result : s.takeAnswer.result = s.result := rfl
@[simp] theorem State.takeAnswer_flushed : s.takeAnswer.flushed = s.flushed := rfl
@[simp] theorem State.takeAnswer_refused : s.takeAnswer.refused = s.refused := rfl
@[simp] theorem State.takeAnswer_cfg : s.takeAnswer.cfg = s.cfg := rfl
@[simp] theorem State.takeAnswer_rom : s.takeAnswer.rom = s.rom := rfl
@[simp] theorem State.takeAnswer_env : s.takeAnswer.env = { s.env with answers := s.env.answers.tail, answerCount := s.env.answerCount + 1 } := rfl

/-! ### takeCsDraw -/

@[simp] theorem State.takeCsDraw_phase : s.takeCsDraw.phase = s.phase := rfl
@[simp] theorem State.takeCsDraw_op : s.takeCsDraw.op = s.op := rfl
@[simp] theorem State.takeCsDraw_prog : s.takeCsDraw.prog = s.prog := rfl
@[simp] theorem State.takeCsDraw_seq : s.takeCsDraw.seq = s.seq := rfl
@[simp] theorem State.takeCsDraw_width : s.takeCsDraw.width = s.width := rfl
@[simp] theorem State.takeCsDraw_height : s.takeCsDraw.height = s.height := rfl
@[simp] theorem State.takeCsDraw_pages : s.takeCsDraw.pages = s.pages := rfl
@[simp] theorem State.takeCsDraw_extVcc : s.takeCsDraw.extVcc = s.extVcc := rfl
@[simp] theorem State.takeCsDraw_powerOn : s.takeCsDraw.powerOn = s.powerOn := rfl
@[simp] theorem State.takeCsDraw_contrast : s.takeCsDraw.contrast = s.contrast := rfl
@[simp] theorem State.takeCsDraw_inverted : s.takeCsDraw.inverted = s.inverted := rfl
@[simp] theorem State.takeCsDraw_fb : s.takeCsDraw.fb = s.fb := rfl
@[simp] theorem State.takeCsDraw_tr : s.takeCsDraw.tr = s.tr := rfl
@[simp] theorem State.takeCsDraw_panel : s.takeCsDraw.panel = s.panel := rfl
@[simp] theorem State.takeCsDraw_trace : s.takeCsDraw.trace = s.trace := rfl
@[simp] theorem State.takeCsDraw_result : s.takeCsDraw.result = s.result := rfl
@[simp] theorem State.takeCsDraw_flushed : s.takeCsDraw.flushed = s.flushed := rfl
@[simp] theorem State.takeCsDraw_refused : s.takeCsDraw.refused = s.refused := rfl
@[simp] theorem State.takeCsDraw_cfg : s.takeCsDraw.cfg = s.cfg := rfl
@[simp] theorem State.takeCsDraw_rom : s.takeCsDraw.rom = s.rom := rfl
@[simp] theorem State.takeCsDraw_env : s.takeCsDraw.env = { s.env with csDraws := s.env.csDraws.tail, csDrawCount := s.env.csDrawCount + 1 } := rfl

/-! ### commit: R219: a COMMIT changes the controller's shadow fields only -/

@[simp] theorem State.commit_phase (u : Commit) : (s.commit u).phase = s.phase := rfl
@[simp] theorem State.commit_op (u : Commit) : (s.commit u).op = s.op := rfl
@[simp] theorem State.commit_prog (u : Commit) : (s.commit u).prog = s.prog := rfl
@[simp] theorem State.commit_seq (u : Commit) : (s.commit u).seq = s.seq := rfl
@[simp] theorem State.commit_width (u : Commit) : (s.commit u).width = s.width := rfl
@[simp] theorem State.commit_height (u : Commit) : (s.commit u).height = s.height := rfl
@[simp] theorem State.commit_pages (u : Commit) : (s.commit u).pages = s.pages := rfl
@[simp] theorem State.commit_extVcc (u : Commit) : (s.commit u).extVcc = s.extVcc := rfl
@[simp] theorem State.commit_powerOn (u : Commit) : (s.commit u).powerOn = committed u.powerOn s.powerOn := rfl
@[simp] theorem State.commit_contrast (u : Commit) : (s.commit u).contrast = committed u.contrast s.contrast := rfl
@[simp] theorem State.commit_inverted (u : Commit) : (s.commit u).inverted = committed u.inverted s.inverted := rfl
@[simp] theorem State.commit_fb (u : Commit) : (s.commit u).fb = s.fb := rfl
@[simp] theorem State.commit_tr (u : Commit) : (s.commit u).tr = s.tr := rfl
@[simp] theorem State.commit_panel (u : Commit) : (s.commit u).panel = s.panel := rfl
@[simp] theorem State.commit_trace (u : Commit) : (s.commit u).trace = s.trace := rfl
@[simp] theorem State.commit_result (u : Commit) : (s.commit u).result = s.result := rfl
@[simp] theorem State.commit_flushed (u : Commit) : (s.commit u).flushed = s.flushed := rfl
@[simp] theorem State.commit_refused (u : Commit) : (s.commit u).refused = s.refused := rfl
@[simp] theorem State.commit_cfg (u : Commit) : (s.commit u).cfg = s.cfg := rfl
@[simp] theorem State.commit_rom (u : Commit) : (s.commit u).rom = s.rom := rfl
@[simp] theorem State.commit_env (u : Commit) : (s.commit u).env = s.env := rfl

/-! ### driveLine -/

@[simp] theorem State.driveLine_phase (r : FourWireRegs) (l : Line) (v : Bool) : (s.driveLine r l v).phase = s.phase := rfl
@[simp] theorem State.driveLine_op (r : FourWireRegs) (l : Line) (v : Bool) : (s.driveLine r l v).op = s.op := rfl
@[simp] theorem State.driveLine_prog (r : FourWireRegs) (l : Line) (v : Bool) : (s.driveLine r l v).prog = s.prog := rfl
@[simp] theorem State.driveLine_seq (r : FourWireRegs) (l : Line) (v : Bool) : (s.driveLine r l v).seq = s.seq := rfl
@[simp] theorem State.driveLine_width (r : FourWireRegs) (l : Line) (v : Bool) : (s.driveLine r l v).width = s.width := rfl
@[simp] theorem State.driveLine_height (r : FourWireRegs) (l : Line) (v : Bool) : (s.driveLine r l v).height = s.height := rfl
@[simp] theorem State.driveLine_pages (r : FourWireRegs) (l : Line) (v : Bool) : (s.driveLine r l v).pages = s.pages := rfl
@[simp] theorem State.driveLine_extVcc (r : FourWireRegs) (l : Line) (v : Bool) : (s.driveLine r l v).extVcc = s.extVcc := rfl
@[simp] theorem State.driveLine_powerOn (r : FourWireRegs) (l : Line) (v : Bool) : (s.driveLine r l v).powerOn = s.powerOn := rfl
@[simp] theorem State.driveLine_contrast (r : FourWireRegs) (l : Line) (v : Bool) : (s.driveLine r l v).contrast = s.contrast := rfl
@[simp] theorem State.driveLine_inverted (r : FourWireRegs) (l : Line) (v : Bool) : (s.driveLine r l v).inverted = s.inverted := rfl
@[simp] theorem State.driveLine_fb (r : FourWireRegs) (l : Line) (v : Bool) : (s.driveLine r l v).fb = s.fb := rfl
@[simp] theorem State.driveLine_tr (r : FourWireRegs) (l : Line) (v : Bool) : (s.driveLine r l v).tr = some (.fourWire (r.afterLine s.cfg l v)) := rfl
@[simp] theorem State.driveLine_panel (r : FourWireRegs) (l : Line) (v : Bool) : (s.driveLine r l v).panel = s.panel := rfl
@[simp] theorem State.driveLine_trace (r : FourWireRegs) (l : Line) (v : Bool) : (s.driveLine r l v).trace = s.trace ++ [lineEvent l v] := rfl
@[simp] theorem State.driveLine_result (r : FourWireRegs) (l : Line) (v : Bool) : (s.driveLine r l v).result = s.result := rfl
@[simp] theorem State.driveLine_flushed (r : FourWireRegs) (l : Line) (v : Bool) : (s.driveLine r l v).flushed = s.flushed := rfl
@[simp] theorem State.driveLine_refused (r : FourWireRegs) (l : Line) (v : Bool) : (s.driveLine r l v).refused = s.refused := rfl
@[simp] theorem State.driveLine_cfg (r : FourWireRegs) (l : Line) (v : Bool) : (s.driveLine r l v).cfg = s.cfg := rfl
@[simp] theorem State.driveLine_rom (r : FourWireRegs) (l : Line) (v : Bool) : (s.driveLine r l v).rom = s.rom := rfl
@[simp] theorem State.driveLine_env (r : FourWireRegs) (l : Line) (v : Bool) : (s.driveLine r l v).env = s.env := rfl

/-! ### spiOpen -/

@[simp] theorem State.spiOpen_phase (r : FourWireRegs) (d : Bool) : (s.spiOpen r d).phase = s.phase := rfl
@[simp] theorem State.spiOpen_op (r : FourWireRegs) (d : Bool) : (s.spiOpen r d).op = s.op := rfl
@[simp] theorem State.spiOpen_prog (r : FourWireRegs) (d : Bool) : (s.spiOpen r d).prog = s.prog := rfl
@[simp] theorem State.spiOpen_seq (r : FourWireRegs) (d : Bool) : (s.spiOpen r d).seq = s.seq := rfl
@[simp] theorem State.spiOpen_width (r : FourWireRegs) (d : Bool) : (s.spiOpen r d).width = s.width := rfl
@[simp] theorem State.spiOpen_height (r : FourWireRegs) (d : Bool) : (s.spiOpen r d).height = s.height := rfl
@[simp] theorem State.spiOpen_pages (r : FourWireRegs) (d : Bool) : (s.spiOpen r d).pages = s.pages := rfl
@[simp] theorem State.spiOpen_extVcc (r : FourWireRegs) (d : Bool) : (s.spiOpen r d).extVcc = s.extVcc := rfl
@[simp] theorem State.spiOpen_powerOn (r : FourWireRegs) (d : Bool) : (s.spiOpen r d).powerOn = s.powerOn := rfl
@[simp] theorem State.spiOpen_contrast (r : FourWireRegs) (d : Bool) : (s.spiOpen r d).contrast = s.contrast := rfl
@[simp] theorem State.spiOpen_inverted (r : FourWireRegs) (d : Bool) : (s.spiOpen r d).inverted = s.inverted := rfl
@[simp] theorem State.spiOpen_fb (r : FourWireRegs) (d : Bool) : (s.spiOpen r d).fb = s.fb := rfl
@[simp] theorem State.spiOpen_tr (r : FourWireRegs) (d : Bool) : (s.spiOpen r d).tr = some (.fourWire { r with cs := false, dc := d }) := rfl
@[simp] theorem State.spiOpen_panel (r : FourWireRegs) (d : Bool) : (s.spiOpen r d).panel = s.panel := rfl
@[simp] theorem State.spiOpen_trace (r : FourWireRegs) (d : Bool) : (s.spiOpen r d).trace = s.trace ++ [.spiCfg r.rate, .cs false, .dc d] := rfl
@[simp] theorem State.spiOpen_result (r : FourWireRegs) (d : Bool) : (s.spiOpen r d).result = s.result := rfl
@[simp] theorem State.spiOpen_flushed (r : FourWireRegs) (d : Bool) : (s.spiOpen r d).flushed = s.flushed := rfl
@[simp] theorem State.spiOpen_refused (r : FourWireRegs) (d : Bool) : (s.spiOpen r d).refused = s.refused := rfl
@[simp] theorem State.spiOpen_cfg (r : FourWireRegs) (d : Bool) : (s.spiOpen r d).cfg = s.cfg := rfl
@[simp] theorem State.spiOpen_rom (r : FourWireRegs) (d : Bool) : (s.spiOpen r d).rom = s.rom := rfl
@[simp] theorem State.spiOpen_env (r : FourWireRegs) (d : Bool) : (s.spiOpen r d).env = s.env := rfl

/-! ### spiRelease -/

@[simp] theorem State.spiRelease_phase (r : FourWireRegs) (d : Bool) : (s.spiRelease r d).phase = s.phase := rfl
@[simp] theorem State.spiRelease_op (r : FourWireRegs) (d : Bool) : (s.spiRelease r d).op = s.op := rfl
@[simp] theorem State.spiRelease_prog (r : FourWireRegs) (d : Bool) : (s.spiRelease r d).prog = s.prog := rfl
@[simp] theorem State.spiRelease_seq (r : FourWireRegs) (d : Bool) : (s.spiRelease r d).seq = s.seq := rfl
@[simp] theorem State.spiRelease_width (r : FourWireRegs) (d : Bool) : (s.spiRelease r d).width = s.width := rfl
@[simp] theorem State.spiRelease_height (r : FourWireRegs) (d : Bool) : (s.spiRelease r d).height = s.height := rfl
@[simp] theorem State.spiRelease_pages (r : FourWireRegs) (d : Bool) : (s.spiRelease r d).pages = s.pages := rfl
@[simp] theorem State.spiRelease_extVcc (r : FourWireRegs) (d : Bool) : (s.spiRelease r d).extVcc = s.extVcc := rfl
@[simp] theorem State.spiRelease_powerOn (r : FourWireRegs) (d : Bool) : (s.spiRelease r d).powerOn = s.powerOn := rfl
@[simp] theorem State.spiRelease_contrast (r : FourWireRegs) (d : Bool) : (s.spiRelease r d).contrast = s.contrast := rfl
@[simp] theorem State.spiRelease_inverted (r : FourWireRegs) (d : Bool) : (s.spiRelease r d).inverted = s.inverted := rfl
@[simp] theorem State.spiRelease_fb (r : FourWireRegs) (d : Bool) : (s.spiRelease r d).fb = s.fb := rfl
@[simp] theorem State.spiRelease_tr (r : FourWireRegs) (d : Bool) : (s.spiRelease r d).tr = some (.fourWire { r with cs := true, dc := d }) := rfl
@[simp] theorem State.spiRelease_panel (r : FourWireRegs) (d : Bool) : (s.spiRelease r d).panel = s.panel := rfl
@[simp] theorem State.spiRelease_trace (r : FourWireRegs) (d : Bool) : (s.spiRelease r d).trace = s.trace ++ [.cs true] := rfl
@[simp] theorem State.spiRelease_result (r : FourWireRegs) (d : Bool) : (s.spiRelease r d).result = s.result := rfl
@[simp] theorem State.spiRelease_flushed (r : FourWireRegs) (d : Bool) : (s.spiRelease r d).flushed = s.flushed := rfl
@[simp] theorem State.spiRelease_refused (r : FourWireRegs) (d : Bool) : (s.spiRelease r d).refused = s.refused := rfl
@[simp] theorem State.spiRelease_cfg (r : FourWireRegs) (d : Bool) : (s.spiRelease r d).cfg = s.cfg := rfl
@[simp] theorem State.spiRelease_rom (r : FourWireRegs) (d : Bool) : (s.spiRelease r d).rom = s.rom := rfl
@[simp] theorem State.spiRelease_env (r : FourWireRegs) (d : Bool) : (s.spiRelease r d).env = s.env := rfl

end Sys2Proof.Machine
end

