-- ==== Sys2Proof/Laws/Transport.lean ====
section
/-! SUPPORT. The transfers: one lemma per transfer and answer, the same for both transports, and runs of command
transfers that are all answered ok. -/

namespace Sys2Proof.Machine

/-! ## Answers -/

theorem answersOk_next {n : Nat} {s : State} (h : AnswersOk (n + 1) s) : s.nextAnswer = .ok := by
  obtain ⟨rest, h⟩ := h
  simp [State.nextAnswer, h, List.replicate_succ]

theorem answersOk_take {n : Nat} {s : State} (h : AnswersOk (n + 1) s) : AnswersOk n s.takeAnswer := by
  obtain ⟨rest, h⟩ := h
  exact ⟨rest, by simp [State.takeAnswer, h, List.replicate_succ]⟩

/-- `AnswersOk` speaks of the environment's answers alone. -/
theorem answersOk_congr {n : Nat} {s t : State} (h : AnswersOk n s) (e : t.env.answers = s.env.answers) :
    AnswersOk n t := by
  obtain ⟨rest, h⟩ := h
  exact ⟨rest, by rw [e, h]⟩

theorem answersOk_mono {n m : Nat} {s : State} (h : AnswersOk n s) (hm : m ≤ n) : AnswersOk m s := by
  obtain ⟨rest, h⟩ := h
  refine ⟨List.replicate (n - m) .ok ++ rest, ?_⟩
  rw [h, ← List.append_assoc, List.replicate_append_replicate, Nat.add_sub_cancel' hm]

/-! ## Transports -/

@[simp] theorem okTransport_okTransport (t : Transport) (a b : Bool) :
    okTransport (okTransport t a) b = okTransport t b := by cases t <;> rfl

@[simp] theorem okEvents_okTransport (t : Transport) (a dc : Bool) (bs : List Byte) :
    okEvents (okTransport t a) dc bs = okEvents t dc bs := by cases t <;> rfl

@[simp] theorem okCommands_okTransport (t : Transport) (a : Bool) (bs : List Byte) :
    okCommands (okTransport t a) bs = okCommands t bs := by simp [okCommands]

@[simp] theorem okCommands_nil (t : Transport) : okCommands t [] = [] := rfl

@[simp] theorem okCommands_cons (t : Transport) (b : Byte) (bs : List Byte) :
    okCommands t (b :: bs) = okEvents t false [b] ++ okCommands t bs := rfl

@[simp] theorem okCommands_append (t : Transport) (as bs : List Byte) :
    okCommands t (as ++ bs) = okCommands t as ++ okCommands t bs := by simp [okCommands]

/-! ## One command transfer (R171, R174, R176) -/

theorem sendCommand_ok {s : State} {t : Transport} (b : Byte) (ht : s.tr = some t) (ha : s.nextAnswer = .ok) :
    s.sendCommand b = { s with
      env := s.takeAnswer.env, tr := some (okTransport t false), trace := s.trace ++ okEvents t false [b]
      panel := s.panel.update b, seq := s.seq + 1 } := by
  cases t with
  | twoWire a =>
    simp [State.sendCommand, ht, State.i2cCommand, State.endCommand, State.i2cWrite, ha, State.takeAnswer, State.emit,
      okTransport, okEvents]
  | fourWire r =>
    have h1 : (s.spiOpen r false).nextAnswer = .ok := ha
    simp only [State.sendCommand, ht, State.spiCommand, State.spiWrite, h1, ha, State.spiClose, State.endCommand]
    simp [State.spiOpen, State.spiRelease, State.takeAnswer, State.emit, okTransport, okEvents]

/-- The environment after a failed transfer: on the 4-wire one draw has been made too (R176). -/
def failEnv (t : Transport) (s : State) : Env :=
  match t with
  | .twoWire _ => s.takeAnswer.env
  | .fourWire _ => s.takeAnswer.takeCsDraw.env

theorem sendCommand_fail {s : State} {t : Transport} (b : Byte) (ht : s.tr = some t) (ha : s.nextAnswer = .fail) :
    s.sendCommand b = { s with
      env := failEnv t s, tr := some (badTransport t false .fail s.nextCsDraw)
      panel := { s.panel with sync := false }, op := none, phase := s.phase.afterError
      result := some (.err (.transportError s.opName s.seq .cmd))
      trace := s.trace ++ badEvents t false [b] .fail s.nextCsDraw ++
        [.result s.opName (.err (.transportError s.opName s.seq .cmd))] } := by
  cases t with
  | twoWire a =>
    simp [State.sendCommand, ht, ha, State.i2cCommand, State.endCommand, State.i2cWrite, State.takeAnswer, State.emit,
      State.raise, State.opName, Panel.lose, badTransport, badEvents, failEnv]
  | fourWire r =>
    have h1 : (s.spiOpen r false).nextAnswer = .fail := ha
    have h2 : (s.spiOpen r false).takeAnswer.nextCsDraw = s.nextCsDraw := rfl
    have h3 : ∀ es, ((s.spiOpen r false).takeAnswer.emit es).nextCsDraw = s.nextCsDraw := fun _ => rfl
    simp only [State.sendCommand, ht, State.spiCommand, State.spiWrite, h1, ha, State.spiClose, h3, State.endCommand]
    cases hd : s.nextCsDraw <;>
      simp [State.spiOpen, State.spiRelease, State.takeAnswer, State.takeCsDraw, State.emit, State.raise, State.opName,
        Panel.lose, badTransport, badEvents, failEnv]

theorem sendCommand_hang {s : State} {t : Transport} (b : Byte) (ht : s.tr = some t) (ha : s.nextAnswer = .hang) :
    s.sendCommand b = { s with
      env := s.takeAnswer.env, tr := some (badTransport t false .hang s.nextCsDraw), op := none, phase := .hung
      trace := s.trace ++ badEvents t false [b] .hang s.nextCsDraw } := by
  cases t with
  | twoWire a =>
    simp [State.sendCommand, ht, ha, State.i2cCommand, State.endCommand, State.i2cWrite, State.takeAnswer, State.emit,
      State.hang, badTransport, badEvents]
  | fourWire r =>
    have h1 : (s.spiOpen r false).nextAnswer = .hang := ha
    simp only [State.sendCommand, ht, State.spiCommand, State.spiWrite, h1, ha, State.spiClose, State.endCommand]
    simp [State.spiOpen, State.takeAnswer, State.emit, State.hang, badTransport, badEvents]

/-! ## One data transfer (R172, R175, R176) -/

/-- `send_data(bs)` on a transport. -/
def State.dataTransfer (t : Transport) (bs : List Byte) (s : State) : State :=
  match t with
  | .twoWire a => s.i2cData a bs
  | .fourWire r => s.spiData r bs

theorem dataTransfer_ok {s : State} {t : Transport} (bs : List Byte) (ht : s.tr = some t) (ha : s.nextAnswer = .ok) :
    s.dataTransfer t bs = { s with
      env := s.takeAnswer.env, tr := some (okTransport t true), trace := s.trace ++ okEvents t true bs
      flushed := some bs, seq := s.seq + 1 } := by
  cases t with
  | twoWire a =>
    simp [State.dataTransfer, State.i2cData, State.endData, State.i2cWrite, ha, State.takeAnswer, State.emit,
      okTransport, okEvents, ht]
  | fourWire r =>
    have h1 : (s.spiOpen r true).nextAnswer = .ok := ha
    simp only [State.dataTransfer, State.spiData, State.spiWrite, h1, ha, State.spiClose, State.endData]
    simp [State.spiOpen, State.spiRelease, State.takeAnswer, State.emit, okTransport, okEvents]

theorem dataTransfer_fail {s : State} {t : Transport} (bs : List Byte) (ht : s.tr = some t) (ha : s.nextAnswer = .fail) :
    s.dataTransfer t bs = { s with
      env := failEnv t s, tr := some (badTransport t true .fail s.nextCsDraw)
      flushed := none, op := none, phase := s.phase.afterError
      result := some (.err (.transportError s.opName s.seq .data))
      trace := s.trace ++ badEvents t true bs .fail s.nextCsDraw ++
        [.result s.opName (.err (.transportError s.opName s.seq .data))] } := by
  cases t with
  | twoWire a =>
    simp [State.dataTransfer, ht, ha, State.i2cData, State.endData, State.i2cWrite, State.takeAnswer, State.emit,
      State.raise, State.opName, badTransport, badEvents, failEnv]
  | fourWire r =>
    have h1 : (s.spiOpen r true).nextAnswer = .fail := ha
    have h3 : ∀ es, ((s.spiOpen r true).takeAnswer.emit es).nextCsDraw = s.nextCsDraw := fun _ => rfl
    simp only [State.dataTransfer, State.spiData, State.spiWrite, h1, ha, State.spiClose, h3, State.endData]
    cases hd : s.nextCsDraw <;>
      simp [State.spiOpen, State.spiRelease, State.takeAnswer, State.takeCsDraw, State.emit, State.raise, State.opName,
        badTransport, badEvents, failEnv]

theorem dataTransfer_hang {s : State} {t : Transport} (bs : List Byte) (ht : s.tr = some t) (ha : s.nextAnswer = .hang) :
    s.dataTransfer t bs = { s with
      env := s.takeAnswer.env, tr := some (badTransport t true .hang s.nextCsDraw), op := none, phase := .hung
      trace := s.trace ++ badEvents t true bs .hang s.nextCsDraw } := by
  cases t with
  | twoWire a =>
    simp [State.dataTransfer, ht, ha, State.i2cData, State.endData, State.i2cWrite, State.takeAnswer, State.emit,
      State.hang, badTransport, badEvents]
  | fourWire r =>
    have h1 : (s.spiOpen r true).nextAnswer = .hang := ha
    simp only [State.dataTransfer, State.spiData, State.spiWrite, h1, ha, State.spiClose, State.endData]
    simp [State.spiOpen, State.takeAnswer, State.emit, State.hang, badTransport, badEvents]

/-! ## Frames -/

/-- The transport a transfer leaves: the same variant, with the same address or the same RES and rate (R42, R43). -/
def SameVariant (t t' : Transport) : Prop :=
  match t, t' with
  | .twoWire a, .twoWire a' => a = a'
  | .fourWire r, .fourWire r' => r'.res = r.res ∧ r'.rate = r.rate
  | .twoWire _, .fourWire _ => False
  | .fourWire _, .twoWire _ => False

theorem SameVariant.refl (t : Transport) : SameVariant t t := by cases t <;> simp [SameVariant]

theorem SameVariant.trans {a b c : Transport} (h : SameVariant a b) (h' : SameVariant b c) : SameVariant a c := by
  cases a <;> cases b <;> cases c <;> simp_all [SameVariant]

theorem sameVariant_twoWire {a : DevAddr} {t : Transport} (h : SameVariant (.twoWire a) t) : t = .twoWire a := by
  cases t with
  | twoWire b => simp only [SameVariant] at h; rw [h]
  | fourWire r => simp only [SameVariant] at h

theorem sameVariant_fourWire {r : FourWireRegs} {t : Transport} (h : SameVariant (.fourWire r) t) :
    ∃ r', t = .fourWire r' ∧ r'.res = r.res ∧ r'.rate = r.rate := by
  cases t with
  | twoWire b => simp only [SameVariant] at h
  | fourWire q => exact ⟨q, rfl, h⟩

theorem sameVariant_ok (t : Transport) (dc : Bool) : SameVariant t (okTransport t dc) := by
  cases t <;> simp [SameVariant, okTransport]

theorem sameVariant_bad (t : Transport) (dc : Bool) (a : Answer) (d : CsDraw) :
    SameVariant t (badTransport t dc a d) := by cases t <;> simp [SameVariant, badTransport]

/-- Everything a transfer may change (R171 to R176): never the program, the geometry, the framebuffer, the controller's
shadow fields, the mark, the constants or the host's queue. -/
def WireChange (s u : State) : Prop :=
  ∃ t t' env es, s.tr = some t ∧ SameVariant t t' ∧ env.requests = s.env.requests ∧
    u = { s with
      phase := u.phase, op := u.op, seq := u.seq, tr := some t', panel := u.panel, trace := s.trace ++ es
      result := u.result, flushed := u.flushed, env := env }

theorem WireChange.trans {s u v : State} (h : WireChange s u) (h' : WireChange u v) : WireChange s v := by
  obtain ⟨t, t1, env, es, ht, hv, he, hu⟩ := h
  obtain ⟨t2, t3, env', es', ht', hv', he', hv2⟩ := h'
  obtain rfl : t1 = t2 := by rw [hu] at ht'; simpa using ht'
  refine ⟨t, t3, env', es ++ es', ht, hv.trans hv', by rw [he', hu]; exact he, ?_⟩
  rw [hv2]
  simp only [State.mk.injEq, true_and, and_true]
  rw [hu]
  simp

theorem sendCommand_change {s : State} {t : Transport} (b : Byte) (ht : s.tr = some t) :
    WireChange s (s.sendCommand b) := by
  cases ha : s.nextAnswer with
  | ok => rw [sendCommand_ok b ht ha]; exact ⟨t, _, s.takeAnswer.env, okEvents t false [b], ht, sameVariant_ok t false, rfl, rfl⟩
  | fail =>
    rw [sendCommand_fail b ht ha]
    exact ⟨t, _, failEnv t s, badEvents t false [b] .fail s.nextCsDraw ++
      [.result s.opName (.err (.transportError s.opName s.seq .cmd))], ht, sameVariant_bad t false .fail s.nextCsDraw,
      by cases t <;> rfl, by simp only [List.append_assoc]⟩
  | hang => rw [sendCommand_hang b ht ha]; exact ⟨t, _, s.takeAnswer.env, badEvents t false [b] .hang s.nextCsDraw, ht, sameVariant_bad t false _ _, rfl, rfl⟩

theorem dataTransfer_change {s : State} {t : Transport} (bs : List Byte) (ht : s.tr = some t) :
    WireChange s (s.dataTransfer t bs) := by
  cases ha : s.nextAnswer with
  | ok => rw [dataTransfer_ok bs ht ha]; exact ⟨t, _, s.takeAnswer.env, okEvents t true bs, ht, sameVariant_ok t true, rfl, rfl⟩
  | fail =>
    rw [dataTransfer_fail bs ht ha]
    exact ⟨t, _, failEnv t s, badEvents t true bs .fail s.nextCsDraw ++
      [.result s.opName (.err (.transportError s.opName s.seq .data))], ht, sameVariant_bad t true .fail s.nextCsDraw,
      by cases t <;> rfl, by simp only [List.append_assoc]⟩
  | hang => rw [dataTransfer_hang bs ht ha]; exact ⟨t, _, s.takeAnswer.env, badEvents t true bs .hang s.nextCsDraw, ht, sameVariant_bad t true _ _, rfl, rfl⟩

theorem sendBytes_change {s : State} {t : Transport} (b : Byte) (bs : List Byte) (ht : s.tr = some t) :
    WireChange s (s.sendBytes (b :: bs)) := by
  induction bs generalizing s t b with
  | nil => simp only [State.sendBytes, ite_self]; exact sendCommand_change b ht
  | cons c cs ih =>
    rw [State.sendBytes]
    split
    · obtain ⟨_, t', _, _, _, _, _, hu⟩ := sendCommand_change b ht
      exact (sendCommand_change b ht).trans (ih (t := t') c (by rw [hu]))
    · exact sendCommand_change b ht

/-! ## Command bytes one after another (R105, R270) -/

/-- A run of command transfers that are all answered ok. -/
theorem sendBytes_ok {s : State} {t : Transport} (b : Byte) (bs : List Byte) (ht : s.tr = some t)
    (ha : AnswersOk (b :: bs).length s) :
    ∃ env, env.requests = s.env.requests ∧ s.sendBytes (b :: bs) = { s with
      env := env, tr := some (okTransport t false), trace := s.trace ++ okCommands t (b :: bs)
      panel := panelAfter (b :: bs) s.panel, seq := s.seq + (b :: bs).length } := by
  induction bs generalizing s t b with
  | nil =>
    refine ⟨s.takeAnswer.env, rfl, ?_⟩
    simp [State.sendBytes, answersOk_next ha, sendCommand_ok b ht (answersOk_next ha), panelAfter]
  | cons c cs ih =>
    have h1 := sendCommand_ok b ht (answersOk_next ha)
    obtain ⟨env, he, h⟩ := ih (s := s.sendCommand b) (t := okTransport t false) c (by rw [h1])
      (answersOk_congr (answersOk_take ha) (by rw [h1]))
    refine ⟨env, by rw [he, h1]; rfl, ?_⟩
    rw [State.sendBytes, if_pos (answersOk_next ha), h, h1]
    simp [panelAfter, okTransport_okTransport]
    omega

/-- The first byte not answered ok is the last that is sent (R173, R183). -/
theorem sendBytes_bad {s : State} (b : Byte) (bs : List Byte) (ha : s.nextAnswer ≠ .ok) :
    s.sendBytes (b :: bs) = s.sendCommand b := by simp [State.sendBytes, ha]

/-- Bytes answered ok, then the rest. -/
theorem sendBytes_append {s : State} {t : Transport} (as bs : List Byte) (ht : s.tr = some t)
    (ha : AnswersOk as.length s) :
    s.sendBytes (as ++ bs) = (s.sendBytes as).sendBytes bs := by
  induction as generalizing s t with
  | nil => rfl
  | cons a as ih =>
    have h1 := sendCommand_ok a ht (answersOk_next ha)
    simp only [List.cons_append, State.sendBytes, answersOk_next ha, if_true]
    exact ih (t := okTransport t false) (by rw [h1]) (answersOk_congr (answersOk_take ha) (by rw [h1]))

end Sys2Proof.Machine
end

