-- ==== Sys2Proof/Laws/Sequence.lean ====
section
/-! SUPPORT. The step: what each micro-operation, each issue and each step can do, said once, and runs of steps. -/

namespace Sys2Proof.Machine

/-! ## Phases -/

theorem halted_of_running {s : State} (h : s.phase.running = true) : s.halted = none := by
  unfold State.halted
  cases hp : s.phase <;> simp_all [Phase.running]

theorem halted_eq_none {s : State} : s.halted = none ↔ NotTerminal s := by
  unfold State.halted NotTerminal
  cases s.phase <;> simp

/-- A terminal phase that still answers with a next state is Failed, and the answer is the refusal (R339, log 2). -/
theorem halted_next {s t : State} (h : s.halted = some (.next t)) :
    s.phase = .failed ∧ t = s.refuse .transport (.notReady .transport .failed) := by
  unfold State.halted at h
  cases hp : s.phase <;> simp_all

theorem running_iff {p : Phase} : p.running = true ↔ p = .constructing ∨ p = .busy := by cases p <;> simp [Phase.running]

/-! ## Micro-operations -/

theorem runCmd_eq {s : State} {t : Transport} (b : Byte) (ht : s.tr = some t) (hh : s.halted = none) :
    runCmd b s = .next (s.sendCommand b) := by
  cases t <;> simp [runCmd, ht, exec, execI2cCommandFrame, execSpiCommandTransfer, hh, State.sendCommand]

theorem runData_eq {s : State} {t : Transport} {bs : List Byte} (hb : flushPayload s = some bs) (ht : s.tr = some t)
    (hh : s.halted = none) : runData s = .next (s.dataTransfer t bs) := by
  cases t <;> simp [runData, hb, ht, exec, execI2cDataFrame, execSpiDataTransfer, hh, State.dataTransfer]

theorem flushPayload_eq {s : State} {w p : Nat} {m : Memory} (hw : s.width = some w) (hp : s.pages = some p)
    (hm : s.fb = some m) : flushPayload s = some (m.bytes (p * w)) := by simp [flushPayload, hw, hp, hm]

theorem runDraw_eq {s : State} {w h p : Nat} {m : Memory} (d : DrawOp) (hw : s.width = some w) (hh : s.height = some h)
    (hp : s.pages = some p) (hm : s.fb = some m) : runDraw d s = .next { s with
      fb := some (d.run s.rom w h p m), trace := s.trace ++ d.events s.rom, seq := s.seq + 1 } := by
  simp [runDraw, hw, hh, hp, hm]

/-- Everything a micro-operation that goes on can do. -/
theorem runMicro_cases {m : MicroOp} {s u : State} (hh : s.halted = none) (h : runMicro m s = .next u) :
    (∃ b t, m = .cmd b ∧ s.tr = some t ∧ u = s.sendCommand b) ∨
    (∃ w p g t, m = .data ∧ s.width = some w ∧ s.pages = some p ∧ s.fb = some g ∧ s.tr = some t ∧
      u = s.dataTransfer t (g.bytes (p * w))) ∨
    (∃ l v r, m = .line l v ∧ s.tr = some (.fourWire r) ∧ u = (s.driveLine r l v).advance) ∨
    (∃ n, m = .sleep n ∧ u = (s.emit [.sleep n]).advance) ∨
    (∃ w h, m = .checkGeometry w h ∧ u = runCheckGeometry w h s) ∨
    (∃ w h e, m = .alloc w h e ∧ u = runAlloc w h e s) ∨
    (∃ d w h p g, m = .draw d ∧ s.width = some w ∧ s.height = some h ∧ s.pages = some p ∧ s.fb = some g ∧
      u = { s with
        fb := some (d.run s.rom w h p g), trace := s.trace ++ d.events s.rom, seq := s.seq + 1 }) ∨
    (∃ c, m = .commit c ∧ u = s.advance) := by
  cases m with
  | cmd b =>
    cases ht : s.tr with
    | none => simp [runMicro, runCmd, ht] at h
    | some t =>
      rw [runMicro, runCmd_eq b ht hh] at h
      simp only [Host.Outcome.next.injEq] at h
      exact .inl ⟨b, t, rfl, rfl, h.symm⟩
  | data =>
    right; left
    cases hb : flushPayload s with
    | none => simp [runMicro, runData, hb] at h
    | some bs =>
      cases ht : s.tr with
      | none => simp [runMicro, runData, hb, ht] at h
      | some t =>
        rw [runMicro, runData_eq hb ht hh] at h
        simp only [Host.Outcome.next.injEq] at h
        unfold flushPayload at hb
        split at hb
        · rename_i w p g hw hp hg
          simp only [Option.some.injEq] at hb
          subst hb
          exact ⟨w, p, g, t, rfl, hw, hp, hg, rfl, h.symm⟩
        · simp at hb
  | line l v =>
    simp only [runMicro, runLine] at h
    split at h <;> simp only [Host.Outcome.next.injEq, reduceCtorEq] at h
    rename_i r ht
    exact .inr (.inr (.inl ⟨l, v, r, rfl, ht, h.symm⟩))
  | sleep n => simp only [runMicro, Host.Outcome.next.injEq] at h; simp [h]
  | checkGeometry w h' => simp only [runMicro, Host.Outcome.next.injEq] at h; simp [h]
  | alloc w h' e =>
    simp only [runMicro, Host.Outcome.next.injEq] at h
    exact .inr (.inr (.inr (.inr (.inr (.inl ⟨w, h', e, rfl, h.symm⟩)))))
  | commit c => simp only [runMicro, Host.Outcome.next.injEq] at h; simp [h]
  | draw d =>
    simp only [runMicro, runDraw] at h
    split at h <;> simp only [Host.Outcome.next.injEq, reduceCtorEq] at h
    rename_i w h' p g hw hh' hp hg
    exact .inr (.inr (.inr (.inr (.inr (.inr (.inl ⟨d, w, h', p, g, rfl, hw, hh', hp, hg, h.symm⟩))))))

/-! ## The completion check -/

theorem finish_idle {s : State} (h : s.phase.running = false) : s.finish = s := by simp [State.finish, h]

theorem finish_mid {s : State} (h : s.seq ≠ s.prog.length) : s.finish = s := by simp [State.finish, h]

theorem finish_end {s : State} (h : s.phase.running = true) (he : s.seq = s.prog.length) : s.finish = s.complete := by
  simp [State.finish, h, he]

/-! ## One step -/

theorem step_running {s t : State} {m : MicroOp} (h : s.phase.running = true) (hm : s.prog[s.seq]? = some m)
    (ht : runMicro m s = .next t) : step s = .next t.finish := by
  rcases running_iff.mp h with h | h <;> simp [step, stepBlock, h, sequencerStep, hm, ht, thenFinish]

/-- Everything a step that goes on can do (R34, R200; log 1 for the request). -/
theorem step_cases {s t : State} (h : step s = .next t) :
    ((s.phase = .uninit ∨ s.phase = .ready ∨ s.phase = .failed) ∧
      ((s.env.requests = [] ∧ t = s) ∨
        ∃ r rest i, s.env.requests = r :: rest ∧ decode r.fmt r.bytes = .ok i ∧
          exec i { s with env := { s.env with requests := rest } } = .next t)) ∨
    (s.phase.running = true ∧
      ((∃ m u, s.prog[s.seq]? = some m ∧ runMicro m s = .next u ∧ t = u.finish) ∨
        (s.seq = s.prog.length ∧ t = s.complete))) := by
  have take : takeRequest s = .next t → (s.env.requests = [] ∧ t = s) ∨
      ∃ r rest i, s.env.requests = r :: rest ∧ decode r.fmt r.bytes = .ok i ∧
        exec i { s with env := { s.env with requests := rest } } = .next t := by
    intro h
    unfold takeRequest at h
    split at h
    · simp only [Host.Outcome.next.injEq] at h; exact .inl ⟨‹_›, h.symm⟩
    · split at h
      · exact .inr ⟨_, _, _, ‹_›, ‹_›, h⟩
      · simp at h
  have seq : sequencerStep s = .next t → (∃ m u, s.prog[s.seq]? = some m ∧ runMicro m s = .next u ∧ t = u.finish) ∨
      (s.seq = s.prog.length ∧ t = s.complete) := by
    intro h
    unfold sequencerStep at h
    split at h
    · rename_i m hm
      left
      cases hu : runMicro m s <;> simp [hu, thenFinish] at h
      exact ⟨m, _, hm, hu, h.symm⟩
    · split at h <;> simp at h
      exact .inr ⟨‹_›, h.symm⟩
  unfold step stepBlock at h
  split at h <;> simp_all [Phase.running]

/-! ## Issue -/

/-- Everything an issue other than construct's that goes on can do (R218, R326). -/
theorem issueReady_cases {i : Instr} {prog : Option (List MicroOp)} {s t : State} (h : issueReady i prog s = .next t) :
    ((s.phase = .uninit ∨ s.phase = .failed) ∧ t = s.refuse (opNameOf i) (.notReady (opNameOf i) s.phase)) ∨
    (s.phase = .ready ∧ ∃ o, illegalOperand i = some o ∧ t = s.refuse (opNameOf i) (.invalidOperand (opNameOf i) o)) ∨
    (s.phase = .ready ∧ illegalOperand i = none ∧ ∃ p, prog = some p ∧ t = s.issue i .busy p) := by
  unfold issueReady at h
  split at h <;> simp_all
  · split at h
    · simp_all
    · split at h <;> simp_all

theorem issueReady_ready {i : Instr} {p : List MicroOp} {s : State} (hp : s.phase = .ready)
    (hi : illegalOperand i = none) : issueReady i (some p) s = .next (s.issue i .busy p) := by simp [issueReady, hp, hi]

/-- Every host operation but construct is issued with its expansion (R218). -/
theorem exec_host {i : Instr} (s : State) (hf : i.format = .hostRecord) (hc : isConstruct i = false) :
    exec i s = issueReady i (expansion i s) s := by
  cases i
  case construct => simp [isConstruct, opNameOf] at hc
  all_goals first | rfl | exact absurd hf (by simp [Instr.format])

/-- Everything a host operation that goes on can do: a refusal, construct's issue, another operation's issue (R201, R218,
R221, R324). -/
theorem exec_host_cases {i : Instr} {s t : State} (hf : i.format = .hostRecord) (h : exec i s = .next t) :
    ((s.phase = .uninit ∨ s.phase = .ready ∨ s.phase = .failed) ∧ ∃ e, t = s.refuse (opNameOf i) e) ∨
    (s.phase = .uninit ∧ ∃ w h e k, i = .construct w h e k ∧
      t = State.issue i .constructing (constructProgram s.cfg.resActive w h e k)
        { s with tr := some (newTransport s.cfg k) }) ∨
    (s.phase = .ready ∧ isConstruct i = false ∧ illegalOperand i = none ∧
      ∃ p, expansion i s = some p ∧ t = s.issue i .busy p) := by
  cases hc : isConstruct i with
  | false =>
    rw [exec_host s hf hc] at h
    rcases issueReady_cases h with ⟨hp | hp, rfl⟩ | ⟨hp, o, -, rfl⟩ | ⟨hp, hi, p, he, rfl⟩
    · exact .inl ⟨.inl hp, _, rfl⟩
    · exact .inl ⟨.inr (.inr hp), _, rfl⟩
    · exact .inl ⟨.inr (.inl hp), _, rfl⟩
    · exact .inr (.inr ⟨hp, rfl, hi, p, he, rfl⟩)
  | true =>
    cases i <;> simp [isConstruct, opNameOf] at hc
    rename_i w h' e k
    simp only [exec, execConstruct] at h
    split at h <;> simp only [Host.Outcome.next.injEq, reduceCtorEq] at h
    · exact .inr (.inl ⟨‹_›, w, h', e, k, rfl, h.symm⟩)
    · exact .inl ⟨.inr (.inl ‹_›), _, h.symm⟩
    · exact .inl ⟨.inr (.inr ‹_›), _, h.symm⟩

/-- In a terminal phase every transfer is answered alike (R339). -/
theorem exec_wire_halted {i : Instr} {s : State} {out : Host.Outcome State Fault Refusal} (hf : i.format ≠ .hostRecord)
    (h : s.halted = some out) : exec i s = out := by
  have group : ∀ bs, sendGroup bs s = out := fun bs => by simp [sendGroup, h]
  cases i
  case i2cCommandFrame b => simp [exec, execI2cCommandFrame, h]
  case spiCommandTransfer b => simp [exec, execSpiCommandTransfer, h]
  case i2cDataFrame bs => simp [exec, execI2cDataFrame, h]
  case spiDataTransfer bs => simp [exec, execSpiDataTransfer, h]
  all_goals first | exact absurd rfl hf | exact group _

/-- Everything a wire command or a frame that goes on can do (R105, R170; R339 and log 2 for Failed). -/
theorem exec_wire_cases {i : Instr} {s t : State} (hf : i.format ≠ .hostRecord) (h : exec i s = .next t) :
    (s.phase = .failed ∧ t = s.refuse .transport (.notReady .transport .failed)) ∨
    (s.halted = none ∧ ∃ tr, s.tr = some tr ∧
      ((∃ b bs, t = s.sendBytes (b :: bs)) ∨ ∃ bs, t = s.dataTransfer tr bs)) := by
  cases hh : s.halted with
  | some out => exact .inl (halted_next (by rw [hh, ← exec_wire_halted hf hh, h]))
  | none =>
    refine .inr ⟨rfl, ?_⟩
    have group : ∀ b bs, sendGroup (b :: bs) s = .next t → ∃ tr, s.tr = some tr ∧
        ((∃ b bs, t = s.sendBytes (b :: bs)) ∨ ∃ bs, t = s.dataTransfer tr bs) := by
      intro b bs h
      simp only [sendGroup, hh] at h
      split at h <;> simp at h
      exact ⟨_, ‹_›, .inl ⟨b, bs, h.symm⟩⟩
    cases i
    case i2cCommandFrame b =>
      simp only [exec, execI2cCommandFrame, hh] at h
      split at h <;> simp at h
      rename_i a ht
      exact ⟨_, ht, .inl ⟨b, [], by simp [State.sendBytes, State.sendCommand, ht, h]⟩⟩
    case spiCommandTransfer b =>
      simp only [exec, execSpiCommandTransfer, hh] at h
      split at h <;> simp at h
      rename_i a ht
      exact ⟨_, ht, .inl ⟨b, [], by simp [State.sendBytes, State.sendCommand, ht, h]⟩⟩
    case i2cDataFrame bs =>
      simp only [exec, execI2cDataFrame, hh] at h
      split at h <;> simp at h
      exact ⟨.twoWire _, ‹_›, .inr ⟨bs, h.symm⟩⟩
    case spiDataTransfer bs =>
      simp only [exec, execSpiDataTransfer, hh] at h
      split at h <;> simp at h
      exact ⟨.fourWire _, ‹_›, .inr ⟨bs, h.symm⟩⟩
    all_goals first | exact absurd rfl hf | exact group _ _ h

/-! ## Runs -/

theorem runSteps_add (m n : Nat) (s : State) :
    runSteps (m + n) s = match runSteps m s with
      | .next t => runSteps n t
      | .fault f => .fault f
      | .refused r => .refused r := by
  induction m generalizing s with
  | zero => simp [runSteps]
  | succ m ih =>
    rw [Nat.add_right_comm, runSteps, runSteps]
    cases step s with
    | next t => exact ih t
    | fault f => rfl
    | refused r => rfl

theorem runSteps_one_iff {s t : State} : runSteps 1 s = .next t ↔ step s = .next t := by
  simp only [runSteps]
  cases step s <;> simp

theorem runSteps_one {s t : State} (h : step s = .next t) : runSteps 1 s = .next t := runSteps_one_iff.mpr h

theorem runSteps_trans {m n : Nat} {s t u : State} (h1 : runSteps m s = .next t) (h2 : runSteps n t = .next u) :
    runSteps (m + n) s = .next u := by rw [runSteps_add, h1]; exact h2

/-- A run of CMD steps that are all answered ok, with a step still to follow. -/
theorem runSteps_cmds {s : State} {t : Transport} {rest : List MicroOp} {later : List Answer} (b : Byte)
    (bs : List Byte) (hr : s.phase.running = true) (hp : s.prog.drop s.seq = cmds (b :: bs) ++ rest) (hn : rest ≠ [])
    (ht : s.tr = some t) (ha : s.env.answers = List.replicate (b :: bs).length .ok ++ later) :
    ∃ env, env.requests = s.env.requests ∧ env.answers = later ∧
      runSteps (b :: bs).length s = .next { s with
        env := env, tr := some (okTransport t false), trace := s.trace ++ okCommands t (b :: bs)
        panel := panelAfter (b :: bs) s.panel, seq := s.seq + (b :: bs).length } := by
  induction bs generalizing s t b with
  | nil =>
    have ho : s.nextAnswer = .ok := by simp [State.nextAnswer, ha]
    have hg : s.prog[s.seq]? = some (.cmd b) := by
      have := congrArg (·[0]?) hp
      simpa [cmds] using this
    have hl : s.prog.length ≠ s.seq + 1 := by
      have h1 := congrArg List.length hp
      have h2 : rest.length ≠ 0 := by simpa using hn
      simp [cmds] at h1
      omega
    refine ⟨s.takeAnswer.env, rfl, by simp [State.takeAnswer, ha], runSteps_one ?_⟩
    rw [step_running hr hg (runCmd_eq b ht (halted_of_running hr)), sendCommand_ok b ht ho, finish_mid (by simpa using hl.symm)]
    simp [okCommands, panelAfter]
  | cons c cs ih =>
    have ho : s.nextAnswer = .ok := by simp [State.nextAnswer, ha, List.replicate_succ]
    have hg : s.prog[s.seq]? = some (.cmd b) := by
      have := congrArg (·[0]?) hp
      simpa [cmds] using this
    have hl : s.prog.length ≠ s.seq + 1 := by
      have := congrArg List.length hp
      simp [cmds] at this
      omega
    have h1 : step s = .next (s.sendCommand b) := by
      rw [step_running hr hg (runCmd_eq b ht (halted_of_running hr)), finish_mid]
      rw [sendCommand_ok b ht ho]
      simpa using hl.symm
    have h2 := sendCommand_ok b ht ho
    obtain ⟨env, he, hl', h⟩ := ih (s := s.sendCommand b) (t := okTransport t false) c (by rw [h2]; exact hr)
      (by
        have := congrArg (List.drop 1) hp
        rw [List.drop_drop] at this
        rw [h2]
        simpa [cmds] using this) (by rw [h2])
      (by rw [h2]; simp [State.takeAnswer, ha, List.replicate_succ])
    refine ⟨env, by rw [he, h2]; rfl, hl', ?_⟩
    rw [List.length_cons, Nat.add_comm, runSteps_add, runSteps_one h1]
    simp only
    rw [h, h2]
    simp [panelAfter]
    omega

end Sys2Proof.Machine
end

