-- ==== Sys2Proof/Laws/Invariant.lean ====
section
/-! SUPPORT. The parts of the invariant: what `remaining`, `atEnd`, `runnable` and the framebuffer's form do under the
updates a step makes. -/

namespace Sys2Proof.Machine

/-- A drawing step keeps the framebuffer's canonical form (R41). -/
theorem wf_run (rom : GlyphRom) {w h : Nat} (d : DrawOp) {m : Memory} (h8 : 8 ∣ h)
    (hm : Memory.wf (h / 8 * w) m = true) : Memory.wf (h / 8 * w) (d.run rom w h (h / 8) m) = true := by
  cases d with
  | fill v => exact Memory.wf_filled _ _
  | pixel x y v => exact wf_drawPixels _ h8 hm
  | blit src x y bw bh => exact wf_drawPixels _ h8 hm
  | text str col row => exact wf_drawPixels _ h8 hm
  | glyph c index col row => exact wf_drawPixels _ h8 hm
  | idle => exact wf_drawPixels _ h8 hm

/-! ## The rest of a program -/

@[simp] theorem cmdBytes_append (ms ns : List MicroOp) : cmdBytes (ms ++ ns) = cmdBytes ms ++ cmdBytes ns := by
  induction ms with
  | nil => rfl
  | cons m ms ih => cases m <;> simp [cmdBytes, ih]

@[simp] theorem cmdBytes_cmds (bs : List Byte) : cmdBytes (cmds bs) = bs := by
  induction bs with
  | nil => rfl
  | cons b bs ih => exact congrArg (b :: ·) ih

theorem atEnd_running {s : State} (h : s.phase.running = true) : s.atEnd = s.commit (commitOf s.prog) := by
  simp [State.atEnd, h]

theorem atEnd_idle {s : State} (h : s.phase.running = false) : s.atEnd = s := by simp [State.atEnd, h]

theorem remaining_running {s : State} (h : s.phase.running = true) : s.remaining = s.prog.drop s.seq := by
  simp [State.remaining, h]

theorem remaining_idle {s : State} (h : s.phase.running = false) : s.remaining = [] := by simp [State.remaining, h]

/-- The step about to run is the head of what remains. -/
theorem drop_of_getElem? {α : Type} {xs : List α} {n : Nat} {a : α} (h : xs[n]? = some a) :
    xs.drop n = a :: xs.drop (n + 1) := by
  obtain ⟨hn, rfl⟩ := List.getElem?_eq_some_iff.mp h
  exact List.drop_eq_getElem_cons hn

/-! ## Programs that can run -/

theorem runnable_congr {t t' : Transport} (h : SameVariant t t') (ms : List MicroOp) (b : Bool) :
    runnable t' b ms = runnable t b ms := by
  induction ms generalizing b with
  | nil => rfl
  | cons m ms ih =>
    cases m <;> simp only [runnable, ih]
    cases t <;> cases t' <;> simp_all [SameVariant]

@[simp] theorem runnable_cmds_append (t : Transport) (b : Bool) (bs : List Byte) (ms : List MicroOp) :
    runnable t b (cmds bs ++ ms) = runnable t b ms := by
  induction bs with
  | nil => rfl
  | cons c cs ih => exact ih

/-! ## Programs by operation -/

/-- The micro-operations of a program other than construct's (R32). -/
def plainOp : MicroOp → Bool
  | .cmd _ | .data | .draw _ | .commit _ => true
  | .line _ _ | .sleep _ | .checkGeometry _ _ | .alloc _ _ _ => false

/-- The program of an operation other than construct: only these, DATA only as the last of a program without a COMMIT,
never empty, and it can run on a constructed block. -/
theorem expansion_plain {i : Instr} {s : State} {p : List MicroOp} (hc : isConstruct i = false)
    (h : expansion i s = some p) : p.all plainOp = true ∧
    (∀ n rest, p.drop n = .data :: rest → rest = [] ∧ commitOf p = {}) ∧ 0 < p.length ∧ (∀ t, runnable t true p = true) := by
  cases i
  case construct => simp [isConstruct, opNameOf] at hc
  case flush =>
    simp only [expansion, flushProgramOf] at h
    split at h <;> simp at h
    subst h
    refine ⟨rfl, ?_, by simp [flushProgram, cmds, windowBytes], fun t => rfl⟩
    intro n rest hn
    unfold flushProgram cmds windowBytes at hn
    match n with
    | 0 | 1 | 2 | 3 | 4 | 5 => simp at hn
    | 6 => exact ⟨by simpa using hn.symm, rfl⟩
    | n + 7 => simp at hn
  case initSequence =>
    simp only [expansion, initProgramOf] at h
    split at h <;> simp at h
    rename_i hh e _ _
    subst h
    refine ⟨rfl, ?_, by simp [initProgram], fun t => rfl⟩
    intro n rest hn
    have : MicroOp.data ∈ (initProgram hh e).drop n := by rw [hn]; simp
    have := List.mem_of_mem_drop this
    simp [initProgram, cmds] at this
  case drawText str col row =>
    simp only [expansion, Option.some.injEq] at h
    subst h
    split
    all_goals
      refine ⟨rfl, ?_, by simp, fun t => rfl⟩
      intro n rest hn
      match n with
      | 0 => simp at hn
      | n + 1 => simp at hn
  case drawWideGlyphs str col row =>
    simp only [expansion, Option.some.injEq] at h
    subst h
    have gen : ∀ m ∈ glyphProgram str col row, ∃ d, m = .draw d := by
      unfold glyphProgram
      intro m hm
      split at hm
      · simp at hm; exact ⟨_, hm⟩
      · generalize 0 = k at hm
        clear * - hm
        induction str generalizing k with
        | nil => simp [glyphSteps] at hm
        | cons c cs ih =>
          simp only [glyphSteps, List.mem_cons] at hm
          rcases hm with rfl | hm
          · exact ⟨_, rfl⟩
          · exact ih _ hm
    refine ⟨?_, ?_, ?_, ?_⟩
    · rw [List.all_eq_true]; intro m hm; obtain ⟨d, rfl⟩ := gen m hm; rfl
    · intro n rest hn
      have : MicroOp.data ∈ (glyphProgram str col row).drop n := by rw [hn]; simp
      obtain ⟨d, hd⟩ := gen _ (List.mem_of_mem_drop this)
      cases hd
    · unfold glyphProgram; split
      · decide
      · cases str <;> simp_all [glyphSteps]
    · intro t
      generalize glyphProgram str col row = p at gen
      induction p with
      | nil => rfl
      | cons m ms ih =>
        obtain ⟨d, rfl⟩ := gen m (by simp)
        simp [runnable]
        exact ih (fun m hm => gen m (by simp [hm]))
  all_goals simp only [expansion, Option.some.injEq, reduceCtorEq] at h
  all_goals
    subst h
    refine ⟨rfl, ?_, by simp, fun t => rfl⟩
    intro n rest hn
    match n with
    | 0 | 1 | 2 => simp at hn
    | n + 3 => simp at hn

/-- An operation that issue does not refuse is well-formed (R102, R103). -/
theorem wf_of_legal {i : Instr} (hf : i.format = .hostRecord) (hi : illegalOperand i = none) : i.wf = true := by
  cases i <;> simp_all [illegalOperand, Instr.wf, Instr.format] <;> omega

theorem isConstruct_iff {i : Instr} (h : isConstruct i = true) : ∃ w hh e k, i = .construct w hh e k := by
  cases i <;> simp [isConstruct, opNameOf] at h
  exact ⟨_, _, _, _, rfl⟩

/-- While a line setup is pending the step about to run is a line of it, the third being chip-select (R177). -/
theorem line_of_setupPending {s : State} {m : MicroOp} (h : SetupPending s) (hm : s.prog[s.seq]? = some m) :
    ∃ l v, m = .line l v ∧ (s.seq = 2 → l = .cs) := by
  obtain ⟨-, hs, dc, res, cs, hp⟩ := h
  have hg : (s.prog.take 3)[s.seq]? = some m := by rw [List.getElem?_take_of_lt hs]; exact hm
  rw [hp] at hg
  match hq : s.seq, hs with
  | 0, _ | 1, _ | 2, _ => rw [hq] at hg; simp at hg; exact ⟨_, _, hg.symm, by simp⟩

/-- A step that drives no line finds the transport set up. -/
theorem fits_of_step {s : State} {m : MicroOp} {t : Transport} (hw : TransportFits s.cfg t ∨ SetupPending s)
    (hm : s.prog[s.seq]? = some m) (hl : ∀ l v, m ≠ .line l v) : TransportFits s.cfg t := by
  rcases hw with h | h
  · exact h
  · obtain ⟨l, v, e, -⟩ := line_of_setupPending h hm; exact absurd e (hl l v)

/-- After a line's step the rate is loaded, or the setup is still pending. -/
theorem fits_of_line {s : State} {r : FourWireRegs} {l : Line} {v : Bool}
    (hw : TransportFits s.cfg (.fourWire r) ∨ SetupPending s) (hm : s.prog[s.seq]? = some (.line l v)) :
    TransportFits s.cfg (.fourWire (r.afterLine s.cfg l v)) ∨ SetupPending s.advance := by
  by_cases hl : l = .cs
  · subst hl; exact .inl rfl
  · rcases hw with h | h
    · left; cases l <;> first | exact h | exact absurd rfl hl
    · obtain ⟨l', v', e, h2⟩ := line_of_setupPending h hm
      obtain ⟨hp, hs, hx⟩ := h
      refine .inr ⟨hp, ?_, hx⟩
      cases e
      have : s.seq ≠ 2 := fun hq => hl (h2 hq)
      simp only [State.advance]; omega

/-- Construct's issue sets up the transport's constants, but for a rate that its line setup loads (R177, R180). -/
theorem newTransport_fits (cfg : Params) (s : State) (i : Instr) (w h : Int) (e : Bool) (k : TransportKind) :
    TransportFits cfg (newTransport cfg k) ∨
      SetupPending (s.issue i .constructing (constructProgram cfg.resActive w h e k)) := by
  cases k
  · exact .inl rfl
  · exact .inr ⟨rfl, by simp [State.issue], _, _, _, rfl⟩

/-- Construct's program can run from power-up (R201). -/
theorem runnable_construct (cfg : Params) (w h : Int) (e : Bool) (k : TransportKind) :
    runnable (newTransport cfg k) false (constructProgram cfg.resActive w h e k) = true := by
  unfold constructProgram initProgram flushProgram
  cases k <;>
    simp only [setupProgram, newTransport, undrivenFourWire, List.nil_append, List.cons_append, List.append_assoc, runnable,
      Bool.and_true, Bool.true_and, runnable_cmds_append, Bool.not_false] <;>
    split <;> simp_all

/-- A framebuffer exists in a constructed block only (R51). -/
theorem built_isSome {s : State} (hg : Built s ∨ Unbuilt s) (h : s.fb.isSome = true) : Built s := by
  rcases hg with hg | hg
  · exact hg
  · rw [hg.2.2.2.2] at h; cases h

theorem fits_same {cfg : Params} {t t' : Transport} (h : SameVariant t t') (hf : TransportFits cfg t) :
    TransportFits cfg t' := by
  cases t <;> cases t' <;> simp_all [SameVariant, TransportFits]

end Sys2Proof.Machine
end

