-- ==== Sys2Proof/Laws/PerInstr.lean ====
section
/-! SUPPORT. The family Domain: the operand check at issue (R324) and well-formedness (R102) are one check. -/

namespace Sys2Proof.Laws.Domain

open Sys2Proof.Machine

/-- The block finds an operand outside its domain exactly when the instruction is not well-formed. -/
def Statement (i : Instr) : Prop := illegalOperand i = none ↔ i.wf = true

theorem construct (w : Int) (h : Int) (e : Bool) (t : TransportKind) : Statement (.construct w h e t) := by simp [Statement, illegalOperand, Instr.wf]

theorem initSequence : Statement .initSequence := by simp [Statement, illegalOperand, Instr.wf]

theorem flush : Statement .flush := by simp [Statement, illegalOperand, Instr.wf]

theorem powerOn : Statement .powerOn := by simp [Statement, illegalOperand, Instr.wf]

theorem powerOff : Statement .powerOff := by simp [Statement, illegalOperand, Instr.wf]

theorem setContrast (level : Int) : Statement (.setContrast level) := by
  simp [Statement, illegalOperand, Instr.wf]

theorem setInverted (flag : Int) : Statement (.setInverted flag) := by
  simp [Statement, illegalOperand, Instr.wf, isBitOperand]; omega

theorem setPixel (x : Int) (y : Int) (value : Int) : Statement (.setPixel x y value) := by
  simp [Statement, illegalOperand, Instr.wf, isBitOperand]; omega

theorem blit (src : List Byte) (x : Int) (y : Int) (bw : Int) (bh : Int) : Statement (.blit src x y bw bh) := by
  simp only [Statement, illegalOperand, Instr.wf, blitSourceLongEnough]
  split <;> split <;> simp <;> omega

theorem clear (value : Int) : Statement (.clear value) := by
  simp [Statement, illegalOperand, Instr.wf, isBitOperand]; omega

theorem drawText (str : List Char) (col : Int) (row : Int) : Statement (.drawText str col row) := by simp [Statement, illegalOperand, Instr.wf]

theorem drawWideGlyphs (str : List Char) (col : Int) (row : Int) : Statement (.drawWideGlyphs str col row) := by simp [Statement, illegalOperand, Instr.wf]

theorem cmdDisp (on : Bool) : Statement (.cmdDisp on) := by simp [Statement, illegalOperand, Instr.wf]

theorem cmdMemAddr (a1 : Byte) : Statement (.cmdMemAddr a1) := by simp [Statement, illegalOperand, Instr.wf]

theorem cmdDispStartLine : Statement .cmdDispStartLine := by simp [Statement, illegalOperand, Instr.wf]

theorem cmdSegRemap (remap : Bool) : Statement (.cmdSegRemap remap) := by simp [Statement, illegalOperand, Instr.wf]

theorem cmdMuxRatio (a1 : Byte) : Statement (.cmdMuxRatio a1) := by simp [Statement, illegalOperand, Instr.wf]

theorem cmdComOutDir (rev : Bool) : Statement (.cmdComOutDir rev) := by simp [Statement, illegalOperand, Instr.wf]

theorem cmdDispOffset (a1 : Byte) : Statement (.cmdDispOffset a1) := by simp [Statement, illegalOperand, Instr.wf]

theorem cmdComPinCfg (a1 : Byte) : Statement (.cmdComPinCfg a1) := by simp [Statement, illegalOperand, Instr.wf]

theorem cmdDispClkDiv (a1 : Byte) : Statement (.cmdDispClkDiv a1) := by simp [Statement, illegalOperand, Instr.wf]

theorem cmdPrecharge (a1 : Byte) : Statement (.cmdPrecharge a1) := by simp [Statement, illegalOperand, Instr.wf]

theorem cmdVcomDesel (a1 : Byte) : Statement (.cmdVcomDesel a1) := by simp [Statement, illegalOperand, Instr.wf]

theorem cmdContrast (a1 : Byte) : Statement (.cmdContrast a1) := by simp [Statement, illegalOperand, Instr.wf]

theorem cmdEntireOn : Statement .cmdEntireOn := by simp [Statement, illegalOperand, Instr.wf]

theorem cmdNormInv (inv : Bool) : Statement (.cmdNormInv inv) := by simp [Statement, illegalOperand, Instr.wf]

theorem cmdChargePump (a1 : Byte) : Statement (.cmdChargePump a1) := by simp [Statement, illegalOperand, Instr.wf]

theorem cmdColAddr (a1 : Byte) (a2 : Byte) : Statement (.cmdColAddr a1 a2) := by simp [Statement, illegalOperand, Instr.wf]

theorem cmdPageAddr (a1 : Byte) (a2 : Byte) : Statement (.cmdPageAddr a1 a2) := by simp [Statement, illegalOperand, Instr.wf]

theorem i2cCommandFrame (b : Byte) : Statement (.i2cCommandFrame b) := by simp [Statement, illegalOperand, Instr.wf]

theorem i2cDataFrame (bs : List Byte) : Statement (.i2cDataFrame bs) := by simp [Statement, illegalOperand, Instr.wf]

theorem spiCommandTransfer (b : Byte) : Statement (.spiCommandTransfer b) := by simp [Statement, illegalOperand, Instr.wf]

theorem spiDataTransfer (bs : List Byte) : Statement (.spiDataTransfer bs) := by simp [Statement, illegalOperand, Instr.wf]

end Sys2Proof.Laws.Domain
end

