-- ==== Sys2Proof/Laws/Runs.lean ====
section
/-! SUPPORT. Whole operations as runs of steps: one DRAW step, command bytes and a COMMIT, and the flush program. -/

namespace Sys2Proof.Machine

/-- An operation of one DRAW step: its issue, and the step that completes it (R32, R34, R218). -/
theorem exec_oneDraw {s : State} {i : Instr} {d : DrawOp} {w h p : Nat} {m : Memory} (hp : s.phase = .ready)
    (hi : illegalOperand i = none) (hf : i.format = .hostRecord) (hc : isConstruct i = false)
    (he : expansion i s = some [.draw d]) (hw : s.width = some w) (hh : s.height = some h) (hpg : s.pages = some p)
    (hm : s.fb = some m) :
    exec i s = .next (s.issue i .busy [.draw d]) ∧
    step (s.issue i .busy [.draw d]) = .next { s with
      phase := .ready, op := none, prog := [.draw d], seq := 1, fb := some (d.run s.rom w h p m), result := some .ok
      trace := s.trace ++ d.events s.rom ++ [.result (opNameOf i) .ok] } := by
  refine ⟨?_, ?_⟩
  · rw [exec_host s hf hc, he]; exact issueReady_ready hp hi
  · rw [step_running (m := .draw d) (by simp [Phase.running]) (by simp)
      (by rw [runMicro]; exact runDraw_eq d hw hh hpg hm)]
    rw [finish_end (by simp [Phase.running]) (by simp)]
    simp [State.complete, State.opName, State.issue, State.commit, commitOf]

/-- Command bytes all answered ok, then the COMMIT that ends the operation. -/
theorem runSteps_cmds_commit {s : State} {t : Transport} {u : Commit} (i : Instr) (b : Byte) (bs : List Byte)
    (hr : s.phase.running = true) (ho : s.op = some i) (hp : s.prog.drop s.seq = cmds (b :: bs) ++ [.commit u])
    (hu : commitOf s.prog = u) (ht : s.tr = some t) (ha : AnswersOk (b :: bs).length s) :
    ∃ env, runSteps ((b :: bs).length + 1) s = .next { s with
      phase := .ready, op := none, env := env, tr := some (okTransport t false)
      trace := s.trace ++ okCommands t (b :: bs) ++ [.result (opNameOf i) .ok]
      powerOn := committed u.powerOn s.powerOn, contrast := committed u.contrast s.contrast
      inverted := committed u.inverted s.inverted
      panel := panelAfter (b :: bs) s.panel, seq := s.seq + (b :: bs).length + 1, result := some .ok } := by
  obtain ⟨later, hla⟩ := ha
  obtain ⟨env, -, -, h⟩ := runSteps_cmds b bs hr hp (by simp) ht hla
  refine ⟨env, runSteps_trans h (runSteps_one ?_)⟩
  have hg : s.prog[s.seq + (b :: bs).length]? = some (.commit u) := by
    have := congrArg (·[(b::bs).length]?) hp
    simpa [cmds] using this
  have hl := congrArg List.length hp
  simp [cmds] at hl
  rw [step_running (m := .commit u) (by exact hr) (by exact hg) rfl, finish_end (by exact hr) (by simp; omega)]
  simp [State.complete, State.opName, State.commit, State.advance, ho, hu]

/-- The flush program with every answer ok (R210, R211), and the answers that are left. -/
theorem runSteps_flush {s : State} {t : Transport} {u : Commit} {w p : Nat} {m : Memory} (i : Instr)
    (hr : s.phase.running = true) (ho : s.op = some i) (hp : s.prog.drop s.seq = flushProgram w p)
    (hc : commitOf s.prog = u) (ht : s.tr = some t) (hw : s.width = some w) (hpg : s.pages = some p) (hm : s.fb = some m)
    (ha : AnswersOk 7 s) :
    ∃ env, runSteps 7 s = .next { s with
      phase := .ready, op := none, env := env, tr := some (okTransport t true)
      trace := s.trace ++ okCommands t (windowBytes w p) ++ okEvents t true (m.bytes (p * w)) ++
        [.result (opNameOf i) .ok]
      powerOn := committed u.powerOn s.powerOn, contrast := committed u.contrast s.contrast
      inverted := committed u.inverted s.inverted
      flushed := some (m.bytes (p * w)), panel := panelAfter (windowBytes w p) s.panel, seq := s.seq + 7
      result := some .ok } ∧
    ∀ later, s.env.answers = List.replicate 7 .ok ++ later → env.answers = later := by
  obtain ⟨later, hla⟩ := ha
  obtain ⟨env, -, hea, h⟩ := runSteps_cmds (later := .ok :: later) 0x21 (windowBytes w p).tail hr hp (by simp) ht (by rw [hla]; rfl)
  have h6 : (0x21 :: (windowBytes w p).tail).length = 6 := rfl
  have hw6 : (0x21 :: (windowBytes w p).tail) = windowBytes w p := rfl
  rw [h6, hw6] at h
  generalize hv : ({ s with
        env := env, tr := some (okTransport t false), trace := s.trace ++ okCommands t (windowBytes w p)
        panel := panelAfter (windowBytes w p) s.panel, seq := s.seq + 6 } : State) = v at h
  have hrv : v.phase.running = true := by rw [← hv]; exact hr
  have hna : v.nextAnswer = .ok := by rw [← hv]; simp [State.nextAnswer, hea]
  have htv : v.tr = some (okTransport t false) := by rw [← hv]
  have hg : v.prog[v.seq]? = some .data := by
    rw [← hv]
    have := congrArg (·[6]?) hp
    simpa [cmds, flushProgram, windowBytes] using this
  have hl := congrArg List.length hp
  simp [cmds, flushProgram, windowBytes] at hl
  have hpl : flushPayload v = some (m.bytes (p * w)) := flushPayload_eq (by rw [← hv]; exact hw) (by rw [← hv]; exact hpg) (by rw [← hv]; exact hm)
  refine ⟨v.takeAnswer.env, runSteps_trans (m := 6) h (runSteps_one ?_), ?_⟩
  · rw [step_running (m := .data) hrv (by exact hg) (by rw [runMicro]; exact runData_eq hpl htv (halted_of_running hrv)), dataTransfer_ok _ htv hna]
    rw [finish_end (by exact hrv) (by rw [← hv]; simp; omega)]
    rw [← hv]
    simp [State.complete, State.opName, State.commit, ho, hc]
  · intro l hl'
    rw [hla] at hl'
    have : later = l := by simpa using hl'
    rw [← hv]
    simp [State.takeAnswer, hea, this]

theorem exec_flush {s : State} {w p : Nat} (hp : s.phase = .ready) (hw : s.width = some w) (hpg : s.pages = some p) :
    exec .flush s = .next (s.issue .flush .busy (flushProgram w p)) := by
  simp only [exec, execFlush, flushProgramOf, hw, hpg]; exact issueReady_ready hp rfl

/-! ## Wire commands and frames -/

/-- A wire command sends its encoding (R105, R270). -/
theorem exec_wire_encode {i : Instr} (s : State) (hf : i.format = .wireCommand) : exec i s = sendGroup (encode i) s := by
  cases i <;> first | rfl | simp [Instr.format] at hf

/-- A group whose bytes are all answered ok. -/
theorem sendGroup_ok {s : State} {t : Transport} (b : Byte) (bs : List Byte) (hh : s.halted = none) (ht : s.tr = some t)
    (ha : AnswersOk (b :: bs).length s) :
    ∃ env, sendGroup (b :: bs) s = .next { s with
      env := env, tr := some (okTransport t false), trace := s.trace ++ okCommands t (b :: bs)
      panel := panelAfter (b :: bs) s.panel, seq := s.seq + (b :: bs).length } := by
  obtain ⟨env, -, e⟩ := sendBytes_ok b bs ht ha
  exact ⟨env, by simp only [sendGroup, hh, ht, e]⟩

/-- What a wire command or a frame may change (R41, R42, R270); a Failed block refuses it (log 2). -/
theorem exec_wire_change {i : Instr} {s t : State} (hf : i.format ≠ .hostRecord) (h : exec i s = .next t) :
    (s.phase = .failed ∧ t = s.refuse .transport (.notReady .transport .failed)) ∨ WireChange s t := by
  rcases exec_wire_cases hf h with hc | ⟨-, tr, htr, ⟨b, bs, rfl⟩ | ⟨bs, rfl⟩⟩
  · exact .inl hc
  · exact .inr (sendBytes_change b bs htr)
  · exact .inr (dataTransfer_change bs htr)

end Sys2Proof.Machine
end

