-- ==== Sys2Proof/Laws/Trace.lean ====
section
/-! SUPPORT. The abstract trace: what the events of transfers, drawing and results add to it (R184). -/

namespace Sys2Proof.Machine

theorem ctraceFrom_append (dc : Option Bool) (es fs : List Event) :
    ∃ dc', ctraceFrom dc (es ++ fs) = ctraceFrom dc es ++ ctraceFrom dc' fs := by
  induction es generalizing dc with
  | nil => exact ⟨dc, rfl⟩
  | cons e es ih =>
    cases e with
    | dc v => obtain ⟨dc', h⟩ := ih (some v); exact ⟨dc', h⟩
    | i2c a bytes ans => obtain ⟨dc', h⟩ := ih dc; exact ⟨dc', by simp [ctraceFrom, h]⟩
    | spi bytes ans => obtain ⟨dc', h⟩ := ih dc; exact ⟨dc', by simp [ctraceFrom, h]⟩
    | spiCfg _ => obtain ⟨dc', h⟩ := ih dc; exact ⟨dc', h⟩
    | cs _ => obtain ⟨dc', h⟩ := ih dc; exact ⟨dc', h⟩
    | res _ => obtain ⟨dc', h⟩ := ih dc; exact ⟨dc', h⟩
    | sleep _ => obtain ⟨dc', h⟩ := ih dc; exact ⟨dc', h⟩
    | glyphMiss _ _ => obtain ⟨dc', h⟩ := ih dc; exact ⟨dc', h⟩
    | result _ _ => obtain ⟨dc', h⟩ := ih dc; exact ⟨dc', h⟩

theorem reports_append (es fs : List Event) : reports (es ++ fs) = reports es ++ reports fs := by
  induction es with
  | nil => rfl
  | cons e es ih => cases e <;> simp [reports, ih]

/-- The events hold the abstract transfers `xs`, whatever level DC had before them. -/
def Carries (es : List Event) (xs : List Xfer) : Prop := ∀ dc, ctraceFrom dc es = xs

theorem ctrace_append {es fs : List Event} {xs} (h : Carries fs xs) : ctrace (es ++ fs) = ctrace es ++ xs := by
  obtain ⟨dc', e⟩ := ctraceFrom_append none es fs
  rw [ctrace, e, h]; rfl

theorem carries_ok_cmd (t : Transport) (b : Byte) (fs : List Event) (ys) (h : Carries fs ys) :
    Carries (okEvents t false [b] ++ fs) (.cmd b .ok :: ys) := by
  intro dc; cases t <;> simp [okEvents, ctraceFrom, i2cXfer, spiXfer, h _]
theorem carries_ok_data (t : Transport) (b : List Byte) (fs : List Event) (ys) (h : Carries fs ys) :
    Carries (okEvents t true b ++ fs) (.data b .ok :: ys) := by
  intro dc; cases t <;> simp [okEvents, ctraceFrom, i2cXfer, spiXfer, h _]
theorem carries_bad_cmd (t : Transport) (b : Byte) (a d) (fs : List Event) (ys) (h : Carries fs ys) :
    Carries (badEvents t false [b] a d ++ fs) (.cmd b a :: ys) := by
  intro dc; cases t <;> simp [badEvents, ctraceFrom, i2cXfer, spiXfer]
  · exact h _
  · split <;> exact h _
theorem carries_bad_data (t : Transport) (b : List Byte) (a d) (fs : List Event) (ys) (h : Carries fs ys) :
    Carries (badEvents t true b a d ++ fs) (.data b a :: ys) := by
  intro dc; cases t <;> simp [badEvents, ctraceFrom, i2cXfer, spiXfer]
  · exact h _
  · split <;> exact h _
theorem reports_ok (t : Transport) (dc b) : reports (okEvents t dc b) = [] := by cases t <;> rfl
theorem reports_bad (t : Transport) (dc b a d) : reports (badEvents t dc b a d) = [] := by
  cases t
  · rfl
  · simp [badEvents, reports]; split <;> rfl
theorem carries_nil : Carries [] [] := fun _ => rfl
theorem carries_draw (d : DrawOp) (rom : GlyphRom) : Carries (d.events rom) [] := by
  intro dc
  cases d <;> try rfl
  simp only [DrawOp.events]; split <;> rfl
theorem carries_result (op r) (es ys) (h : Carries es ys) : Carries (.result op r :: es) ys := fun dc => h dc

end Sys2Proof.Machine
end

