-- ==== Sys2Proof/Tests/Slice0.lean ====
section
/-! SUPPORT. Tests and witnesses. Expected results are the spec's own: spec/95_test_vectors.md where a comment names a
vector, else the rule named. The witnesses show that the hypotheses of each statement of Obligations.lean are met
together. -/

namespace Sys2Proof.Tests

open Sys2Proof Sys2Proof.Machine

/-! ## Small states -/

def cfg : Params := { i2cAddr := 0x3C, spiRate := 7, spiMode := ⟨false, false⟩, resActive := false }

def twoWire : Transport := .twoWire 0x3C
def fourWire : Transport := .fourWire { dc := true, cs := true, res := true, rate := 7 }

/-- Registers as a construction leaves them, where a test or an invariant reads them (R44). -/
def regs : PanelRegs := { displayOn := some true, contrast := some 0xFF, invert := some false }

/-- A constructed `w`×`h` block in Ready with an all-zero framebuffer. -/
def block (w h : Nat) (t : Transport) (answers : List Answer) : State :=
  { State.reset with
    phase := .ready, seq := 0, width := some w, height := some h, pages := some (h / 8), extVcc := some false
    powerOn := some true, contrast := some 0xFF, inverted := some false, fb := some [], tr := some t
    panel := { regs := regs }, cfg := cfg, rom := [], env := { answers := answers } }

/-- A block before construction. -/
def fresh : State := { State.reset with cfg := cfg, rom := [] }

/-- A block part way through an operation. -/
def during (i : Instr) (prog : List MicroOp) (seq : Nat) (s : State) : State :=
  { s with phase := .busy, op := some i, prog := prog, seq := seq }

def next? : Host.Outcome State Fault Refusal → Option State
  | .next s => some s
  | .fault _ => none
  | .refused _ => none

/-- Issue, then one step. -/
def run1 (i : Instr) (s : State) : Option State := (next? (exec i s)).bind fun u => next? (step u)

/-! ## Well-formedness: the check refuses ill-formed operands (R102) -/

theorem test_wf_level : (Instr.setContrast 256).wf = false ∧ (Instr.setContrast (-1)).wf = false ∧
    (Instr.setContrast 0).wf = true ∧ (Instr.setContrast 255).wf = true := by decide

theorem test_wf_flag : (Instr.setInverted 2).wf = false ∧ (Instr.setInverted 1).wf = true := by decide

theorem test_wf_value : (Instr.setPixel 0 0 2).wf = false ∧ (Instr.setPixel 0 0 (-1)).wf = false ∧
    (Instr.clear 2).wf = false ∧ (Instr.clear 0).wf = true := by decide

/-- L2.2 rows 9 to 12. -/
theorem test_wf_src : (Instr.blit [] 0 0 8 1).wf = false ∧ (Instr.blit [0x00] 0 0 9 1).wf = false ∧
    (Instr.blit [] 0 0 0 5).wf = true ∧ (Instr.blit [] 0 0 8 (-1)).wf = true := by decide

/-! ## Decoding: words written out from R101, R104, R107, R108, R110, R111 -/

theorem test_decode_host_plain :
    decode .hostRecord [0x02] = .ok .initSequence ∧ decode .hostRecord [0x03] = .ok .flush ∧
    decode .hostRecord [0x04] = .ok .powerOn ∧ decode .hostRecord [0x05] = .ok .powerOff := by decide

/-- The tags are R101's; the operand bytes are the model's (log 3): n ≥ 0 is 2n, two bytes from 64 on. -/
theorem test_decode_host_operands :
    decode .hostRecord [0x01, 0x80, 0x02, 0x80, 0x01, 0x00, 0x00] = .ok (.construct 128 64 false .twoWire) ∧
    decode .hostRecord [0x06, 0xFE, 0x01] = .ok (.setContrast 127) ∧ decode .hostRecord [0x07, 0x02] = .ok (.setInverted 1) ∧
    decode .hostRecord [0x08, 0x0A, 0x14, 0x02] = .ok (.setPixel 5 10 1) ∧
    decode .hostRecord [0x09, 0x01, 0xA5, 0x00, 0x00, 0x10, 0x02] = .ok (.blit [0xA5] 0 0 8 1) ∧
    decode .hostRecord [0x0A, 0x02] = .ok (.clear 1) := by decide

theorem test_decode_host_strings :
    decode .hostRecord [0x0B, 0x01, 0x41, 0x02, 0x04] = .ok (.drawText ['A'] 1 2) ∧
    decode .hostRecord [0x0C, 0x01, 0xAD, 0x9C, 0x01, 0x01, 0x00] = .ok (.drawWideGlyphs ['中'] (-1) 0) := by decide

theorem test_decode_wire_fields :
    decode .wireCommand [0xAE] = .ok (.cmdDisp false) ∧ decode .wireCommand [0xAF] = .ok (.cmdDisp true) ∧
    decode .wireCommand [0xA0] = .ok (.cmdSegRemap false) ∧ decode .wireCommand [0xA1] = .ok (.cmdSegRemap true) ∧
    decode .wireCommand [0xC0] = .ok (.cmdComOutDir false) ∧ decode .wireCommand [0xC8] = .ok (.cmdComOutDir true) ∧
    decode .wireCommand [0xA6] = .ok (.cmdNormInv false) ∧ decode .wireCommand [0xA7] = .ok (.cmdNormInv true) ∧
    decode .wireCommand [0x40] = .ok .cmdDispStartLine ∧ decode .wireCommand [0xA4] = .ok .cmdEntireOn := by decide

theorem test_decode_wire_arguments :
    decode .wireCommand [0x20, 0x00] = .ok (.cmdMemAddr 0x00) ∧ decode .wireCommand [0xA8, 0x3F] = .ok (.cmdMuxRatio 0x3F) ∧
    decode .wireCommand [0xD3, 0x00] = .ok (.cmdDispOffset 0x00) ∧ decode .wireCommand [0xDA, 0x12] = .ok (.cmdComPinCfg 0x12) ∧
    decode .wireCommand [0xD5, 0x80] = .ok (.cmdDispClkDiv 0x80) ∧ decode .wireCommand [0xD9, 0xF1] = .ok (.cmdPrecharge 0xF1) ∧
    decode .wireCommand [0xDB, 0x30] = .ok (.cmdVcomDesel 0x30) ∧ decode .wireCommand [0x81, 0xFF] = .ok (.cmdContrast 0xFF) ∧
    decode .wireCommand [0x8D, 0x14] = .ok (.cmdChargePump 0x14) ∧
    decode .wireCommand [0x21, 0x00, 0x7F] = .ok (.cmdColAddr 0x00 0x7F) ∧
    decode .wireCommand [0x22, 0x00, 0x07] = .ok (.cmdPageAddr 0x00 0x07) := by decide

theorem test_decode_frames :
    decode .frame2Wire [0x80, 0xAE] = .ok (.i2cCommandFrame 0xAE) ∧
    decode .frame2Wire [0x40, 0x01, 0x02] = .ok (.i2cDataFrame [0x01, 0x02]) ∧
    decode .frame4Wire [0x00, 0xAE] = .ok (.spiCommandTransfer 0xAE) ∧
    decode .frame4Wire [0x01, 0x01, 0x02] = .ok (.spiDataTransfer [0x01, 0x02]) := by decide

/-- Encodings outside the spec's are rejected by name (R114, R115). -/
theorem test_decode_rejects :
    decode .hostRecord [0x00] = .error (.unknownTag 0x00) ∧ decode .hostRecord [0x0D] = .error (.unknownTag 0x0D) ∧
    decode .wireCommand [0xA5] = .error (.unknownOpcode 0xA5) ∧ decode .wireCommand [0x41] = .error (.unknownOpcode 0x41) ∧
    decode .wireCommand [0x81] = .error .truncated ∧ decode .wireCommand [0xAE, 0x00] = .error .trailingBytes ∧
    decode .frame2Wire [0x00, 0xAE] = .error (.unknownControlByte 0x00) ∧ decode .frame2Wire [0x80] = .error .truncated ∧
    decode .frame4Wire [0x00, 0xAE, 0xAF] = .error .trailingBytes ∧ decode .hostRecord [] = .error .empty := by decide

theorem test_table_words :
    decodeTableWord 8 0x01 = some (.construct 0 0 false .twoWire) ∧ decodeTableWord 8 0x0C = some (.drawWideGlyphs [] 0 0) ∧
    decodeTableWord 8 0xAF = some (.cmdDisp true) ∧ decodeTableWord 8 0x21 = some (.cmdColAddr 0 0) ∧
    decodeTableWord 8 0x80 = some (.i2cCommandFrame 0) ∧ decodeTableWord 0 0 = some (.spiCommandTransfer 0) ∧
    decodeTableWord 8 0xA5 = none := by decide

/-! ## One instruction at a time -/

/-- L2.1 row 2. -/
theorem test_setPixel : (run1 (.setPixel 5 10 1) (block 128 64 twoWire [])).map (·.fb) = some (some [(133, 0x04)]) := by
  decide +kernel

/-- L2.1 row 6: only the addressed bit of a full byte is cleared. -/
theorem test_setPixel_clears :
    (run1 (.setPixel 0 3 0) { block 128 64 twoWire [] with fb := some [(0, 0xFF)] }).map (·.fb) =
      some (some [(0, 0xF7)]) := by decide +kernel

/-- L2.2 row 5: the left four pixels are clipped. -/
theorem test_blit_clipped : (run1 (.blit [0xFF] (-4) 0 8 1) (block 128 64 twoWire [])).map (·.fb) =
    some (some [(0, 0x01), (1, 0x01), (2, 0x01), (3, 0x01)]) := by decide +kernel

/-- L2.2 row 3: two rows across a page boundary. -/
theorem test_blit_pages : (run1 (.blit [0x80, 0x80] 3 7 1 2) (block 128 64 twoWire [])).map (·.fb) =
    some (some [(3, 0x80), (131, 0x01)]) := by decide +kernel

/-- L2.2 row 15 in small: `clear 0` leaves nothing listed. -/
theorem test_clear : (run1 (.clear 0) { block 128 64 twoWire [] with fb := some [(0, 0xFF), (1023, 0x80)] }).map (·.fb) =
    some (some []) := by decide +kernel

/-- L2.2 row 17. -/
theorem test_clear_refused : (next? (exec (.clear 2) (block 128 64 twoWire []))).map (fun s => (s.phase, s.result, s.trace)) =
    some (.refused, some (.err (.invalidOperand .clear .value)),
      [.result .clear (.err (.invalidOperand .clear .value))]) := by decide +kernel

/-- L2.5 row 14. -/
theorem test_drawText_empty : (run1 (.drawText [] 3 3) (block 128 64 twoWire [])).map (fun s => (s.fb, s.result)) =
    some (some [], some .ok) := by decide +kernel

/-- L2.5 rows 1 to 8 of the keys. -/
theorem test_glyphKey :
    glyphKey '中' = some 0xE4B8AD ∧ glyphKey '文' = some 0xE69687 ∧ glyphKey 'あ' = some 0xE38182 ∧
    glyphKey (Char.ofNat 0x0800) = some 0xE0A080 ∧ glyphKey (Char.ofNat 0xFFFF) = some 0xEFBFBF ∧
    glyphKey 'A' = none ∧ glyphKey 'é' = none ∧ glyphKey (Char.ofNat 0x1F600) = none := by decide +kernel

/-- The glyph of L2.5 row 1: its four corners. -/
def corners : Glyph :=
  #v[0x80, 0x01, 0, 0, 0, 0, 0, 0, 0, 0, 0, 0, 0, 0, 0, 0, 0, 0, 0, 0, 0, 0, 0, 0, 0, 0, 0, 0, 0, 0, 0x80, 0x01]

/-- L2.5 row 1. -/
theorem test_drawWideGlyphs :
    (run1 (.drawWideGlyphs ['中'] 0 0) { block 128 64 twoWire [] with rom := [(0xE4B8AD, corners)] }).map (·.fb) =
      some (some [(0, 0x01), (15, 0x01), (128, 0x80), (143, 0x80)]) := by decide +kernel

/-- L2.5 row 10, its first step: the miss is reported and nothing is drawn. -/
theorem test_drawWideGlyphs_miss :
    (run1 (.drawWideGlyphs ['é', Char.ofNat 0x1F600] 0 0) (block 128 64 twoWire [])).map
      (fun s => (s.trace, s.fb, s.phase)) = some ([.glyphMiss none 0], some [], .busy) := by decide +kernel

/-- A 2-wire construction at a step of its program, its framebuffer allocated. -/
def constructing (seq : Nat) (answers : List Answer) : State :=
  { fresh with
    phase := .constructing, op := some (.construct 128 64 false .twoWire), seq := seq
    prog := constructProgram false 128 64 false .twoWire, width := some 128, height := some 64, pages := some 8
    extVcc := some false, fb := some [], tr := some twoWire, env := { answers := answers } }

/-- R219, R322, R340 (D16): a construction whose flush fails leaves the three fields without a value; step 28 is the
flush's first by R201's program. -/
theorem test_construct_flush_fails : (next? (step (constructing 28 [.fail]))).map
    (fun s => (s.phase, s.powerOn, s.contrast, s.inverted, s.result)) =
      some (.failed, none, none, none, some (.err (.transportError .construct 28 .cmd))) := by decide +kernel

/-- R37 to R39, R52: the data step, the program's last, ends it with the three fields written. -/
theorem test_construct_completes : (next? (step (constructing 34 [.ok]))).map
    (fun s => (s.phase, s.powerOn, s.contrast, s.inverted, s.result)) =
      some (.ready, some true, some 0xFF, some false, some .ok) := by decide +kernel

/-- R201, R180: issue of a 2-wire construction sends nothing and sets the address. -/
theorem test_construct : (next? (exec (.construct 64 32 true .twoWire) fresh)).map
    (fun s => (s.phase, s.tr, s.trace, s.prog.length)) = some (.constructing, some (.twoWire 0x3C), [], 35) := by decide +kernel

/-- L2.4 row 22, its one step after issue. -/
theorem test_construct_geometry : (run1 (.construct 96 64 false .twoWire) fresh).map
    (fun s => (s.phase, s.trace, s.width)) =
      some (.failed, [.result .construct (.err (.invalidGeometry 96 64))], none) := by decide +kernel

/-- L1.5, L1.7: the first and last bytes of the list, and the byte at index 15. -/
theorem test_initSequence : (next? (exec .initSequence (block 128 64 twoWire []))).map
    (fun s => (s.prog[0]?, s.prog[15]?, s.prog[24]?, s.prog.length)) =
      some (some (.cmd 0xAE), some (.cmd 0xF1), some (.cmd 0xAF), 26) := by decide +kernel

/-- L2.7 row 1. -/
theorem test_flush_uninit : (next? (exec .flush fresh)).map (fun s => (s.phase, s.result, s.refused)) =
    some (.refused, some (.err (.notReady .flush .uninit)), true) := by decide +kernel

/-- L1.6: the window of a 64-pixel-wide panel. -/
theorem test_flush : (next? (exec .flush (block 64 32 twoWire []))).map (·.prog) =
    some [.cmd 0x21, .cmd 0x20, .cmd 0x5F, .cmd 0x22, .cmd 0x00, .cmd 0x03, .data] := by decide +kernel

/-- L2.4 row 5, its first step. -/
theorem test_powerOn : (run1 .powerOn (block 128 64 twoWire [.ok])).map (fun s => (s.trace, s.phase)) =
    some ([.i2c 0x3C [0x80, 0xAF] .ok], .busy) := by decide +kernel

/-- L2.4 row 3, its last step. -/
theorem test_powerOff : (next? (step (during .powerOff [.cmd 0xAE, .commit { powerOn := some false }] 1
    (block 128 64 twoWire [])))).map (fun s => (s.powerOn, s.result, s.phase, s.trace)) =
      some (some false, some .ok, .ready, [.result .powerOff .ok]) := by decide +kernel

/-- L2.4 row 13, its second step. -/
theorem test_setContrast_fails : (next? (step (during (.setContrast 0x7F)
    [.cmd 0x81, .cmd 0x7F, .commit { contrast := some 0x7F }] 1 (block 128 64 twoWire [.fail])))).map
      (fun s => (s.phase, s.contrast, s.panel.sync, s.result)) =
      some (.ready, some 0xFF, false, some (.err (.transportError .setContrast 1 .cmd))) := by decide +kernel

/-- L2.4 row 8. -/
theorem test_setContrast_refused : (next? (exec (.setContrast 256) (block 128 64 twoWire []))).map
    (fun s => (s.phase, s.refused, s.result)) =
      some (.refused, true, some (.err (.invalidOperand .setContrast .level))) := by decide +kernel

/-- L2.4 rows 10 and 11. -/
theorem test_setInverted :
    (next? (exec (.setInverted 1) (block 128 64 twoWire []))).map (·.prog) =
      some [.cmd 0xA7, .commit { inverted := some true }] ∧
    (next? (exec (.setInverted 0) (block 128 64 twoWire []))).map (·.prog) =
      some [.cmd 0xA6, .commit { inverted := some false }] := by decide +kernel

/-! ### Wire commands: the "Shadow" line of each rule, R271 to R287 -/

/-- The shadow after one command with every answer ok. -/
def shadowAfter (i : Instr) : Option PanelRegs :=
  (next? (exec i { block 128 64 twoWire [.ok, .ok, .ok] with panel := {} })).map (·.panel.shown)

theorem test_shadow_fields :
    shadowAfter (.cmdDisp true) = some { displayOn := some true } ∧
    shadowAfter .cmdDispStartLine = some { startLine := some 0 } ∧
    shadowAfter (.cmdSegRemap true) = some { segRemap := some true } ∧
    shadowAfter (.cmdComOutDir true) = some { comOutDir := some true } ∧
    shadowAfter .cmdEntireOn = some { entireOn := some false } ∧
    shadowAfter (.cmdNormInv false) = some { invert := some false } := by decide +kernel

theorem test_shadow_arguments :
    shadowAfter (.cmdMemAddr 0x00) = some { memAddrMode := some 0x00 } ∧
    shadowAfter (.cmdMuxRatio 0x1F) = some { muxRatio := some 0x1F } ∧
    shadowAfter (.cmdDispOffset 0x00) = some { dispOffset := some 0x00 } ∧
    shadowAfter (.cmdComPinCfg 0x02) = some { comPinCfg := some 0x02 } ∧
    shadowAfter (.cmdDispClkDiv 0x80) = some { clkDiv := some 0x80 } ∧
    shadowAfter (.cmdPrecharge 0x22) = some { precharge := some 0x22 } ∧
    shadowAfter (.cmdVcomDesel 0x30) = some { vcomDesel := some 0x30 } ∧
    shadowAfter (.cmdContrast 0x40) = some { contrast := some 0x40 } ∧
    shadowAfter (.cmdChargePump 0x10) = some { chargePump := some 0x10 } ∧
    shadowAfter (.cmdColAddr 0x20 0x5F) = some { colWindow := some (0x20, 0x5F) } ∧
    shadowAfter (.cmdPageAddr 0x00 0x03) = some { pageWindow := some (0x00, 0x03) } := by decide +kernel

/-! ### Frames: L2.3 -/

/-- Rows 1 and 2. -/
theorem test_i2cCommandFrame :
    (next? (exec (.i2cCommandFrame 0x81) (block 128 64 twoWire [.ok]))).map (fun s => (s.trace, s.panel.pend)) =
      some ([.i2c 0x3C [0x80, 0x81] .ok], some (0x81, [])) ∧
    (next? (step (during .powerOn [.cmd 0x81, .data] 0 (block 128 64 twoWire [.fail])))).map
      (fun s => (s.trace, s.panel.sync)) =
      some ([.i2c 0x3C [0x80, 0x81] .fail, .result .powerOn (.err (.transportError .powerOn 0 .cmd))], false) := by decide +kernel

/-- Rows 3 and 10. -/
theorem test_i2cDataFrame :
    (next? (exec (.i2cDataFrame [0x01, 0x02]) (block 128 64 twoWire [.ok]))).map (fun s => (s.trace, s.flushed)) =
      some ([.i2c 0x3C [0x40, 0x01, 0x02] .ok], some [0x01, 0x02]) ∧
    (next? (exec (.i2cCommandFrame 0xAE) (block 128 64 twoWire [.hang]))).map (fun s => (s.phase, s.trace)) =
      some (.hung, [.i2c 0x3C [0x80, 0xAE] .hang]) := by decide +kernel

/-- Rows 5 and 7 (`stay` leaves chip-select asserted). -/
theorem test_spiCommandTransfer :
    (next? (exec (.spiCommandTransfer 0xAF) (block 128 64 fourWire [.ok]))).map (fun s => (s.trace, s.tr)) =
      some ([.spiCfg 7, .cs false, .dc false, .spi [0xAF] .ok, .cs true],
        some (.fourWire { dc := false, cs := true, res := true, rate := 7 })) ∧
    (next? (exec (.spiCommandTransfer 0xAF)
      { block 128 64 fourWire [] with env := { answers := [.fail], csDraws := [.stay] } })).map (·.tr) =
      some (some (.fourWire { dc := false, cs := false, res := true, rate := 7 })) := by decide +kernel

/-- Row 8. -/
theorem test_spiDataTransfer :
    (next? (exec (.spiDataTransfer [0x01, 0x02]) (block 128 64 fourWire [.ok]))).map (fun s => (s.trace, s.flushed)) =
      some ([.spiCfg 7, .cs false, .dc true, .spi [0x01, 0x02] .ok, .cs true], some [0x01, 0x02]) := by decide +kernel

/-! ### The step and the reset -/

theorem test_placed_word : (next? (step (fresh.withFetchWord 8 0x03))).map (fun s => (s.phase, s.result)) =
    some (.refused, some (.err (.notReady .flush .uninit))) := by decide +kernel

theorem test_placed_wire_word :
    (next? (step ((block 128 64 fourWire [.ok]).withFetchWord 8 0xA4))).map (·.panel.regs.entireOn) =
      some (some false) := by decide +kernel

/-- R177: `LINE RES RES_ACTIVE` drives the reset line and no other. -/
theorem test_line : (next? (step { during (.construct 64 32 false .fourWire) [.line .res false, .data] 0
    (block 64 32 fourWire []) with phase := .constructing })).map (fun s => (s.trace, s.tr)) =
      some ([.res false], some (.fourWire { dc := true, cs := true, res := false, rate := 7 })) := by decide +kernel

/-- R177: the setup's last line, and the rate after it. -/
theorem test_line_rate : (next? (step { during (.construct 64 32 false .fourWire) [.line .cs true, .data] 0
    { block 64 32 fourWire [] with tr := some (undrivenFourWire 3) } with phase := .constructing })).map
      (fun s => (s.trace, s.tr.map fun | .fourWire r => (r.cs, r.rate) | .twoWire _ => (false, 0))) =
      some ([.cs true], some (true, 7)) := by decide +kernel

/-- R339: in Failed nothing is sent. -/
theorem test_failed_sends_nothing :
    (next? (exec (.cmdContrast 0x40) { block 128 64 twoWire [.hang] with phase := .failed })).map
      (fun s => (s.phase, s.trace)) =
      some (.refused, [.result .transport (.err (.notReady .transport .failed))]) := by decide +kernel

/-- R288: bit 0 is the top row of the page, so row 9 is bit 1 of page 1. -/
theorem test_panel_pixel :
    let p : RefPanel := { ram := fun page col => if page = 1 ∧ col = 3 then 0x02 else 0, page := 0, column := 0, parser := {} }
    p.pixel 9 3 = true ∧ p.pixel 8 3 = false ∧ p.pixel 1 3 = false := by decide +kernel

/-! ## Witnesses: one theorem per statement that has hypotheses -/

/-- The block of most witnesses. -/
abbrev s64 (t : Transport) (answers : List Answer) : State := block 128 64 t answers

def queued (rs : List Request) (s : State) : State := { s with env := { s.env with requests := rs } }

/-- The record of `flush` (R101). -/
def flushRecord : Request := ⟨.hostRecord, [0x03]⟩

theorem built_s64 (t : Transport) (a : List Answer) : Built (s64 t a) :=
  ⟨128, 64, false, [], rfl, rfl, rfl, rfl, rfl, .inr rfl, .inr rfl, rfl⟩

theorem unbuilt_fresh : Unbuilt fresh := ⟨rfl, rfl, rfl, rfl, rfl⟩

theorem inv_s64 (a : List Answer) (rs : List Request) (h : ∀ r ∈ rs, r.fmt = .hostRecord) :
    Inv (queued rs (s64 twoWire a)) where
  geometry := .inl (built_s64 twoWire a)
  phaseFits := ⟨built_s64 twoWire a, rfl, rfl⟩
  mark := by constructor <;> intro h <;> cases h
  romFits := rfl
  wires := by intro t ht; cases ht; exact .inl rfl
  host := h
  agree := fun _ _ _ _ => ⟨rfl, rfl, rfl, rfl, rfl⟩
  filled := ⟨(by rintro (h | h | h) <;> cases h), fun _ => ⟨rfl, rfl, rfl⟩, fun h => nomatch h⟩
  image := fun _ h => nomatch h

/-- `power_on` about to send its byte. -/
def poweringOn (t : Transport) (answers : List Answer) : State :=
  during .powerOn [.cmd 0xAF, .commit { powerOn := some true }] 0 (s64 t answers)

/-- `flush` about to send its data. -/
def flushing (t : Transport) (answers : List Answer) : State := during .flush (flushProgram 128 8) 6 (s64 t answers)

theorem inv_poweringOn : Inv (poweringOn twoWire [.ok]) where
  geometry := .inl (built_s64 twoWire [.ok])
  phaseFits := ⟨.powerOn, twoWire, rfl, rfl, rfl, rfl, rfl, by decide, rfl, built_s64 twoWire [.ok]⟩
  mark := by decide
  romFits := rfl
  wires := by intro t ht; cases ht; exact .inl rfl
  host := fun _ h => nomatch h
  agree := fun _ _ _ _ => ⟨by decide +kernel, by decide +kernel, by decide +kernel, by decide +kernel,
    by decide +kernel⟩
  filled := ⟨(by rintro (h | h | h) <;> cases h), fun _ => ⟨rfl, rfl, rfl⟩, fun h => nomatch h⟩
  image := fun _ h => nomatch h

theorem witness_OpcodeMapIsExact : (0xAF : Byte) &&& 0xFE = 0xAE ∧ (0xC8 : Byte) &&& 0xF7 = 0xC0 ∧
    argCount 0xA5 = none ∧ argCount 0x00 = none ∧ argCount 0xFF = none ∧ argCount 0xC8 = some 0 ∧ argCount 0x81 = some 1 ∧
    argCount 0x22 = some 2 := by decide

theorem witness_StepRunsTheDecodedRequest : ∀ p ∈ [Phase.uninit, .ready, .failed],
    let s := { queued [flushRecord] (s64 twoWire []) with phase := p }
    (s.phase = .uninit ∨ s.phase = .ready ∨ s.phase = .failed) ∧ s.env.requests = [flushRecord] ∧
      decode flushRecord.fmt flushRecord.bytes = .ok .flush := by decide

theorem witness_StepRunsTheProgram_cmd : ∀ t ∈ [twoWire, fourWire],
    (poweringOn t [.ok]).phase = .busy ∧ (poweringOn t [.ok]).tr = some t ∧
      (poweringOn t [.ok]).prog[(poweringOn t [.ok]).seq]? = some (.cmd 0xAF) ∧
      (next? (runMicro (.cmd 0xAF) (poweringOn t [.ok]))).isSome = true := by decide +kernel

theorem witness_StepRunsTheProgram_data : ∀ t ∈ [twoWire, fourWire],
    (flushing t [.ok]).phase = .busy ∧ (flushing t [.ok]).tr = some t ∧
      (flushing t [.ok]).prog[(flushing t [.ok]).seq]? = some .data ∧ (flushing t [.ok]).width = some 128 ∧
      (flushing t [.ok]).pages = some 8 ∧ (flushing t [.ok]).fb = some [] := by decide +kernel

/-- A line step needs the 4-wire transport; the step that runs last completes (seq reaches the program's length). -/
theorem witness_StepRunsTheProgram_ends :
    runMicro (.line .dc false) { poweringOn twoWire [] with prog := [.line .dc false] } = .fault .otherTransport ∧
    (next? (runMicro (.commit {}) { poweringOn twoWire [] with prog := [.commit {}] })).map (·.seq) = some 1 :=
  ⟨rfl, rfl⟩

theorem witness_PlacedWordRunsNext : decodeTableWord 8 0x03 = some .flush ∧ decodeTableWord 8 0x22 = some (.cmdPageAddr 0 0) ∧
    decodeTableWord 0 1 = some (.spiDataTransfer []) := by decide

theorem witness_TerminalPhases : ({ s64 twoWire [] with phase := .hung }).phase = .hung ∧
    ({ s64 twoWire [] with phase := .refused }).phase = .refused ∧
    ({ s64 twoWire [] with phase := .failed }).phase = .failed ∧ Instr.flush.format = .hostRecord := by decide

theorem witness_StepKeepsTheInvariant : ∃ s t, Inv s ∧ step s = .next t ∧ t.phase = .busy :=
  ⟨queued [flushRecord] (s64 twoWire []), _, inv_s64 [] [flushRecord] (by decide), rfl, rfl⟩

theorem witness_IssueLoadsTheProgram : (s64 twoWire []).phase = .ready ∧ (Instr.setContrast 255).format = .hostRecord ∧
    (∀ w h e t, Instr.setContrast 255 ≠ .construct w h e t) ∧ (Instr.setContrast 255).wf = true ∧
    expansion (.setContrast 255) (s64 twoWire []) = some [.cmd 0x81, .cmd 0xFF, .commit { contrast := some 0xFF }] :=
  ⟨rfl, rfl, by simp, rfl, rfl⟩

theorem witness_WrongPhaseIsRefused :
    (Instr.construct 128 64 false .twoWire).format = .hostRecord ∧ (s64 twoWire []).phase = .ready ∧
    ({ s64 twoWire [] with phase := .failed }).phase = .failed ∧ fresh.phase = .uninit ∧
    (∀ w h e t, Instr.setContrast 300 ≠ .construct w h e t) := ⟨rfl, rfl, rfl, rfl, by simp⟩

theorem witness_IllegalOperandIsRefused : (s64 twoWire []).phase = .ready ∧ ((-1 : Int) < 0 ∨ 255 < (-1 : Int)) ∧
    ((256 : Int) < 0 ∨ 255 < (256 : Int)) ∧ ((2 : Int) ≠ 0 ∧ (2 : Int) ≠ 1) ∧ ((-1 : Int) ≠ 0 ∧ (-1 : Int) ≠ 1) ∧
    ((0 : Int) < 9 ∧ (0 : Int) < 1 ∧ (([0x00] : List Byte).length : Int) < 1 * ((9 + 7) / 8)) := by decide

theorem witness_PixelMappingIsExact : 8 ∣ 64 ∧ inside 128 64 0 0 = true ∧ inside 128 64 127 63 = true ∧
    pixelIndex 128 127 56 = pixelIndex 128 127 56 ∧ bitPos 56 = bitPos 56 ∧ (1023 < 64 / 8 * 128 ∧ 7 < 8) := by decide

theorem witness_PixWriteWritesOneBit :
    ((0 : Int) ≤ 127 ∧ (127 : Int) < (128 : Nat) ∧ (0 : Int) ≤ 63 ∧ (63 : Int) < (64 : Nat)) ∧
    ¬((0 : Int) ≤ 128 ∧ (128 : Int) < (128 : Nat) ∧ (0 : Int) ≤ 0 ∧ (0 : Int) < (64 : Nat)) ∧
    ¬((0 : Int) ≤ 0 ∧ (0 : Int) < (128 : Nat) ∧ (0 : Int) ≤ -1 ∧ (-1 : Int) < (64 : Nat)) := by decide

/-- The state every statement about drawing asks for. -/
theorem witness_drawing : (s64 twoWire []).phase = .ready ∧ Built (s64 twoWire []) ∧ (s64 twoWire []).width = some 128 ∧
    (s64 twoWire []).height = some 64 ∧ (s64 twoWire []).fb = some [] := ⟨rfl, built_s64 _ _, rfl, rfl, rfl⟩

theorem witness_SetPixelWritesThePixel : (s64 twoWire []).phase = .ready ∧ Built (s64 twoWire []) ∧
    (s64 twoWire []).fb = some [] ∧ ((0 : Int) = 0 ∨ (0 : Int) = 1) ∧ ((1 : Int) = 0 ∨ (1 : Int) = 1) :=
  ⟨rfl, built_s64 _ _, rfl, by decide, by decide⟩

/-- A bitmap of exactly the length asked, and a degenerate one. -/
theorem witness_BlitCopiesTheBitmap : (s64 twoWire []).phase = .ready ∧ Built (s64 twoWire []) ∧
    ((1 : Int) * ((10 + 7) / 8) ≤ (([0xFF, 0xC0] : List Byte).length : Int)) ∧ inside 128 64 9 0 = true ∧ (0 : Int) ≤ 0 :=
  ⟨rfl, built_s64 _ _, by decide, by decide, by decide⟩

theorem witness_ClearSetsEveryPixel : (s64 twoWire []).phase = .ready ∧ Built (s64 twoWire []) ∧
    ((1 : Int) = 0 ∨ (1 : Int) = 1) ∧ inside 128 64 127 63 = true := ⟨rfl, built_s64 _ _, by decide, by decide⟩

theorem witness_ClippedDrawingChangesNothing : (s64 twoWire []).phase = .ready ∧ Built (s64 twoWire []) ∧
    ((128 : Int) < 0 ∨ ((128 : Nat) : Int) ≤ 128) ∧ (Instr.blit [0xFF] (-8) 0 8 1).wf = true ∧ (-8 : Int) + 8 ≤ 0 ∧
    8 * (-2) + 8 * (['A', 'B'].length : Int) ≤ 0 ∧ ((64 : Nat) : Int) ≤ 8 * 8 ∧
    16 * (-1) + 16 * (['中'].length : Int) ≤ 0 ∧ (16 * (-1) + 16 : Int) ≤ 0 :=
  ⟨rfl, built_s64 _ _, by decide, by decide, by decide, by decide, by decide, by decide, by decide⟩

theorem witness_DrawTextStaysInItsCells : (s64 twoWire []).phase = .ready ∧ Built (s64 twoWire []) ∧
    inside 128 64 16 16 = true ∧
    ¬((8 * 1 : Int) ≤ 16 ∧ (16 : Int) < 8 * 1 + 8 * (['A'].length : Int) ∧ (8 * 2 : Int) ≤ 16 ∧ (16 : Int) < 8 * 2 + 8) :=
  ⟨rfl, built_s64 _ _, by decide, by decide⟩

theorem witness_TextPatternsFillCellsAndMove :
    (⟨7, 0, true⟩ : PixelWrite) ∈ textPixels [⟨0, 7, 0, true⟩, ⟨1, 0, 0, true⟩] 1 0 0 := by decide

theorem witness_GlyphKeyIsTheUtf8Encoding :
    (0x0800 ≤ (Char.ofNat 0x0800).toNat ∧ (Char.ofNat 0x0800).toNat ≤ 0xFFFF) ∧
    (0x0800 ≤ (Char.ofNat 0xFFFF).toNat ∧ (Char.ofNat 0xFFFF).toNat ≤ 0xFFFF) ∧
    (Char.ofNat 0x07FF).toNat < 0x0800 ∧ 0xFFFF < (Char.ofNat 0x10000).toNat := by decide

theorem witness_DrawWideGlyphsRunsInInputOrder : (s64 twoWire []).phase = .ready ∧ Built (s64 twoWire []) ∧
    (s64 twoWire []).fb = some [] := ⟨rfl, built_s64 _ _, rfl⟩

/-- The last cell of the canvas. -/
theorem witness_GlyphReadsBackExactly :
    let s := { s64 twoWire [] with rom := [(0xE4B8AD, corners)] }
    s.phase = .ready ∧ Built s ∧ glyphKey '中' = some 0xE4B8AD ∧ s.rom.read (0xE4B8AD : GlyphKey).toNat = some corners ∧
      (0 : Int) ≤ 16 * 7 ∧ (16 * 7 + 16 : Int) ≤ (128 : Nat) ∧ (0 : Int) ≤ 16 * 3 ∧ (16 * 3 + 16 : Int) ≤ (64 : Nat) ∧
      inside 128 64 111 48 = true :=
  ⟨rfl, built_s64 twoWire [], by decide, rfl, by decide, by decide, by decide, by decide, by decide⟩

theorem witness_DrawStepTouchesOnlyTheFramebuffer :
    (next? (runMicro (.draw (.pixel 0 0 true)) (s64 twoWire []))).isSome = true ∧
    (next? (runMicro (.draw (.glyph 'X' 0 0 0)) (s64 twoWire []))).map (·.trace) = some [.glyphMiss none 0] ∧
    glyphOf (s64 twoWire []).rom 'X' = none ∧ (next? (runMicro (.draw .idle) (s64 twoWire []))).isSome = true ∧
    (next? (runMicro (.draw (.fill true)) (block 64 32 twoWire []))).isSome = true ∧
    (∀ q ∈ (DrawOp.pixel 127 63 true).pixels [], inside 128 64 q.x q.y = true →
      1022 ≠ q.y.toNat / 8 * 128 + q.x.toNat) := by
  decide +kernel

theorem witness_TwoWireTransfers : ∀ a ∈ [Answer.ok, .fail, .hang],
    NotTerminal (s64 twoWire [a]) ∧
      (s64 twoWire [a]).tr = some (.twoWire 0x3C) ∧ (s64 twoWire [a]).nextAnswer = a := by decide

theorem witness_FourWireTransfers : ∀ a ∈ [Answer.ok, .fail, .hang], ∀ d ∈ [CsDraw.deassert, .stay],
    let s := { s64 fourWire [] with env := { answers := [a], csDraws := [d] } }
    NotTerminal s ∧ s.tr = some fourWire ∧ s.nextAnswer = a ∧ s.nextCsDraw = d := by decide

theorem witness_FramesNeedTheirTransport :
    (s64 fourWire []).tr = some fourWire ∧ (s64 twoWire []).tr = some twoWire ∧ fresh.tr = none ∧
    NotTerminal fresh ∧ (Instr.cmdContrast 0).format ≠ .hostRecord ∧
    ({ s64 twoWire [] with phase := .failed }).phase = .failed := by decide

theorem witness_WireInstructionsFrame : (Instr.cmdContrast 0x40).format ≠ .hostRecord ∧
    (next? (exec (.cmdContrast 0x40) (s64 twoWire [.ok, .fail]))).isSome = true ∧
    (next? (exec (.spiDataTransfer [0x01]) (s64 fourWire [.hang]))).isSome = true := by decide +kernel

/-- One, two and three bytes answered ok, on either transport, with no group open or with `sync` lost. -/
theorem witness_commands : ∀ t ∈ [twoWire, fourWire], ∀ n ∈ [1, 2, 3],
    let s := s64 t (List.replicate n .ok)
    NotTerminal s ∧ s.tr = some t ∧ s.panel.sync = true ∧ s.panel.pend = none ∧
      s.env.answers = List.replicate n .ok ∧ ({ s with panel := s.panel.lose }).panel.sync = false := by decide

theorem witness_GroupStopsAtAFailedByte : ∀ bad ∈ [Answer.fail, .hang],
    let s := s64 twoWire [.ok, bad]
    NotTerminal s ∧ bad ≠ .ok ∧ s.tr = some twoWire ∧ (Instr.cmdContrast 0x7F).format = .wireCommand ∧
      encode (.cmdContrast 0x7F) = [0x81] ++ 0x7F :: [] ∧ s.panel.sync = true ∧ s.panel.pend = none ∧
      s.env.answers = List.replicate ([0x81] : List Byte).length Answer.ok ++ bad :: [] := by decide

theorem witness_SyncIsLostForGood :
    let s := { poweringOn twoWire [.ok] with panel := { sync := false } }
    s.panel.sync = false ∧ (next? (step s)).isSome = true := by decide +kernel

theorem witness_ConstructIsIssued : fresh.phase = .uninit ∧ Unbuilt fresh := ⟨rfl, unbuilt_fresh⟩

theorem witness_ConstructionCompletes :
    let s := { fresh with env := { answers := List.replicate 32 .ok } }
    s.phase = .uninit ∧ s.panel = {} ∧ (64 = 64 ∨ 64 = 128) ∧ (32 = 32 ∨ 32 = 64) ∧ AnswersOk 32 s :=
  ⟨rfl, rfl, .inl rfl, .inl rfl, [], rfl⟩

theorem witness_UnsupportedGeometryFailsConstruction : fresh.phase = .uninit ∧ Unbuilt fresh ∧
    ¬(((96 : Int) = 64 ∨ (96 : Int) = 128) ∧ ((64 : Int) = 32 ∨ (64 : Int) = 64)) ∧
    ¬(((128 : Int) = 64 ∨ (128 : Int) = 128) ∧ ((48 : Int) = 32 ∨ (48 : Int) = 64)) :=
  ⟨rfl, unbuilt_fresh, by decide, by decide⟩

/-- Ready, constructed, with as many ok answers as an operation asks (25, 7, 1, 2, 14). -/
theorem witness_controller_operations (n : Nat) (t : Transport) :
    let s := s64 t (List.replicate n .ok)
    s.phase = .ready ∧ Built s ∧ s.width = some 128 ∧ s.height = some 64 ∧ s.extVcc = some false ∧ s.fb = some [] ∧
      s.tr = some t ∧ AnswersOk n s := ⟨rfl, built_s64 _ _, rfl, rfl, rfl, rfl, rfl, [], by simp [block]⟩

theorem witness_ProgramLengths :
    (expansion (.construct 128 64 false .twoWire) fresh).map (·.length) = some 35 ∧
    (expansion (.construct 128 64 false .fourWire) fresh).map (·.length) = some 43 ∧
    (expansion .initSequence (s64 twoWire [])).map (·.length) = some 26 ∧
    (expansion .flush (s64 twoWire [])).map (·.length) = some 7 ∧
    (expansion (.setInverted 1) fresh).map (·.length) = some 2 ∧
    (expansion (.setContrast 0) fresh).map (·.length) = some 3 ∧
    (expansion (.drawWideGlyphs [] 0 0) fresh).map (·.length) = some 1 ∧
    (expansion (.clear 0) fresh).map (·.length) = some 1 := by decide +kernel

theorem witness_CommandFailureEndsTheOperation : ∀ p ∈ [Phase.constructing, .busy],
    let s := { poweringOn twoWire [.fail] with phase := p }
    (s.phase = .constructing ∨ s.phase = .busy) ∧ s.op = some .powerOn ∧ s.tr = some twoWire ∧
      s.prog[s.seq]? = some (.cmd 0xAF) ∧ s.nextAnswer = .fail := by decide +kernel

theorem witness_DataFailureEndsTheOperation : ∀ p ∈ [Phase.constructing, .busy],
    let s := { flushing fourWire [.fail] with phase := p }
    (s.phase = .constructing ∨ s.phase = .busy) ∧ s.op = some .flush ∧ s.tr = some fourWire ∧ s.width = some 128 ∧
      s.pages = some 8 ∧ s.fb = some [] ∧ s.prog[s.seq]? = some .data ∧ s.nextAnswer = .fail := by decide +kernel

theorem witness_UnansweredTransferHangs : (poweringOn fourWire [.hang]).phase = .busy ∧
    (poweringOn fourWire [.hang]).tr = some fourWire ∧
    (poweringOn fourWire [.hang]).prog[(poweringOn fourWire [.hang]).seq]? = some (.cmd 0xAF) ∧
    (poweringOn fourWire [.hang]).nextAnswer = .hang ∧
    (flushing twoWire [.hang]).prog[(flushing twoWire [.hang]).seq]? = some .data ∧
    (flushing twoWire [.hang]).nextAnswer = .hang := by decide +kernel

/-- A step from each phase that has one, with only host operations queued. -/
theorem witness_PhaseMovesAreTheDiagrams :
    (HostOnly (queued [flushRecord] fresh) ∧ (next? (step (queued [flushRecord] fresh))).isSome = true) ∧
    (HostOnly (queued [flushRecord] (s64 twoWire [])) ∧
      (next? (step (queued [flushRecord] (s64 twoWire [])))).isSome = true) ∧
    (HostOnly (poweringOn twoWire [.ok]) ∧ (next? (step (poweringOn twoWire [.ok]))).isSome = true) ∧
    (next? (step { poweringOn twoWire [.fail] with phase := .constructing })).map (·.phase) = some .failed ∧
    (next? (step { queued [flushRecord] (s64 twoWire []) with phase := .failed })).map (·.phase) = some .refused := by
  unfold HostOnly
  decide +kernel

/-- A step, for the statements about every step; the mark may be set before it. -/
theorem witness_everyStep : (next? (step { s64 twoWire [] with refused := true })).isSome = true ∧
    (next? (step (poweringOn fourWire [.fail]))).isSome = true := by decide +kernel

theorem witness_GeometryIsWrittenOnce : ∃ s t, Inv s ∧ Built s ∧ step s = .next t :=
  ⟨queued [flushRecord] (s64 twoWire []), _, inv_s64 [] [flushRecord] (by decide), built_s64 twoWire [], rfl⟩

/-- A step of an operation that is not its last, and one that completes it and writes a field. -/
theorem witness_ShadowFieldsChangeOnlyByCommit :
    let s := { poweringOn twoWire [.ok] with powerOn := some false }
    let u := { s with seq := 1 }
    (next? (step s)).map (fun t => (t.phase, t.powerOn)) = some (.busy, some false) ∧
      (next? (step u)).map (fun t => (t.phase, t.result, t.powerOn, t.contrast)) =
        some (.ready, some .ok, some true, some 0xFF) := by
  decide +kernel

theorem witness_FramebufferChangesOnlyByDrawing :
    let s := during (.clear 1) [.draw (.fill true)] 0 (block 64 32 twoWire [])
    s.prog[s.seq]? = some (.draw (.fill true)) ∧ (next? (step s)).isSome = true := by decide +kernel

theorem witness_GroupsStartWithListedOpcodes : Inv (poweringOn twoWire [.ok]) ∧ (poweringOn twoWire [.ok]).phase = .busy ∧
    (poweringOn twoWire [.ok]).panel.sync = true ∧ (poweringOn twoWire [.ok]).panel.pend = none ∧
    (poweringOn twoWire [.ok]).prog[(poweringOn twoWire [.ok]).seq]? = some (.cmd 0xAF) :=
  ⟨inv_poweringOn, rfl, rfl, rfl, rfl⟩

theorem witness_ShadowsAgreeBetweenOperations : ∃ s, Inv s ∧ s.phase = .ready ∧ s.panel.sync = true :=
  ⟨queued [] (s64 twoWire []), inv_s64 [] [] (by decide), rfl, rfl⟩

theorem witness_TransportsAgreeStepByStep : ∃ s t, Inv s ∧ s.phase ≠ .uninit ∧ s.phase ≠ .constructing ∧
    SameButWires s t ∧ s.env.requests = [flushRecord] :=
  ⟨queued [flushRecord] (s64 twoWire []), queued [flushRecord] (s64 fourWire []),
    inv_s64 [] [flushRecord] (by decide), by decide, by decide, ⟨⟨0x3C, rfl⟩, ⟨_, rfl⟩, rfl, rfl, rfl⟩, rfl⟩

theorem witness_FlushShowsThePicture :
    let s := s64 fourWire (List.replicate 7 .ok)
    let panel : RefPanel := { ram := fun _ _ => 0, page := 0, column := 0, parser := s.panel }
    s.phase = .ready ∧ Built s ∧ s.panel.sync = true ∧ s.panel.pend = none ∧ panel.parser = s.panel ∧ AnswersOk 7 s :=
  ⟨rfl, built_s64 _ _, rfl, rfl, rfl, [], rfl⟩

end Sys2Proof.Tests
end

section
/-! SUPPORT. The step with no operation in progress: it takes the host's next request (R8, R200, log 1). -/

namespace Sys2Proof.Machine

theorem step_eq_takeRequest {s : State} (h : s.phase = .uninit ∨ s.phase = .ready ∨ s.phase = .failed) :
    step s = takeRequest s := by
  rcases h with h | h | h <;> simp [step, stepBlock, h]

theorem takeRequest_of_decode {s : State} {r : Request} {rest : List Request} {i : Instr}
    (hq : s.env.requests = r :: rest) (hd : decode r.fmt r.bytes = .ok i) :
    takeRequest s = exec i { s with env := { s.env with requests := rest } } := by
  simp [takeRequest, hq, hd]

/-- Settles O4: the three phases all take a request, and a request that decodes is executed. -/
theorem stepRunsTheDecodedRequest : Obligations.StepRunsTheDecodedRequest := by
  intro s r rest i hphase hqueue hdecode
  rw [step_eq_takeRequest hphase, takeRequest_of_decode hqueue hdecode]

end Sys2Proof.Machine
end

section
/-! SUPPORT. What every step keeps: the frame of a micro-operation, of a request and of the completion check, said once,
and the statements that follow from them (R37 to R39, R41, R44, R45). -/

namespace Sys2Proof.Machine

/-! ## Lost sync through the transfers (R44, R292) -/

theorem sendCommand_sync_lost {s : State} {t : Transport} (b : Byte) (ht : s.tr = some t) (hs : s.panel.sync = false) :
    (s.sendCommand b).panel.sync = false := by
  cases ha : s.nextAnswer with
  | ok => rw [sendCommand_ok b ht ha]; simpa [update_of_lost b hs] using hs
  | fail => rw [sendCommand_fail b ht ha]
  | hang => rw [sendCommand_hang b ht ha]; exact hs

theorem sendBytes_sync_lost {s : State} {t : Transport} (bs : List Byte) (ht : s.tr = some t)
    (hs : s.panel.sync = false) : (s.sendBytes bs).panel.sync = false := by
  induction bs generalizing s t with
  | nil => exact hs
  | cons b bs ih =>
    have h1 := sendCommand_sync_lost b ht hs
    rw [State.sendBytes]
    split
    · obtain ⟨_, t', _, _, -, -, -, hu⟩ := sendCommand_change b ht
      exact ih (t := t') (by rw [hu]) h1
    · exact h1

theorem dataTransfer_panel {s : State} {t : Transport} (bs : List Byte) (ht : s.tr = some t) :
    (s.dataTransfer t bs).panel = s.panel := by
  cases ha : s.nextAnswer with
  | ok => rw [dataTransfer_ok bs ht ha]
  | fail => rw [dataTransfer_fail bs ht ha]
  | hang => rw [dataTransfer_hang bs ht ha]

/-! ## Frames -/

/-- What neither a micro-operation nor a request writes (R37 to R39, R78), the trace, which both only add to (R45), and a
lost `sync`, which neither restores (R44). -/
structure StepFrame (s u : State) : Prop where
  powerOn  : u.powerOn = s.powerOn
  contrast : u.contrast = s.contrast
  inverted : u.inverted = s.inverted
  cfg      : u.cfg = s.cfg
  rom      : u.rom = s.rom
  trace    : ∃ es, u.trace = s.trace ++ es
  lost     : s.panel.sync = false → u.panel.sync = false

/-- The geometry registers and the external-power flag are as they were. -/
structure SameGeometry (s u : State) : Prop where
  width  : u.width = s.width
  height : u.height = s.height
  pages  : u.pages = s.pages
  extVcc : u.extVcc = s.extVcc

/-- What the micro-operation `m` leaves as it was: ALLOC alone writes the geometry, DRAW and ALLOC alone the framebuffer
(R35, R36, R41). -/
structure MicroFrame (m : MicroOp) (s u : State) : Prop extends StepFrame s u where
  prog     : u.prog = s.prog
  refused  : u.refused = s.refused
  requests : u.env.requests = s.env.requests
  geometry : SameGeometry s u ∨ ∃ w h e, m = .alloc w h e
  fb       : u.fb = s.fb ∨ (∃ d, m = .draw d) ∨ ∃ w h e, m = .alloc w h e

/-- What the execution of a request leaves as it was (R218, R324). -/
structure RequestFrame (s t : State) : Prop extends StepFrame s t, SameGeometry s t where
  fb : t.fb = s.fb

theorem StepFrame.refl (s : State) : StepFrame s s := ⟨rfl, rfl, rfl, rfl, rfl, ⟨[], by simp⟩, id⟩

/-- The frame does not speak of the environment. -/
theorem RequestFrame.of_env {s t : State} {env : Env} (h : RequestFrame { s with env := env } t) : RequestFrame s t :=
  { h with }

theorem WireChange.requestFrame {s u : State} (h : WireChange s u)
    (hl : s.panel.sync = false → u.panel.sync = false) : RequestFrame s u := by
  obtain ⟨_, _, _, es, -, -, -, hu⟩ := h
  rw [hu] at hl ⊢
  exact ⟨⟨rfl, rfl, rfl, rfl, rfl, ⟨es, rfl⟩, hl⟩, ⟨rfl, rfl, rfl, rfl⟩, rfl⟩

theorem WireChange.microFrame {s u : State} (m : MicroOp) (h : WireChange s u)
    (hl : s.panel.sync = false → u.panel.sync = false) : MicroFrame m s u := by
  have hreq := h.requestFrame hl
  obtain ⟨_, _, env, _, -, -, henv, hu⟩ := h
  exact ⟨hreq.toStepFrame, by rw [hu], by rw [hu], by rw [hu]; exact henv, .inl hreq.toSameGeometry, .inl hreq.fb⟩

theorem runCheckGeometry_frame (m : MicroOp) (w h : Int) (s : State) : MicroFrame m s (runCheckGeometry w h s) := by
  unfold runCheckGeometry
  split
  · exact ⟨⟨rfl, rfl, rfl, rfl, rfl, ⟨[], by simp⟩, id⟩, rfl, rfl, rfl, .inl ⟨rfl, rfl, rfl, rfl⟩, .inl rfl⟩
  · exact ⟨⟨rfl, rfl, rfl, rfl, rfl, ⟨_, rfl⟩, id⟩, rfl, rfl, rfl, .inl ⟨rfl, rfl, rfl, rfl⟩, .inl rfl⟩

theorem runMicro_frame {m : MicroOp} {s u : State} (hr : s.phase.running = true) (hu : runMicro m s = .next u) :
    MicroFrame m s u := by
  rcases runMicro_cases (halted_of_running hr) hu with ⟨b, t, -, ht, rfl⟩ | ⟨w, p, g, t, -, -, -, -, ht, rfl⟩ |
    ⟨l, v, r, -, -, rfl⟩ | ⟨n, -, rfl⟩ | ⟨w, h, -, rfl⟩ | ⟨w, h, e, rfl, rfl⟩ | ⟨d, w, h, p, g, rfl, -, -, -, -, rfl⟩ |
    ⟨c, -, rfl⟩
  · exact (sendCommand_change b ht).microFrame m (sendCommand_sync_lost b ht)
  · exact (dataTransfer_change _ ht).microFrame m (by rw [dataTransfer_panel _ ht]; exact id)
  · exact ⟨⟨rfl, rfl, rfl, rfl, rfl, ⟨_, rfl⟩, id⟩, rfl, rfl, rfl, .inl ⟨rfl, rfl, rfl, rfl⟩, .inl rfl⟩
  · exact ⟨⟨rfl, rfl, rfl, rfl, rfl, ⟨_, rfl⟩, id⟩, rfl, rfl, rfl, .inl ⟨rfl, rfl, rfl, rfl⟩, .inl rfl⟩
  · exact runCheckGeometry_frame m w h s
  · exact ⟨⟨rfl, rfl, rfl, rfl, rfl, ⟨[], by simp [runAlloc]⟩, id⟩, rfl, rfl, rfl, .inr ⟨w, h, e, rfl⟩,
      .inr (.inr ⟨w, h, e, rfl⟩)⟩
  · exact ⟨⟨rfl, rfl, rfl, rfl, rfl, ⟨_, rfl⟩, id⟩, rfl, rfl, rfl, .inl ⟨rfl, rfl, rfl, rfl⟩, .inr (.inl ⟨d, rfl⟩)⟩
  · exact ⟨⟨rfl, rfl, rfl, rfl, rfl, ⟨[], by simp⟩, id⟩, rfl, rfl, rfl, .inl ⟨rfl, rfl, rfl, rfl⟩, .inl rfl⟩

/-- An instruction that goes on: a refusal, an issue, or transfers. -/
theorem exec_frame {i : Instr} {s t : State} (h : exec i s = .next t) : RequestFrame s t := by
  by_cases hf : i.format = .hostRecord
  · rcases exec_host_cases hf h with ⟨-, e, rfl⟩ | ⟨-, w, h', e, k, -, rfl⟩ | ⟨-, -, -, p, -, rfl⟩
    · exact ⟨⟨rfl, rfl, rfl, rfl, rfl, ⟨_, rfl⟩, id⟩, ⟨rfl, rfl, rfl, rfl⟩, rfl⟩
    · exact ⟨⟨rfl, rfl, rfl, rfl, rfl, ⟨[], by simp⟩, id⟩, ⟨rfl, rfl, rfl, rfl⟩, rfl⟩
    · exact ⟨⟨rfl, rfl, rfl, rfl, rfl, ⟨[], by simp⟩, id⟩, ⟨rfl, rfl, rfl, rfl⟩, rfl⟩
  · rcases exec_wire_cases hf h with ⟨-, rfl⟩ | ⟨-, tr, htr, ⟨b, bs, rfl⟩ | ⟨bs, rfl⟩⟩
    · exact ⟨⟨rfl, rfl, rfl, rfl, rfl, ⟨_, rfl⟩, id⟩, ⟨rfl, rfl, rfl, rfl⟩, rfl⟩
    · exact (sendBytes_change b bs htr).requestFrame (sendBytes_sync_lost _ htr)
    · exact (dataTransfer_change bs htr).requestFrame (by rw [dataTransfer_panel bs htr]; exact id)

/-! ## Steps by what makes them -/

/-- Either the completion check leaves the state, or the operation is complete (R34, R220). -/
theorem finish_cases (s : State) : s.finish = s ∨
    (s.phase.running = true ∧ s.seq = s.prog.length ∧ s.finish = s.complete) := by
  by_cases hr : s.phase.running = true
  · by_cases he : s.seq = s.prog.length
    · exact .inr ⟨hr, he, finish_end hr he⟩
    · exact .inl (finish_mid he)
  · exact .inl (finish_idle (by simpa using hr))

/-- What makes a step that goes on: a wait or a request, which have `RequestFrame`; a micro-operation with the completion
check; or a completion alone. -/
theorem step_makers {s t : State} (h : step s = .next t) :
    RequestFrame s t ∨
    (s.phase.running = true ∧
      ((∃ m u, s.prog[s.seq]? = some m ∧ MicroFrame m s u ∧ (t = u ∨ t = u.complete)) ∨ t = s.complete)) := by
  rcases step_cases h with ⟨-, ⟨-, rfl⟩ | ⟨r, rest, i, -, -, he⟩⟩ | ⟨hr, ⟨m, u, hm, hu, rfl⟩ | ⟨-, rfl⟩⟩
  · exact .inl ⟨.refl t, ⟨rfl, rfl, rfl, rfl⟩, rfl⟩
  · exact .inl (exec_frame he).of_env
  · refine .inr ⟨hr, .inl ⟨m, u, hm, runMicro_frame hr hu, ?_⟩⟩
    rcases finish_cases u with hf | ⟨-, -, hf⟩
    · exact .inl hf
    · exact .inr hf
  · exact .inr ⟨hr, .inr rfl⟩

/-! ## Statements of every step -/

/-- Settles O36: no outcome of a step restores a lost `sync`, and a lost shadow shows every field unknown. -/
theorem syncIsLostForGood : Obligations.SyncIsLostForGood := by
  intro s t hs h
  suffices ht : t.panel.sync = false from ⟨ht, by simp [Panel.shown, ht]⟩
  rcases step_makers h with hq | ⟨-, ⟨m, u, -, hm, rfl | rfl⟩ | rfl⟩
  · exact hq.lost hs
  · exact hm.lost hs
  · exact hm.lost hs
  · exact hs

/-- Settles O52: each outcome of a step adds its events at the end. -/
theorem traceOnlyGrows : Obligations.TraceOnlyGrows := by
  intro s t h
  rcases step_makers h with hq | ⟨-, ⟨m, u, -, hm, rfl | rfl⟩ | rfl⟩
  · exact hq.trace
  · exact hm.trace
  · obtain ⟨es, hes⟩ := hm.trace
    exact ⟨es ++ [.result u.opName .ok], by simp [hes]⟩
  · exact ⟨_, rfl⟩

/-- A COMMIT's field as the library's choice of the first value. -/
theorem committed_eq_or {α : Type} (new old : Option α) : committed new old = new.or old := by cases new <;> rfl

/-- Settles O55: a request and a micro-operation leave the three fields; a completion writes its COMMIT's. -/
theorem shadowFieldsChangeOnlyByCommit : Obligations.ShadowFieldsChangeOnlyByCommit := by
  intro s t h
  rcases step_makers h with hq | ⟨hr, ⟨m, u, -, hm, rfl | rfl⟩ | rfl⟩
  · exact .inl ⟨hq.powerOn, hq.contrast, hq.inverted⟩
  · exact .inl ⟨hm.powerOn, hm.contrast, hm.inverted⟩
  · refine .inr ⟨running_iff.mp hr, rfl, rfl, ?_⟩
    simp [hm.prog, hm.powerOn, hm.contrast, hm.inverted, committed_eq_or]
  · refine .inr ⟨running_iff.mp hr, rfl, rfl, ?_⟩
    simp [committed_eq_or]

/-- Settles O56: only the micro-operations DRAW and ALLOC write the framebuffer, and no other outcome of a step does. -/
theorem framebufferChangesOnlyByDrawing : Obligations.FramebufferChangesOnlyByDrawing := by
  intro s t h
  rcases step_makers h with hq | ⟨hr, ⟨m, u, hm, hu, htu⟩ | rfl⟩
  · exact .inl hq.fb
  · have hfb : t.fb = u.fb := by rcases htu with rfl | rfl <;> rfl
    rw [hfb]
    rcases hu.fb with hsame | ⟨d, rfl⟩ | ⟨w, h', e, rfl⟩
    · exact .inl hsame
    · exact .inr ⟨running_iff.mp hr, .inl ⟨d, hm⟩⟩
    · exact .inr ⟨running_iff.mp hr, .inr ⟨w, h', e, hm⟩⟩
  · exact .inl rfl

end Sys2Proof.Machine
end

section
/-! SUPPORT. The sequencer's step as the spec words it (R32, R34, R220), and what the invariant says at power-up and
between operations. -/

namespace Sys2Proof.Machine

theorem finish_eq_ite (s : State) :
    s.finish = if (s.phase = .constructing ∨ s.phase = .busy) ∧ s.seq = s.prog.length then s.complete else s := by
  simp [State.finish, running_iff]

theorem step_of_fault {s : State} {m : MicroOp} {f : Fault} (hr : s.phase.running = true)
    (hm : s.prog[s.seq]? = some m) (hf : runMicro m s = .fault f) : step s = .fault f := by
  rcases running_iff.mp hr with h | h <;> simp [step, stepBlock, h, sequencerStep, hm, hf, thenFinish]

/-- Settles O5: the sequencer runs the micro-operation and checks for completion; CMD and DATA are the frames. -/
theorem stepRunsTheProgram : Obligations.StepRunsTheProgram := by
  intro s m hp hm
  have hr : s.phase.running = true := running_iff.mpr hp
  refine ⟨fun t ht => ?_, fun f hf => step_of_fault hr hm hf, ?_, ?_, ?_, ?_⟩
  · rw [step_running hr hm ht, finish_eq_ite]
  · rintro b a rfl ht
    simp [runMicro, runCmd, ht]
  · rintro b r rfl ht
    simp [runMicro, runCmd, ht]
  · rintro w p g a rfl hw hpg hg ht
    simp [runMicro, runData, flushPayload_eq hw hpg hg, ht]
  · rintro w p g r rfl hw hpg hg ht
    simp [runMicro, runData, flushPayload_eq hw hpg hg, ht]

/-- Settles O8: the fields of `State.reset` are R51's. -/
theorem powerUpState : Obligations.PowerUpState := by
  refine ⟨rfl, rfl, rfl, rfl, rfl, rfl, rfl, rfl, rfl, rfl, rfl, rfl, rfl, rfl, rfl, rfl, rfl, rfl, rfl⟩

/-- Settles O9: nothing is constructed, issued or queued, and the glyph ROM is in canonical form. -/
theorem powerUpMeetsTheInvariant : Obligations.PowerUpMeetsTheInvariant where
  geometry := .inr ⟨rfl, rfl, rfl, rfl, rfl⟩
  phaseFits := ⟨⟨rfl, rfl, rfl, rfl, rfl⟩, rfl, rfl⟩
  mark := by simp [State.reset]
  romFits := GlyphRom.wf_ofList _
  wires := by simp [State.reset]
  host := by simp [HostOnly, State.reset]
  agree := fun _ _ _ _ => ⟨rfl, rfl, rfl, rfl, rfl⟩
  filled := ⟨fun _ => ⟨rfl, rfl, rfl⟩, by simp [State.reset], by simp [State.reset]⟩
  image := by simp [FlushedFits, State.reset]

/-- With no operation in progress the two shadows agree as they stand. -/
theorem panelMatches_of_idle {s : State} (ha : ShadowsAgree s) (hr : s.phase.running = false) (ht : NotTerminal s)
    (hs : s.panel.sync = true) : PanelMatches s.panel s := by
  obtain ⟨hf, hrf, hh⟩ := ht
  simpa [remaining_idle hr, cmdBytes, atEnd_idle hr] using ha hh hf hrf hs

/-- Settles O58: in Ready nothing remains to run, so the invariant's agreement is of the fields as they stand. -/
theorem shadowsAgreeBetweenOperations : Obligations.ShadowsAgreeBetweenOperations := by
  intro s hs hp hsync
  obtain ⟨-, hpend, hon, hcon, hinv⟩ :=
    panelMatches_of_idle hs.agree (by simp [hp, Phase.running]) (by simp [NotTerminal, hp]) hsync
  obtain ⟨-, hhold, -⟩ := hs.filled
  simpa [Panel.shown, hsync, hpend, hon, hcon, hinv, ShadowsHold] using hhold (.inl hp)

end Sys2Proof.Machine
end

section
/-! SUPPORT. Every step keeps the invariant: requests, micro-operations that go on, error ends and completion, one lemma
each (R31 to R48, R219, R291, R292; log 29). -/

namespace Sys2Proof.Machine

/-! ## Agreement of the two shadows -/

@[simp] theorem State.commit_empty (s : State) : s.commit {} = s := rfl

/-- The controller's three shadow fields are the same in two states. -/
structure SameShadows (s t : State) : Prop where
  powerOn  : t.powerOn = s.powerOn
  contrast : t.contrast = s.contrast
  inverted : t.inverted = s.inverted

theorem StepFrame.sameShadows {s u : State} (h : StepFrame s u) : SameShadows s u :=
  ⟨h.powerOn, h.contrast, h.inverted⟩

theorem SameShadows.commit {s t : State} (h : SameShadows s t) (u : Commit) :
    SameShadows (s.commit u) (t.commit u) := by
  constructor <;> simp [h.powerOn, h.contrast, h.inverted]

theorem PanelMatches.congr {p : Panel} {s t : State} (h : PanelMatches p s) (hst : SameShadows s t) :
    PanelMatches p t := by
  obtain ⟨hs, hp, h1, h2, h3⟩ := h
  exact ⟨hs, hp, h1.trans hst.powerOn.symm, h2.trans hst.contrast.symm, h3.trans hst.inverted.symm⟩

theorem ShadowsHold.congr {s t : State} (h : ShadowsHold s) (hst : SameShadows s t) : ShadowsHold t := by
  simpa [ShadowsHold, hst.powerOn, hst.contrast, hst.inverted] using h

theorem ShadowsEmpty.congr {s t : State} (h : ShadowsEmpty s) (hst : SameShadows s t) : ShadowsEmpty t := by
  simpa [ShadowsEmpty, hst.powerOn, hst.contrast, hst.inverted] using h

/-- A COMMIT takes no field's value away (R219). -/
theorem ShadowsHold.commit {s : State} (h : ShadowsHold s) (u : Commit) : ShadowsHold (s.commit u) := by
  have keep : ∀ {α : Type} (new old : Option α), old.isSome = true → (committed new old).isSome = true := by
    intro α new old ho
    cases new with
    | none => exact ho
    | some v => rfl
  obtain ⟨h1, h2, h3⟩ := h
  exact ⟨keep _ _ h1, keep _ _ h2, keep _ _ h3⟩

theorem panelMatches_init {p : Panel} {s : State} (h : Nat) (e : Bool) (hs : p.sync = true) (hp : p.pend = none) :
    PanelMatches (panelAfter (initBytes h e) p) (s.commit initCommit) := by
  rw [panel_eq_regs hs hp, panelAfter_init]
  exact ⟨rfl, rfl, rfl, rfl, rfl⟩

/-- The flush window writes none of the three registers that the two shadows share. -/
theorem panelMatches_window {p : Panel} {s : State} (w n : Nat) (h : PanelMatches p s) :
    PanelMatches (panelAfter (windowBytes w n) p) s := by
  obtain ⟨hs, hp, h1, h2, h3⟩ := h
  rw [panel_eq_regs hs hp, panelAfter_window]
  exact ⟨rfl, rfl, h1, h2, h3⟩

theorem panelMatches_construct {p : Panel} {s : State} (a : Bool) (w h : Int) (e : Bool) (k : TransportKind)
    (hs : p.sync = true) (hp : p.pend = none) :
    PanelMatches (panelAfter (cmdBytes (constructProgram a w h e k)) p) (s.commit initCommit) := by
  have hb : cmdBytes (constructProgram a w h e k) = initBytes h.toNat e ++ windowBytes w.toNat (h.toNat / 8) := by
    cases k <;> simp [constructProgram, setupProgram, initProgram, flushProgram, cmdBytes]
  rw [hb, panelAfter_append]
  exact panelMatches_window _ _ (panelMatches_init _ _ hs hp)

theorem cmdBytes_glyphProgram (str : List Char) (col row : Int) : cmdBytes (glyphProgram str col row) = [] := by
  have gen : ∀ k, cmdBytes (glyphSteps col row k str) = [] := by
    induction str with
    | nil => intro k; rfl
    | cons c cs ih => intro k; exact ih _
  unfold glyphProgram
  split
  · rfl
  · exact gen 0

/-- The commands of a program write the registers that its COMMIT's update names, and those alone of the three that the
two shadows share (R205, R210, R213 to R216). -/
theorem panelMatches_expansion {i : Instr} {s t : State} {p : List MicroOp} {q : Panel} (hc : isConstruct i = false)
    (he : expansion i t = some p) (h : PanelMatches q s) :
    PanelMatches (panelAfter (cmdBytes p) q) (s.commit (commitOf p)) := by
  obtain ⟨hs, hp, h1, h2, h3⟩ := id h
  cases i
  case construct => simp [isConstruct, opNameOf] at hc
  case initSequence =>
    simp only [expansion, initProgramOf] at he
    split at he <;> simp only [Option.some.injEq, reduceCtorEq] at he
    subst he
    rw [commitOf_init]
    simpa [initProgram, cmdBytes] using panelMatches_init _ _ hs hp
  case flush =>
    simp only [expansion, flushProgramOf] at he
    split at he <;> simp only [Option.some.injEq, reduceCtorEq] at he
    subst he
    rw [commitOf_flush]
    simpa [flushProgram, cmdBytes] using panelMatches_window _ _ h
  case drawWideGlyphs str col row =>
    obtain rfl := Option.some.inj he
    rw [cmdBytes_glyphProgram, commitOf_glyph]
    exact h
  case drawText str col row =>
    obtain rfl := Option.some.inj he
    split <;> exact h
  case powerOn =>
    obtain rfl := Option.some.inj he
    rw [panel_eq_regs hs hp]
    exact ⟨rfl, rfl, rfl, h2, h3⟩
  case powerOff =>
    obtain rfl := Option.some.inj he
    rw [panel_eq_regs hs hp]
    exact ⟨rfl, rfl, rfl, h2, h3⟩
  case setContrast level =>
    obtain rfl := Option.some.inj he
    rw [panel_eq_regs hs hp]
    exact ⟨rfl, rfl, h1, rfl, h3⟩
  case setInverted flag =>
    obtain rfl := Option.some.inj he
    rw [panel_eq_regs hs hp]
    cases bitOf flag <;> exact ⟨rfl, rfl, h1, h2, rfl⟩
  case setPixel | blit | clear =>
    obtain rfl := Option.some.inj he
    exact h
  all_goals cases he

/-! ## An operation in progress -/

/-- What the invariant says of an operation in progress, the same in both phases (R32, R33). -/
structure Running (s : State) (i : Instr) (t : Transport) : Prop where
  op      : s.op = some i
  expands : expansion i s = some s.prog
  tr      : s.tr = some t
  seq     : s.seq < s.prog.length
  runs    : runnable t s.fb.isSome (s.prog.drop s.seq) = true
  kind    : isConstruct i = true ↔ s.phase = .constructing
  legal   : s.phase = .busy → i.wf = true
  built   : s.phase = .busy → Built s

theorem Running.not_construct {s : State} {i : Instr} {t : Transport} (h : Running s i t)
    (hp : s.phase ≠ .constructing) : isConstruct i = false := by
  rw [← Bool.not_eq_true, h.kind]
  exact hp

theorem Built.fb_isSome {s : State} (h : Built s) : s.fb.isSome = true := by
  obtain ⟨_, _, _, _, -, -, -, -, hfb, -⟩ := h
  rw [hfb]
  rfl

theorem phaseFits_running {s : State} (hr : s.phase.running = true) : PhaseFits s ↔ ∃ i t, Running s i t := by
  rcases running_iff.mp hr with hp | hp <;> simp only [PhaseFits, hp]
  · constructor
    · rintro ⟨i, t, hop, hc, he, ht, hseq, hrun⟩
      exact ⟨i, t, hop, he, ht, hseq, hrun, by simp [hc, hp], by simp [hp], by simp [hp]⟩
    · rintro ⟨i, t, h⟩
      exact ⟨i, t, h.op, h.kind.mpr hp, h.expands, h.tr, h.seq, h.runs⟩
  · constructor
    · rintro ⟨i, t, hop, hc, hwf, he, ht, hseq, hrun, hb⟩
      exact ⟨i, t, hop, he, ht, hseq, by rw [hb.fb_isSome]; exact hrun, by simp [hc, hp], fun _ => hwf, fun _ => hb⟩
    · rintro ⟨i, t, h⟩
      have hrun := h.runs
      rw [(h.built hp).fb_isSome] at hrun
      exact ⟨i, t, h.op, h.not_construct (by simp [hp]), h.legal hp, h.expands, h.tr, h.seq, hrun, h.built hp⟩

/-- The expansion reads the configuration, the geometry and the external-power flag alone (R32). -/
theorem expansion_congr {s u : State} (i : Instr) (hcfg : u.cfg = s.cfg) (hg : SameGeometry s u) :
    expansion i u = expansion i s := by
  obtain ⟨hw, hh, hp, he⟩ := hg
  cases i <;> simp only [expansion, initProgramOf, flushProgramOf, hcfg, hw, hh, hp, he]

/-- Construct's expansion reads the configuration alone, so ALLOC does not change it. -/
theorem expansion_construct_congr {s u : State} {i : Instr} (hc : isConstruct i = true) (hcfg : u.cfg = s.cfg) :
    expansion i u = expansion i s := by
  obtain ⟨w, h, e, k, rfl⟩ := isConstruct_iff hc
  simp only [expansion, hcfg]

theorem Running.plain {s : State} {i : Instr} {t : Transport} {m : MicroOp} (h : Running s i t)
    (hp : s.phase ≠ .constructing) (hm : s.prog[s.seq]? = some m) : plainOp m = true := by
  obtain ⟨hall, -⟩ := expansion_plain (h.not_construct hp) h.expands
  exact List.all_eq_true.mp hall m (List.mem_of_getElem? hm)

theorem Running.expands_frame {s u : State} {i : Instr} {t : Transport} {m : MicroOp} (h : Running s i t)
    (hm : s.prog[s.seq]? = some m) (hk : MicroFrame m s u) : expansion i u = some u.prog := by
  rw [hk.prog, ← h.expands]
  rcases hk.geometry with hg | ⟨w, h', e, rfl⟩
  · exact expansion_congr i hk.cfg hg
  · refine expansion_construct_congr (h.kind.mpr ?_) hk.cfg
    by_contra hp
    simpa [plainOp] using h.plain hp hm

/-- The invariant's agreement with the step about to run taken off the program. -/
theorem Inv.agree_next {s : State} {m : MicroOp} (hs : Inv s) (hr : s.phase.running = true)
    (hm : s.prog[s.seq]? = some m) (hsync : s.panel.sync = true) :
    PanelMatches (panelAfter (cmdBytes (s.prog.drop (s.seq + 1))) (panelAfter (cmdBytes [m]) s.panel))
      (s.commit (commitOf s.prog)) := by
  have h := hs.agree
  rcases running_iff.mp hr with hp | hp <;>
  · simp only [ShadowsAgree, hp, ne_eq, reduceCtorEq, not_false_eq_true, true_implies] at h
    rw [← atEnd_running hr, ← panelAfter_append, ← cmdBytes_append, List.singleton_append, ← drop_of_getElem? hm,
      ← remaining_running hr]
    exact h hsync

/-- Completion will leave the three shadow fields with values, in both phases (log 29). -/
theorem Inv.holds_atEnd {s : State} (hs : Inv s) (hr : s.phase.running = true) :
    ShadowsHold (s.commit (commitOf s.prog)) := by
  obtain ⟨-, hhold, hcon⟩ := hs.filled
  rcases running_iff.mp hr with hp | hp
  · rw [← atEnd_running hr]
    exact hcon hp
  · exact (hhold (.inr hp)).commit _

/-! ## A micro-operation that goes on -/

/-- The micro-operation `m` has taken effect and the step index has moved on, with what the invariant needs of the fields
that `MicroFrame` leaves open (R34). -/
structure Advances (m : MicroOp) (s u : State) : Prop where
  phase    : u.phase = s.phase
  op       : u.op = s.op
  seq      : u.seq = s.seq + 1
  geometry : Built u ∨ Unbuilt u
  fb       : s.fb.isSome = true → u.fb.isSome = true
  tr       : ∃ t, u.tr = some t ∧ runnable t u.fb.isSome (s.prog.drop (s.seq + 1)) = true ∧
    (TransportFits u.cfg t ∨ SetupPending u)
  panel    : u.panel = panelAfter (cmdBytes [m]) s.panel
  image    : FlushedFits u

theorem inv_of_advances {s u : State} {m : MicroOp} (hs : Inv s) (hr : s.phase.running = true)
    (hm : s.prog[s.seq]? = some m) (hk : MicroFrame m s u) (ha : Advances m s u) (hmid : u.seq ≠ u.prog.length) :
    Inv u := by
  obtain ⟨i, t, hrun⟩ := (phaseFits_running hr).mp hs.phaseFits
  obtain ⟨t', ht', hruns, hwires⟩ := ha.tr
  have hru : u.phase.running = true := by rw [ha.phase]; exact hr
  have hfilled := hs.filled
  have hshadows := hk.sameShadows
  refine ⟨ha.geometry, (phaseFits_running hru).mpr ⟨i, t', ?_⟩, ?_, ?_, ?_, ?_, ?_, ?_, ha.image⟩
  · refine ⟨ha.op.trans hrun.op, hrun.expands_frame hm hk, ht', ?_, ?_, ?_, ?_, ?_⟩
    · have := hrun.seq
      rw [ha.seq, hk.prog] at hmid ⊢
      omega
    · rw [hk.prog, ha.seq]
      exact hruns
    · rw [ha.phase]
      exact hrun.kind
    · rw [ha.phase]
      exact hrun.legal
    · rw [ha.phase]
      exact fun hp => built_isSome ha.geometry (ha.fb (hrun.built hp).fb_isSome)
  · rw [hk.refused, ha.phase]
    exact hs.mark
  · rw [hk.rom]
    exact hs.romFits
  · rintro t'' ht''
    obtain rfl : t' = t'' := by simpa [ht'] using ht''
    exact hwires
  · rw [HostOnly, hk.requests]
    exact hs.host
  · intro _ _ _ hsync
    rw [remaining_running hru, atEnd_running hru, hk.prog, ha.seq, ha.panel]
    rw [ha.panel] at hsync
    exact (hs.agree_next hr hm (sync_of_panelAfter hsync)).congr (hshadows.commit _)
  · obtain ⟨hempty, hhold, -⟩ := hfilled
    refine ⟨fun hp => ?_, fun hp => ?_, fun _ => ?_⟩
    · exact (hempty (by rw [← ha.phase]; exact hp)).congr hshadows
    · exact (hhold (by rw [← ha.phase]; exact hp)).congr hshadows
    · rw [atEnd_running hru, hk.prog]
      exact (hs.holds_atEnd hr).congr (hshadows.commit _)

theorem inv_complete {s u : State} {m : MicroOp} (hs : Inv s) (hr : s.phase.running = true)
    (hm : s.prog[s.seq]? = some m) (hk : MicroFrame m s u) (ha : Advances m s u) (hend : u.seq = u.prog.length) :
    Inv u.complete := by
  obtain ⟨t, ht, hruns, hwires⟩ := ha.tr
  have hdrop : s.prog.drop (s.seq + 1) = [] := by
    rw [← hk.prog, ← ha.seq, hend]
    exact List.drop_length
  have hbuilt : Built u := built_isSome ha.geometry (by rw [hdrop] at hruns; exact hruns)
  have hshadows : SameShadows (s.commit (commitOf s.prog)) u.complete := by
    obtain ⟨hon, hcon, hinv⟩ := hk.sameShadows.commit (commitOf u.prog)
    rw [← hk.prog]
    exact ⟨hon, hcon, hinv⟩
  refine ⟨.inl hbuilt, ⟨hbuilt, rfl, by simp [ht]⟩, ?_, ?_, ?_, ?_, ?_, ?_, ha.image⟩
  · have hnot : s.phase ≠ .refused := by rintro hp; simp [hp, Phase.running] at hr
    simpa [hk.refused, hs.mark] using hnot
  · rw [State.complete_rom, hk.rom]
    exact hs.romFits
  · rintro t' ht'
    obtain rfl : t = t' := by simpa [ht] using ht'
    rcases hwires with hfits | ⟨-, hlt, _, _, _, htake⟩
    · exact .inl hfits
    · have := congrArg List.length htake
      simp at this
      omega
  · rw [HostOnly, State.complete_env, hk.requests]
    exact hs.host
  · intro _ _ _ hsync
    rw [State.complete_panel] at hsync
    have hsame := hs.agree_next hr hm (sync_of_panelAfter (by rw [← ha.panel]; exact hsync))
    rw [hdrop, ← ha.panel] at hsame
    rw [remaining_idle rfl, atEnd_idle rfl]
    exact hsame.congr hshadows
  · exact ⟨by simp, fun _ => (hs.holds_atEnd hr).congr hshadows, by simp⟩

/-! ## A micro-operation that ends the operation -/

/-- The operation has ended in an error or in a hang (R181, R328), with what the invariant needs. -/
structure Stops (s u : State) : Prop where
  phase : u.phase = s.phase.afterError ∨ u.phase = .hung
  op    : u.op = none
  same  : SameGeometry s u
  fb    : u.fb = s.fb
  tr    : ∃ t, u.tr = some t ∧ TransportFits u.cfg t
  agree : s.phase = .busy → u.phase = .ready → u.panel.sync = true → PanelMatches u.panel u
  image : FlushedFits u

theorem Built.congr {s u : State} (h : Built s) (hg : SameGeometry s u) (hfb : u.fb = s.fb) : Built u := by
  simpa only [Built, hg.width, hg.height, hg.pages, hg.extVcc, hfb] using h

theorem Unbuilt.congr {s u : State} (h : Unbuilt s) (hg : SameGeometry s u) (hfb : u.fb = s.fb) : Unbuilt u := by
  simpa only [Unbuilt, hg.width, hg.height, hg.pages, hg.extVcc, hfb] using h

theorem Stops.phase_cases {s u : State} (h : Stops s u) (hr : s.phase.running = true) :
    (s.phase = .constructing ∧ u.phase = .failed) ∨ (s.phase = .busy ∧ u.phase = .ready) ∨ u.phase = .hung := by
  have hph := h.phase
  rcases running_iff.mp hr with hp | hp <;> simpa [hp, Phase.afterError] using hph

theorem inv_of_stops {s u : State} {m : MicroOp} (hs : Inv s) (hr : s.phase.running = true) (hk : MicroFrame m s u)
    (hu : Stops s u) : Inv u := by
  obtain ⟨i, t, hrun⟩ := (phaseFits_running hr).mp hs.phaseFits
  obtain ⟨t', ht', hfits⟩ := hu.tr
  have htr : u.tr.isSome = true := by rw [ht']; rfl
  have hph := hu.phase_cases hr
  have hrs : s.phase ≠ .refused := by rintro hp; simp [hp, Phase.running] at hr
  obtain ⟨hempty, hhold, -⟩ := hs.filled
  refine ⟨?_, ?_, ?_, ?_, ?_, ?_, ?_, ?_, hu.image⟩
  · exact hs.geometry.imp (·.congr hu.same hu.fb) (·.congr hu.same hu.fb)
  · rcases hph with ⟨-, hp⟩ | ⟨hb, hp⟩ | hp <;> simp only [PhaseFits, hp]
    · exact ⟨hu.op, htr⟩
    · exact ⟨(hrun.built hb).congr hu.same hu.fb, hu.op, htr⟩
    · exact ⟨hu.op, htr⟩
  · rw [hk.refused, hs.mark]
    rcases hph with ⟨-, hp⟩ | ⟨-, hp⟩ | hp <;> simp [hp, hrs]
  · rw [hk.rom]
    exact hs.romFits
  · rintro t'' ht''
    obtain rfl : t' = t'' := by simpa [ht'] using ht''
    exact .inl hfits
  · rw [HostOnly, hk.requests]
    exact hs.host
  · intro hnh hnf _ hsync
    rcases hph with ⟨-, hp⟩ | ⟨hb, hp⟩ | hp
    · exact absurd hp hnf
    · have hidle : u.phase.running = false := by rw [hp]; rfl
      rw [remaining_idle hidle, atEnd_idle hidle]
      exact hu.agree hb hp hsync
    · exact absurd hp hnh
  · rcases hph with ⟨hc, hp⟩ | ⟨hb, hp⟩ | hp
    · exact ⟨fun _ => (hempty (.inr (.inl hc))).congr hk.sameShadows, by simp [hp], by simp [hp]⟩
    · exact ⟨by simp [hp], fun _ => (hhold (.inr hb)).congr hk.sameShadows, by simp [hp]⟩
    · exact ⟨by simp [hp], by simp [hp], by simp [hp]⟩

/-! ## The micro-operations one by one -/

/-- A line's level decides nothing about what can run on a 4-wire transport. -/
theorem runnable_fourWire (r r' : FourWireRegs) (ms : List MicroOp) (b : Bool) :
    runnable (.fourWire r') b ms = runnable (.fourWire r) b ms := by
  induction ms generalizing b with
  | nil => rfl
  | cons m ms ih => cases m <;> simp only [runnable, ih]

theorem Running.runs_from {s : State} {i : Instr} {t : Transport} {m : MicroOp} (h : Running s i t)
    (hm : s.prog[s.seq]? = some m) : runnable t s.fb.isSome (m :: s.prog.drop (s.seq + 1)) = true := by
  rw [← drop_of_getElem? hm]
  exact h.runs

section
variable {s : State} {i : Instr} {t : Transport} (hs : Inv s) (hrun : Running s i t)
include hs hrun

theorem Running.fits {m : MicroOp} (hm : s.prog[s.seq]? = some m) (hl : ∀ l v, m ≠ .line l v) :
    TransportFits s.cfg t :=
  fits_of_step (hs.wires t hrun.tr) hm hl

theorem sendCommand_preserves {b : Byte} (hm : s.prog[s.seq]? = some (.cmd b)) :
    Advances (.cmd b) s (s.sendCommand b) ∨ Stops s (s.sendCommand b) := by
  have hfits := hrun.fits hs hm (by simp)
  cases ha : s.nextAnswer with
  | ok =>
    rw [sendCommand_ok b hrun.tr ha]
    refine .inl ⟨rfl, rfl, rfl, hs.geometry, id, ⟨_, rfl, ?_, .inl ?_⟩, rfl, hs.image⟩
    · rw [runnable_congr (sameVariant_ok t false)]
      exact hrun.runs_from hm
    · exact fits_same (sameVariant_ok t false) hfits
  | fail =>
    rw [sendCommand_fail b hrun.tr ha]
    exact .inr ⟨.inl rfl, rfl, ⟨rfl, rfl, rfl, rfl⟩, rfl, ⟨_, rfl, fits_same (sameVariant_bad t false _ _) hfits⟩,
      by simp, hs.image⟩
  | hang =>
    rw [sendCommand_hang b hrun.tr ha]
    exact .inr ⟨.inr rfl, rfl, ⟨rfl, rfl, rfl, rfl⟩, rfl, ⟨_, rfl, fits_same (sameVariant_bad t false _ _) hfits⟩,
      by simp, hs.image⟩

/-- A DATA step outside a construction is the last of a program without a COMMIT, so the shadows agree before it. -/
theorem Running.agree_at_data (hb : s.phase = .busy) (hm : s.prog[s.seq]? = some .data) (hsync : s.panel.sync = true) :
    PanelMatches s.panel s := by
  have hr : s.phase.running = true := running_iff.mpr (.inr hb)
  obtain ⟨-, hlast, -⟩ := expansion_plain (hrun.not_construct (by simp [hb])) hrun.expands
  obtain ⟨hrest, hcommit⟩ := hlast s.seq _ (drop_of_getElem? hm)
  have h := hs.agree_next hr hm hsync
  rw [hrest, hcommit] at h
  exact h

theorem dataTransfer_preserves {w p : Nat} {g : Memory} (hw : s.width = some w) (hp : s.pages = some p)
    (hm : s.prog[s.seq]? = some .data) :
    Advances .data s (s.dataTransfer t (g.bytes (p * w))) ∨ Stops s (s.dataTransfer t (g.bytes (p * w))) := by
  have hfits := hrun.fits hs hm (by simp)
  cases ha : s.nextAnswer with
  | ok =>
    rw [dataTransfer_ok _ hrun.tr ha]
    refine .inl ⟨rfl, rfl, rfl, hs.geometry, id, ⟨_, rfl, ?_, .inl ?_⟩, rfl, ?_⟩
    · rw [runnable_congr (sameVariant_ok t true)]
      exact (Bool.and_eq_true_iff.mp (hrun.runs_from hm)).2
    · exact fits_same (sameVariant_ok t true) hfits
    · rintro bs hbs
      obtain rfl : g.bytes (p * w) = bs := by simpa using hbs
      exact ⟨w, p, hw, hp, by simp⟩
  | fail =>
    rw [dataTransfer_fail _ hrun.tr ha]
    exact .inr ⟨.inl rfl, rfl, ⟨rfl, rfl, rfl, rfl⟩, rfl, ⟨_, rfl, fits_same (sameVariant_bad t true _ _) hfits⟩,
      fun hb _ hsync => (hrun.agree_at_data hs hb hm hsync).congr ⟨rfl, rfl, rfl⟩, by simp [FlushedFits]⟩
  | hang =>
    rw [dataTransfer_hang _ hrun.tr ha]
    exact .inr ⟨.inr rfl, rfl, ⟨rfl, rfl, rfl, rfl⟩, rfl, ⟨_, rfl, fits_same (sameVariant_bad t true _ _) hfits⟩,
      by simp, hs.image⟩

theorem driveLine_preserves {l : Line} {v : Bool} {r : FourWireRegs} (ht : s.tr = some (.fourWire r))
    (hm : s.prog[s.seq]? = some (.line l v)) : Advances (.line l v) s (s.driveLine r l v).advance := by
  obtain rfl : Transport.fourWire r = t := by simpa [hrun.tr] using ht.symm
  refine ⟨rfl, rfl, rfl, hs.geometry, id, ⟨_, rfl, ?_, ?_⟩, rfl, hs.image⟩
  · rw [runnable_fourWire r]
    exact hrun.runs_from hm
  · exact fits_of_line (hs.wires _ ht) hm

theorem sleep_preserves {n : Nat} (hm : s.prog[s.seq]? = some (.sleep n)) :
    Advances (.sleep n) s (s.emit [.sleep n]).advance := by
  have hfits := hrun.fits hs hm (by simp)
  exact ⟨rfl, rfl, rfl, hs.geometry, id, ⟨t, hrun.tr, hrun.runs_from hm, .inl hfits⟩, rfl, hs.image⟩

theorem commit_preserves {c : Commit} (hm : s.prog[s.seq]? = some (.commit c)) : Advances (.commit c) s s.advance := by
  have hfits := hrun.fits hs hm (by simp)
  exact ⟨rfl, rfl, rfl, hs.geometry, id, ⟨t, hrun.tr, hrun.runs_from hm, .inl hfits⟩, rfl, hs.image⟩

theorem runCheckGeometry_preserves {w h : Int} (hm : s.prog[s.seq]? = some (.checkGeometry w h)) :
    Advances (.checkGeometry w h) s (runCheckGeometry w h s) ∨ Stops s (runCheckGeometry w h s) := by
  have hfits := hrun.fits hs hm (by simp)
  unfold runCheckGeometry
  split
  · rename_i hok
    have hruns := hrun.runs_from hm
    rw [runnable, if_pos hok] at hruns
    exact .inl ⟨rfl, rfl, rfl, hs.geometry, id, ⟨t, hrun.tr, hruns, .inl hfits⟩, rfl, hs.image⟩
  · refine .inr ⟨.inl rfl, rfl, ⟨rfl, rfl, rfl, rfl⟩, rfl, ⟨t, hrun.tr, hfits⟩, fun hb => ?_, hs.image⟩
    have := hrun.plain (by simp [hb]) hm
    simp [plainOp] at this

theorem runAlloc_preserves {w h : Int} {e : Bool} (hm : s.prog[s.seq]? = some (.alloc w h e)) :
    Advances (.alloc w h e) s (runAlloc w h e s) := by
  have hruns := hrun.runs_from hm
  simp only [runnable, Bool.and_eq_true, Bool.not_eq_true', geometryOk, Bool.or_eq_true, beq_iff_eq] at hruns
  obtain ⟨⟨hnone, hw, hh⟩, htail⟩ := hruns
  have hun : Unbuilt s := by
    rcases hs.geometry with hb | hu
    · rw [hb.fb_isSome] at hnone
      cases hnone
    · exact hu
  have hfits := hrun.fits hs hm (by simp)
  refine ⟨rfl, rfl, rfl, .inl ?_, fun _ => rfl, ⟨t, hrun.tr, htail, .inl hfits⟩, rfl, ?_⟩
  · exact ⟨w.toNat, h.toNat, e, _, rfl, rfl, rfl, rfl, rfl, by omega, by omega, Memory.wf_filled _ _⟩
  · intro bs hbs
    obtain ⟨w', p', hw', -⟩ := hs.image bs hbs
    rw [hun.1] at hw'
    cases hw'

theorem runDraw_preserves {d : DrawOp} {w h p : Nat} {g : Memory} (hw : s.width = some w) (hh : s.height = some h)
    (hp : s.pages = some p) (hg : s.fb = some g) (hm : s.prog[s.seq]? = some (.draw d)) :
    Advances (.draw d) s { s with
      fb := some (d.run s.rom w h p g), trace := s.trace ++ d.events s.rom, seq := s.seq + 1 } := by
  have hfits := hrun.fits hs hm (by simp)
  have hruns := hrun.runs_from hm
  rw [hg] at hruns
  refine ⟨rfl, rfl, rfl, .inl ?_, fun _ => rfl, ⟨t, hrun.tr, hruns, .inl hfits⟩, rfl, hs.image⟩
  obtain ⟨w', h', e, m, hw', hh', hp', he, hm', hws, hhs, hwf⟩ := built_isSome hs.geometry (by rw [hg]; rfl)
  obtain ⟨rfl, rfl, rfl, rfl⟩ : w' = w ∧ h' = h ∧ p = h' / 8 ∧ m = g := by simp_all
  exact ⟨w', h', e, _, hw, hh, hp, he, rfl, hws, hhs, wf_run _ _ (by omega) hwf⟩

end

/-- Everything a micro-operation that goes on does to a state that meets the invariant. -/
theorem runMicro_preserves {s u : State} {m : MicroOp} (hs : Inv s) (hr : s.phase.running = true)
    (hm : s.prog[s.seq]? = some m) (hu : runMicro m s = .next u) : Advances m s u ∨ Stops s u := by
  obtain ⟨i, t, hrun⟩ := (phaseFits_running hr).mp hs.phaseFits
  rcases runMicro_cases (halted_of_running hr) hu with ⟨b, t', rfl, -, rfl⟩ | ⟨w, p, g, t', rfl, hw, hp, -, ht, rfl⟩ |
    ⟨l, v, r, rfl, ht, rfl⟩ | ⟨n, rfl, rfl⟩ | ⟨w, h, rfl, rfl⟩ | ⟨w, h, e, rfl, rfl⟩ |
    ⟨d, w, h, p, g, rfl, hw, hh, hp, hg, rfl⟩ | ⟨c, rfl, rfl⟩
  · exact sendCommand_preserves hs hrun hm
  · obtain rfl : t' = t := by simpa [hrun.tr] using ht.symm
    exact dataTransfer_preserves hs hrun hw hp hm
  · exact .inl (driveLine_preserves hs hrun ht hm)
  · exact .inl (sleep_preserves hs hrun hm)
  · exact runCheckGeometry_preserves hs hrun hm
  · exact .inl (runAlloc_preserves hs hrun hm)
  · exact .inl (runDraw_preserves hs hrun hw hh hp hg hm)
  · exact .inl (commit_preserves hs hrun hm)

theorem inv_finish {s u : State} {m : MicroOp} (hs : Inv s) (hr : s.phase.running = true)
    (hm : s.prog[s.seq]? = some m) (hu : runMicro m s = .next u) : Inv u.finish := by
  have hk := runMicro_frame hr hu
  rcases runMicro_preserves hs hr hm hu with ha | hstop
  · by_cases hend : u.seq = u.prog.length
    · rw [finish_end (by rw [ha.phase]; exact hr) hend]
      exact inv_complete hs hr hm hk ha hend
    · rw [finish_mid hend]
      exact inv_of_advances hs hr hm hk ha hend
  · have hidle : u.phase.running = false := by
      rcases hstop.phase_cases hr with ⟨-, hp⟩ | ⟨-, hp⟩ | hp <;> rw [hp] <;> rfl
    rw [finish_idle hidle]
    exact inv_of_stops hs hr hk hstop

/-! ## Requests -/

theorem sameShadows_atEnd_env (s : State) (env : Env) : SameShadows s.atEnd { s with env := env }.atEnd := by
  unfold State.atEnd
  split <;> exact ⟨rfl, rfl, rfl⟩

/-- Taking a host operation from the queue leaves host operations (log 1, log 2). -/
theorem inv_dequeue {s : State} {r : Request} {rest : List Request} (hs : Inv s) (hq : s.env.requests = r :: rest) :
    Inv { s with env := { s.env with requests := rest } } := by
  have hsame := sameShadows_atEnd_env s { s.env with requests := rest }
  obtain ⟨hempty, hhold, hcon⟩ := hs.filled
  refine ⟨hs.geometry, ?_, hs.mark, hs.romFits, hs.wires, ?_, ?_, ⟨hempty, hhold, ?_⟩, hs.image⟩
  · have h := hs.phaseFits
    unfold PhaseFits at h ⊢
    exact h
  · exact fun r' hr' => hs.host r' (by rw [hq]; exact List.mem_cons_of_mem r hr')
  · exact fun h1 h2 h3 h4 => (hs.agree h1 h2 h3 h4).congr hsame
  · exact fun hp => (hcon hp).congr hsame

/-- In the phases where the host has a move no operation runs (R31, R32). -/
theorem Inv.op_none {s : State} (hs : Inv s) (hp : s.phase = .uninit ∨ s.phase = .ready ∨ s.phase = .failed) :
    s.op = none := by
  have h := hs.phaseFits
  rcases hp with hp | hp | hp <;> simp only [PhaseFits, hp] at h
  · exact h.2.1
  · exact h.2.1
  · exact h.1

/-- Outside a construction no line setup is pending. -/
theorem Inv.wires_fit {s : State} (hs : Inv s) (hp : s.phase ≠ .constructing) {t : Transport} (ht : s.tr = some t) :
    TransportFits s.cfg t := by
  rcases hs.wires t ht with h | ⟨hc, -⟩
  · exact h
  · exact absurd hc hp

theorem inv_refuse {s : State} (op : OpName) (e : Err) (hs : Inv s)
    (hp : s.phase = .uninit ∨ s.phase = .ready ∨ s.phase = .failed) : Inv (s.refuse op e) where
  geometry := hs.geometry
  phaseFits := hs.op_none hp
  mark := by simp
  romFits := hs.romFits
  wires := fun t ht => .inl (hs.wires_fit (by rcases hp with hp | hp | hp <;> simp [hp]) ht)
  host := hs.host
  agree := by simp [ShadowsAgree]
  filled := by simp [ShadowsFilled]
  image := hs.image

/-- Construct's issue (R201). -/
theorem inv_issue_construct {s : State} (w h : Int) (e : Bool) (k : TransportKind) (hs : Inv s)
    (hp : s.phase = .uninit) :
    Inv (State.issue (.construct w h e k) .constructing (constructProgram s.cfg.resActive w h e k)
      { s with tr := some (newTransport s.cfg k) }) := by
  have hfits : Unbuilt s ∧ s.op = none ∧ s.tr = none := by
    have h := hs.phaseFits
    simp only [PhaseFits, hp] at h
    exact h
  obtain ⟨⟨-, -, -, -, hfb⟩, -, -⟩ := hfits
  obtain ⟨hempty, -, -⟩ := hs.filled
  refine ⟨hs.geometry, ?_, ?_, hs.romFits, ?_, hs.host, ?_, ?_, hs.image⟩
  · refine ⟨_, _, rfl, rfl, rfl, rfl, by simp [constructProgram], ?_⟩
    simp only [State.issue_fb, hfb, State.issue_prog, State.issue_seq, List.drop_zero]
    exact runnable_construct s.cfg w h e k
  · have := hs.mark
    simpa [hp] using this
  · rintro t ht
    obtain rfl : newTransport s.cfg k = t := by simpa using ht
    exact newTransport_fits s.cfg { s with tr := some (newTransport s.cfg k) } _ w h e k
  · intro _ _ _ hsync
    obtain ⟨-, hpend, -⟩ :=
      panelMatches_of_idle hs.agree (by simp [hp, Phase.running]) (by simp [NotTerminal, hp]) hsync
    rw [remaining_running rfl, atEnd_running rfl]
    simp only [State.issue_prog, commitOf_construct]
    exact panelMatches_construct _ w h e k hsync hpend
  · refine ⟨fun _ => hempty (.inl hp), by simp, fun _ => ?_⟩
    rw [atEnd_running rfl]
    simp only [State.issue_prog, commitOf_construct]
    exact ⟨rfl, rfl, rfl⟩

/-- The issue of another operation (R218). -/
theorem inv_issue {s : State} {i : Instr} {p : List MicroOp} (hs : Inv s) (hp : s.phase = .ready)
    (hf : i.format = .hostRecord) (hc : isConstruct i = false) (hi : illegalOperand i = none)
    (he : expansion i s = some p) : Inv (s.issue i .busy p) := by
  obtain ⟨hbuilt, -, htr⟩ : Built s ∧ s.op = none ∧ s.tr.isSome = true := by
    have h := hs.phaseFits
    simp only [PhaseFits, hp] at h
    exact h
  obtain ⟨t, ht⟩ := Option.isSome_iff_exists.mp htr
  obtain ⟨-, -, hpos, hruns⟩ := expansion_plain hc he
  have hsame : expansion i (s.issue i .busy p) = expansion i s := expansion_congr i rfl ⟨rfl, rfl, rfl, rfl⟩
  obtain ⟨-, hhold, -⟩ := hs.filled
  refine ⟨hs.geometry, ?_, ?_, hs.romFits, ?_, hs.host, ?_, ?_, hs.image⟩
  · exact ⟨i, t, rfl, hc, wf_of_legal hf hi, hsame.trans he, ht, hpos, hruns t, hbuilt⟩
  · have := hs.mark
    simpa [hp] using this
  · exact fun t' ht' => .inl (hs.wires_fit (by simp [hp]) ht')
  · intro _ _ _ hsync
    have h := panelMatches_of_idle hs.agree (by simp [hp, Phase.running]) (by simp [NotTerminal, hp]) hsync
    rw [remaining_running rfl, atEnd_running rfl]
    exact panelMatches_expansion hc he h
  · exact ⟨by simp, fun _ => hhold (.inl hp), by simp⟩

theorem inv_exec_host {s t : State} {i : Instr} (hs : Inv s) (hf : i.format = .hostRecord) (h : exec i s = .next t) :
    Inv t := by
  rcases exec_host_cases hf h with ⟨hp, e, rfl⟩ | ⟨hp, w, h', e, k, rfl, rfl⟩ | ⟨hp, hc, hi, p, he, rfl⟩
  · exact inv_refuse _ e hs hp
  · exact inv_issue_construct w h' e k hs hp
  · exact inv_issue hs hp hf hc hi he

/-! ## The step -/

/-- Settles O10: a wait changes nothing; a host operation is refused or issued; a micro-operation advances the program,
completes it or stops it; and the invariant leaves no step a completion alone. -/
theorem stepKeepsTheInvariant : Obligations.StepKeepsTheInvariant := by
  intro s t hs h
  rcases step_cases h with ⟨-, ⟨-, rfl⟩ | ⟨r, rest, i, hq, hd, he⟩⟩ | ⟨hr, ⟨m, u, hm, hu, rfl⟩ | ⟨hend, -⟩⟩
  · exact hs
  · have hfmt : r.fmt = .hostRecord := hs.host r (by simp [hq])
    rw [hfmt] at hd
    exact inv_exec_host (inv_dequeue hs hq) (format_of_decode_host hd) he
  · exact inv_finish hs hr hm hu
  · obtain ⟨i, t, hrun⟩ := (phaseFits_running hr).mp hs.phaseFits
    exact absurd hend hrun.seq.ne

/-- Settles O54: ALLOC alone writes the geometry, and no program that can run has one once a framebuffer exists. -/
theorem geometryIsWrittenOnce : Obligations.GeometryIsWrittenOnce := by
  intro s t hs hb h
  have hsame : SameGeometry s t := by
    rcases step_makers h with hq | ⟨hr, ⟨m, u, hm, hk, htu⟩ | rfl⟩
    · exact hq.toSameGeometry
    · rcases hk.geometry with ⟨h1, h2, h3, h4⟩ | ⟨w, h', e, rfl⟩
      · rcases htu with rfl | rfl <;> exact ⟨h1, h2, h3, h4⟩
      · obtain ⟨i, tr, hrun⟩ := (phaseFits_running hr).mp hs.phaseFits
        have hruns := hrun.runs_from hm
        simp [runnable, hb.fb_isSome] at hruns
    · exact ⟨rfl, rfl, rfl, rfl⟩
  refine ⟨hsame.width, hsame.height, hsame.pages, hsame.extVcc, ?_⟩
  rcases (stepKeepsTheInvariant s t hs h).geometry with hbt | ⟨hw, -⟩
  · exact hbt
  · obtain ⟨w, _, _, _, hws, -⟩ := hb
    rw [hsame.width, hws] at hw
    cases hw

end Sys2Proof.Machine
end

section
/-! SUPPORT. A construction whose every answer is ok, from its issue to Ready (R52, R201 to R204, R362). -/

namespace Sys2Proof.Machine

/-- A step whose micro-operation only advances, with another still to come (R34). -/
theorem step_of_drop {s u : State} {m next : MicroOp} {rest : List MicroOp} (hr : s.phase.running = true)
    (hp : s.prog.drop s.seq = m :: next :: rest) (hu : runMicro m s = .next u) (hprog : u.prog = s.prog)
    (hseq : u.seq = s.seq + 1) : step s = .next u := by
  have hm : s.prog[s.seq]? = some m := by
    have := congrArg (·[0]?) hp
    simpa using this
  have hl := congrArg List.length hp
  simp only [List.length_drop, List.length_cons] at hl
  rw [step_running hr hm hu, finish_mid (by rw [hprog, hseq]; omega)]

theorem runSteps_of_step {s u : State} (n : Nat) (h : step s = .next u) : runSteps (n + 1) s = runSteps n u := by
  rw [runSteps, h]

theorem step_line {s : State} {r : FourWireRegs} {l : Line} {v : Bool} {next : MicroOp} {rest : List MicroOp}
    (hr : s.phase.running = true) (ht : s.tr = some (.fourWire r))
    (hp : s.prog.drop s.seq = .line l v :: next :: rest) : step s = .next (s.driveLine r l v).advance :=
  step_of_drop hr hp (by simp [runMicro, runLine, ht]) rfl rfl

theorem step_sleep {s : State} {n : Nat} {next : MicroOp} {rest : List MicroOp} (hr : s.phase.running = true)
    (hp : s.prog.drop s.seq = .sleep n :: next :: rest) : step s = .next (s.emit [.sleep n]).advance :=
  step_of_drop hr hp rfl rfl rfl

/-- The 4-wire registers after the line setup and the reset pulse (R177, R178), and the 2-wire address (R180). -/
def setUpTransport (cfg : Params) : TransportKind → Transport
  | .twoWire => .twoWire cfg.i2cAddr
  | .fourWire => .fourWire { dc := false, cs := true, res := !cfg.resActive, rate := cfg.spiRate }

/-- The events of the line setup and the reset pulse (R177, R178). -/
def setupEvents (resActive : Bool) : TransportKind → List Event
  | .twoWire => []
  | .fourWire =>
    [.dc false, .res resActive, .cs true, .res (!resActive), .sleep 1, .res resActive, .sleep 10, .res (!resActive)]

/-- The state at construct's issue (R201), for a program that begins with the transport's setup. -/
def State.issued (i : Instr) (k : TransportKind) (rest : List MicroOp) (s : State) : State :=
  State.issue i .constructing (setupProgram s.cfg.resActive k ++ rest) { s with tr := some (newTransport s.cfg k) }

/-- The state after the transport's setup. -/
def State.setUp (i : Instr) (k : TransportKind) (rest : List MicroOp) (s : State) : State :=
  { s.issued i k rest with
    tr := some (setUpTransport s.cfg k), trace := s.trace ++ setupEvents s.cfg.resActive k
    seq := (setupProgram s.cfg.resActive k).length }

theorem runSteps_setup (i : Instr) (k : TransportKind) (m : MicroOp) (rest : List MicroOp) (s : State) :
    runSteps (setupProgram s.cfg.resActive k).length (s.issued i k (m :: rest)) = .next (s.setUp i k (m :: rest)) := by
  cases k with
  | twoWire =>
    simp [setupProgram, runSteps, setUpTransport, setupEvents, newTransport, State.issued, State.issue, State.setUp]
  | fourWire =>
    change runSteps 8 _ = _
    rw [runSteps_of_step 7 (step_line rfl rfl rfl), runSteps_of_step 6 (step_line rfl rfl rfl),
      runSteps_of_step 5 (step_line rfl rfl rfl), runSteps_of_step 4 (step_line rfl rfl rfl),
      runSteps_of_step 3 (step_sleep rfl rfl), runSteps_of_step 2 (step_line rfl rfl rfl),
      runSteps_of_step 1 (step_sleep rfl rfl), runSteps_of_step 0 (step_line rfl rfl rfl)]
    simp [runSteps, State.driveLine, State.advance, State.emit, State.issued, State.issue, FourWireRegs.afterLine,
      FourWireRegs.drive, State.setUp, setUpTransport, setupEvents, setupProgram, lineEvent]

/-! ## From the check of the geometry to Ready -/

/-- The initialisation list and its COMMIT step with every answer ok, more steps to follow (R204, R205): the COMMIT only
advances, for its update is the completion's (log 29). -/
theorem runSteps_init {s : State} {t : Transport} {h : Nat} {e : Bool} {next : MicroOp} {rest : List MicroOp}
    {later : List Answer} (hr : s.phase.running = true) (hp : s.prog.drop s.seq = initProgram h e ++ next :: rest)
    (ht : s.tr = some t) (ha : s.env.answers = List.replicate 25 .ok ++ later) :
    ∃ env, env.answers = later ∧ runSteps 26 s = .next { s with
      env := env, tr := some (okTransport t false), trace := s.trace ++ okCommands t (initBytes h e)
      panel := panelAfter (initBytes h e) s.panel, seq := s.seq + 26 } := by
  have hbytes : 0xAE :: (initBytes h e).tail = initBytes h e := rfl
  have hlen : (initBytes h e).length = 25 := rfl
  rw [initProgram, List.append_assoc, List.singleton_append, ← hbytes] at hp
  obtain ⟨env, -, henv, hrun⟩ := runSteps_cmds (later := later) 0xAE (initBytes h e).tail hr hp (by simp) ht ha
  rw [hbytes, hlen] at hrun
  have hcommit : s.prog.drop (s.seq + 25) = .commit initCommit :: next :: rest := by
    rw [← List.drop_drop, hp]
    rfl
  exact ⟨env, henv, runSteps_trans hrun (runSteps_one (step_of_drop hr hcommit rfl rfl rfl))⟩

/-- The image of the framebuffer that ALLOC makes (R203). -/
@[simp] theorem Memory.bytes_nil (n : Nat) : Memory.bytes n [] = List.replicate n 0 := by
  simpa [Memory.filled] using Memory.bytes_filled n 0

/-- From the check of a supported geometry on, with every answer ok (R201 to R205, R210, R219). -/
theorem runSteps_construct_body {s : State} {t : Transport} {w h : Nat} {e : Bool} {i : Instr}
    (hr : s.phase.running = true) (ho : s.op = some i) (hp : s.prog.drop s.seq =
      .checkGeometry w h :: .alloc w h e :: (initProgram h e ++ flushProgram w (h / 8)))
    (hc : commitOf s.prog = initCommit) (ht : s.tr = some t) (hok : geometryOk w h = true) (ha : AnswersOk 32 s) :
    ∃ env, runSteps 35 s = .next { s with
      phase := .ready, op := none, env := env, seq := s.seq + 35, tr := some (okTransport t true)
      width := some w, height := some h, pages := some (h / 8), extVcc := some e
      powerOn := some true, contrast := some 0xFF, inverted := some false, fb := some [], result := some .ok
      flushed := some (List.replicate (h / 8 * w) 0)
      panel := panelAfter (initBytes h e ++ windowBytes w (h / 8)) s.panel
      trace := s.trace ++ okCommands t (initBytes h e ++ windowBytes w (h / 8)) ++
        okEvents t true (List.replicate (h / 8 * w) 0) ++ [.result (opNameOf i) .ok] } := by
  obtain ⟨later, hanswers⟩ := ha
  have ha : s.env.answers = List.replicate 25 Answer.ok ++ (List.replicate 7 Answer.ok ++ later) := hanswers
  have hcheck : step s = .next s.advance := step_of_drop hr hp (by simp [runMicro, runCheckGeometry, hok]) rfl rfl
  have hp1 : s.prog.drop (s.seq + 1) =
      .alloc w h e :: .cmd 0xAE :: ((initProgram h e).tail ++ flushProgram w (h / 8)) := by
    rw [← List.drop_drop, hp]
    rfl
  have hp2 : s.prog.drop (s.seq + 2) = initProgram h e ++ .cmd 0x21 :: (flushProgram w (h / 8)).tail := by
    rw [← List.drop_drop, hp]
    rfl
  have hp28 : s.prog.drop (s.seq + 28) = flushProgram w (h / 8) := by
    rw [← List.drop_drop, hp]
    rfl
  have halloc : step s.advance = .next (runAlloc w h e s.advance) := step_of_drop hr hp1 rfl rfl rfl
  obtain ⟨env, henv, hinit⟩ := runSteps_init (s := runAlloc w h e s.advance) hr hp2 ht ha
  obtain ⟨env', hflush, -⟩ := runSteps_flush (s := { runAlloc w h e s.advance with
      env := env, tr := some (okTransport t false), trace := s.trace ++ okCommands t (initBytes h e)
      panel := panelAfter (initBytes h e) s.panel, seq := s.seq + 28 })
    i hr ho hp28 hc rfl rfl rfl rfl ⟨later, henv⟩
  have hrun := runSteps_trans (runSteps_one hcheck)
    (runSteps_trans (runSteps_one halloc) (runSteps_trans hinit hflush))
  refine ⟨env', hrun.trans ?_⟩
  simp [runAlloc, Memory.filled, initCommit]

/-! ## The whole construction -/

theorem exec_construct {s : State} (w h : Int) (e : Bool) (k : TransportKind) (hp : s.phase = .uninit) :
    exec (.construct w h e k) s = .next (s.issued (.construct w h e k) k (.checkGeometry w h :: .alloc w h e ::
      (initProgram h.toNat e ++ flushProgram w.toNat (h.toNat / 8)))) := by
  simp [exec, execConstruct, hp, State.issued, constructProgram]

/-- The registers after a construction, by geometry and supply (R52, R204, R210). -/
theorem panelAfter_construct {w h : Nat} (e : Bool) (hw : w = 64 ∨ w = 128) (hh : h = 32 ∨ h = 64) :
    panelAfter (initBytes h e ++ windowBytes w (h / 8)) {} = { sync := true, pend := none, regs := {
      displayOn := some true, memAddrMode := some 0x00, startLine := some 0, segRemap := some true
      muxRatio := some (if h = 32 then 31 else 63), comOutDir := some true, dispOffset := some 0x00
      comPinCfg := some (if h = 32 then 0x02 else 0x12), clkDiv := some 0x80
      precharge := some (if e then 0x22 else 0xF1), vcomDesel := some 0x30, contrast := some 0xFF
      entireOn := some false, invert := some false, chargePump := some (if e then 0x10 else 0x14)
      colWindow := some (if w = 128 then (0, 127) else (32, 95))
      pageWindow := some (0, if h = 32 then 3 else 7) } } := by
  rw [panelAfter_append, panelAfter_init, panelAfter_window]
  rcases hw with rfl | rfl <;> rcases hh with rfl | rfl <;> rfl

/-- Settles O38: the transport's setup, then the check, ALLOC, the two command lists and the data transfer. -/
theorem constructionCompletes : Obligations.ConstructionCompletes := by
  intro s w h e k hp hpanel hw hh ha
  have hok : geometryOk w h = true := by
    rcases hw with rfl | rfl <;> rcases hh with rfl | rfl <;> rfl
  have hlen : (setupProgram s.cfg.resActive k).length + 35 = if k = .fourWire then 43 else 35 := by cases k <;> rfl
  have hissue := exec_construct w h e k hp
  generalize hi : Instr.construct w h e k = i at hissue
  generalize hrest : MicroOp.alloc w h e :: (initProgram h e ++ flushProgram w (h / 8)) = rest
  have hcommit : commitOf (setupProgram s.cfg.resActive k ++ .checkGeometry w h :: rest) = initCommit := by
    rw [← commitOf_construct s.cfg.resActive w h e k, ← hrest]
    simp [constructProgram]
  obtain ⟨env, hbody⟩ := runSteps_construct_body (s := s.setUp i k (.checkGeometry w h :: rest)) rfl rfl
    (List.drop_left.trans (by rw [hrest])) hcommit rfl hok ha
  have hrun := runSteps_trans (runSteps_setup i k (.checkGeometry w h) rest s) hbody
  rw [hlen] at hrun
  refine ⟨_, _, hissue.trans (by rw [← hrest]; rfl), rfl, hrun, (s.setUp i k (.checkGeometry w h :: rest)).prog,
    (s.setUp i k (.checkGeometry w h :: rest)).seq + 35, env, ?_⟩
  have htransport : (if k = .fourWire then
      .fourWire { dc := true, cs := true, res := !s.cfg.resActive, rate := s.cfg.spiRate }
      else .twoWire s.cfg.i2cAddr) = okTransport (setUpTransport s.cfg k) true := by cases k <;> rfl
  have hevents : (if k = .fourWire then [.dc false, .res s.cfg.resActive, .cs true, .res (!s.cfg.resActive), .sleep 1,
      .res s.cfg.resActive, .sleep 10, .res (!s.cfg.resActive)] else []) = setupEvents s.cfg.resActive k := by
    cases k <;> rfl
  have hregs : (s.setUp i k (.checkGeometry w h :: rest)).panel = {} := hpanel
  dsimp only
  rw [htransport, hevents, okCommands_okTransport, okEvents_okTransport, hregs, panelAfter_construct e hw hh, ← hi]
  rfl

end Sys2Proof.Machine
end

section
/-! SUPPORT. The memory family: the pixel mapping and its inverse, one pixel write bit by bit, the glyph key's three bytes,
and what no step writes (R71 to R74, R78, R79, R48). -/

namespace Sys2Proof.Machine

/-! ## The pixel mapping (R71, R72) -/

/-- The pixel at column `i % w` and row `i / w * 8 + b` is inside the canvas, for a byte `i` of the framebuffer and a bit
`b`: the preimage that makes the mapping of R71 onto. -/
theorem inside_of_position {w h i b : Nat} (hi : i < h / 8 * w) (hb : b < 8) :
    inside w h (i % w : Nat) (i / w * 8 + b : Nat) = true := by
  have hw : 0 < w := Nat.pos_of_ne_zero (by rintro rfl; simp at hi)
  have hcol : i % w < w := Nat.mod_lt i hw
  have hpage : i / w < h / 8 := (Nat.div_lt_iff_lt_mul hw).mpr hi
  rw [inside_iff]
  omega

theorem pixelIndex_of_position (w i : Nat) {b : Nat} (hb : b < 8) :
    pixelIndex w (i % w : Nat) (i / w * 8 + b : Nat) = i := by
  have hpage : (i / w * 8 + b) / 8 = i / w := by omega
  rw [pixelIndex, Int.toNat_natCast, Int.toNat_natCast, hpage, Nat.div_add_mod']

theorem bitPos_of_position (p : Nat) {b : Nat} (hb : b < 8) : bitPos (p * 8 + b : Nat) = b := by
  rw [bitPos, Int.toNat_natCast]
  omega

/-- Settles O14: the index is in range and the position injective by the laws of pixels; byte `i` and bit `b` are those of
the pixel at column `i % w` and row `i / w * 8 + b`. -/
theorem pixelMappingIsExact : Obligations.PixelMappingIsExact := by
  intro w h h8
  refine ⟨fun x y hin => ⟨rfl, pixelIndex_lt hin h8, rfl⟩, fun x y x' y' => pixel_position_injective, ?_, ?_⟩
  · intro i b hi hb
    exact ⟨_, _, inside_of_position hi hb, pixelIndex_of_position w i hb, bitPos_of_position _ hb⟩
  · intro m x y
    split
    · exact pixRead_inside m (inside_iff.mpr ‹_›)
    · exact pixRead_outside m (Bool.eq_false_iff.mpr (mt inside_iff.mp ‹_›))

/-! ## One pixel write (R73, R74) -/

/-- The pixel's own byte after a write inside the canvas (R73). -/
theorem read_pixWrite_own {w h : Nat} {p : PixelWrite} (m : Memory) (hin : inside w h p.x p.y = true) :
    (pixWrite w h p m).read (pixelIndex w p.x p.y) = setBit (m.read (pixelIndex w p.x p.y)) (bitPos p.y) p.v := by
  rw [pixWrite, if_pos hin, Memory.read_write, if_pos rfl]

/-- Settles O15: the pixel's own byte takes one bit, and the laws of pixels keep every other byte and clip the rest. -/
theorem pixWriteWritesOneBit : Obligations.PixWriteWritesOneBit := by
  intro w h m x y v
  refine ⟨fun hin => ⟨fun j hj => ?_, fun a ha => read_pixWrite_other m fun _ => ha⟩, fun hout => ?_⟩
  · have hown := read_pixWrite_own (p := ⟨x, y, v⟩) m (inside_iff.mpr hin)
    exact (congrArg (·.getLsbD j) hown).trans (setBit_getLsbD _ _ _ _ (bitPos_lt y) hj)
  · exact pixWrite_outside (Bool.eq_false_iff.mpr (mt inside_iff.mp hout)) m

/-! ## The glyph key (R79, R245) -/

/-- Packing most significant first is the number whose digits to base 256 are the bytes (R79). -/
theorem pack_eq_add (a : Nat) {b c : Nat} (hb : b < 256) (hc : c < 256) :
    a <<< 16 ||| b <<< 8 ||| c = a * 65536 + b * 256 + c := by
  have hlow : b <<< 8 ||| c = b * 256 + c := by
    rw [← Nat.shiftLeft_add_eq_or_of_lt hc, Nat.shiftLeft_eq]
  rw [Nat.or_assoc, hlow, ← Nat.shiftLeft_add_eq_or_of_lt (by omega), Nat.shiftLeft_eq, Nat.add_assoc]

/-- The leading byte of a 3-byte encoding: the tag 0xE0 over four bits. -/
theorem leadByte_eq_add {n : Nat} (hn : n < 16) : 0xE0 ||| n = 0xE0 + n :=
  (Nat.shiftLeft_add_eq_or_of_lt (i := 4) hn 0xE).symm

/-- A continuation byte: the tag 0x80 over the low six bits. -/
theorem continuationByte_eq_add (n : Nat) : 0x80 ||| (n &&& 0x3F) = 0x80 + n % 64 := by
  rw [Nat.and_two_pow_sub_one_eq_mod n 6]
  exact (Nat.shiftLeft_add_eq_or_of_lt (i := 6) (Nat.mod_lt n (by decide)) 2).symm

/-- Settles O22: the three bytes are sums of tag and digits, and a key of three bytes fits 24 bits. -/
theorem glyphKeyIsTheUtf8Encoding : Obligations.GlyphKeyIsTheUtf8Encoding := by
  intro c
  refine ⟨fun hc => ⟨_, if_pos hc, ?_⟩, fun hc => if_neg (by omega)⟩
  have hlead : c.toNat / 4096 < 16 := by omega
  rw [Nat.shiftRight_eq_div_pow, Nat.shiftRight_eq_div_pow, leadByte_eq_add hlead, continuationByte_eq_add,
    continuationByte_eq_add, pack_eq_add _ (by omega) (by omega), BitVec.toNat_ofNat]
  exact Nat.mod_eq_of_lt (by omega)

/-! ## The refusal mark (R48) -/

theorem WireChange.refused {s u : State} (h : WireChange s u) : u.refused = s.refused := by
  obtain ⟨_, _, _, _, -, -, -, hu⟩ := h
  rw [hu]

/-- A refusal sets the mark; an issue and transfers leave it. -/
theorem exec_keeps_mark {i : Instr} {s t : State} (h : exec i s = .next t) (hs : s.refused = true) :
    t.refused = true := by
  by_cases hf : i.format = .hostRecord
  · rcases exec_host_cases hf h with ⟨-, e, rfl⟩ | ⟨-, w, h', e, k, -, rfl⟩ | ⟨-, -, -, p, -, rfl⟩
    · rfl
    · exact hs
    · exact hs
  · rcases exec_wire_cases hf h with ⟨-, rfl⟩ | ⟨-, tr, htr, ⟨b, bs, rfl⟩ | ⟨bs, rfl⟩⟩
    · rfl
    · exact (sendBytes_change b bs htr).refused.trans hs
    · exact (dataTransfer_change bs htr).refused.trans hs

@[simp] theorem State.finish_refused (s : State) : s.finish.refused = s.refused := by
  rcases finish_cases s with h | ⟨-, -, h⟩
  · rw [h]
  · rw [h, State.complete_refused]

theorem step_keeps_mark {s t : State} (h : step s = .next t) (hs : s.refused = true) : t.refused = true := by
  rcases step_cases h with ⟨-, ⟨-, rfl⟩ | ⟨r, rest, i, -, -, he⟩⟩ | ⟨hr, ⟨m, u, -, hu, rfl⟩ | ⟨-, rfl⟩⟩
  · exact hs
  · exact exec_keeps_mark he hs
  · exact (State.finish_refused u).trans ((runMicro_frame hr hu).refused.trans hs)
  · exact hs

/-- Settles O53: the frames of a request and of a micro-operation keep the ROM and the configuration, and a completion
writes neither. -/
theorem constantsAndTheMarkStay : Obligations.ConstantsAndTheMarkStay := by
  intro s t h
  rw [← and_assoc]
  refine ⟨?_, step_keeps_mark h⟩
  rcases step_makers h with hq | ⟨-, ⟨m, u, -, hm, rfl | rfl⟩ | rfl⟩
  · exact ⟨hq.rom, hq.cfg⟩
  · exact ⟨hm.rom, hm.cfg⟩
  · exact ⟨hm.rom, hm.cfg⟩
  · exact ⟨rfl, rfl⟩

end Sys2Proof.Machine
end

section
/-! SUPPORT. The encoding family: the decoder on the encoder's bytes, one encoding space at a time, and the opcode map of
the wire commands byte by byte (R101, R104, R107 to R115). -/

namespace Sys2Proof

/-! ## Host records (R101, log 3) -/

section
variable (next : Int → List Byte → Except DecodeError Instr)

@[simp] theorem operand_encodeInt (z : Int) (rest : List Byte) :
    operand decodeInt next (encodeInt z ++ rest) = next z rest := operand_eq (decodeInt_encodeInt z rest)

@[simp] theorem operand_encodeInt_end (z : Int) : operand decodeInt next (encodeInt z) = next z [] :=
  operand_eq (decodeInt_encodeInt_end z)

end

@[simp] theorem operand_encodeBool (next : Bool → List Byte → Except DecodeError Instr) (b : Bool) (rest : List Byte) :
    operand decodeBool next (encodeBool b ++ rest) = next b rest := operand_eq (decodeBool_encodeBool b rest)

@[simp] theorem operand_encodeKind (next : TransportKind → List Byte → Except DecodeError Instr) (t : TransportKind) :
    operand decodeKind next (encodeKind t) = next t [] := operand_eq (decodeKind_encodeKind t)

@[simp] theorem operand_encodeByteList (next : List Byte → List Byte → Except DecodeError Instr) (bs rest : List Byte) :
    operand decodeByteList next (encodeByteList bs ++ rest) = next bs rest :=
  operand_eq (decodeByteList_encodeByteList bs rest)

@[simp] theorem operand_encodeString (next : List Char → List Byte → Except DecodeError Instr) (str : List Char)
    (rest : List Byte) : operand decodeString next (encodeString str ++ rest) = next str rest :=
  operand_eq (decodeString_encodeString str rest)

@[simp] theorem endOfRecord_nil (i : Instr) : endOfRecord i [] = .ok i := rfl

/-! ## Wire commands (R104, R112, R113) -/

/-- The reader of each opcode byte, with its one-bit field read (R104, R113). -/
@[simp] theorem decodeWire_opcodes (args : List Byte) :
    decodeWire (0xAE#8 :: args) = group0 (.cmdDisp false) args ∧
    decodeWire (0xAF#8 :: args) = group0 (.cmdDisp true) args ∧
    decodeWire (0x20#8 :: args) = group1 .cmdMemAddr args ∧
    decodeWire (0x40#8 :: args) = group0 .cmdDispStartLine args ∧
    decodeWire (0xA0#8 :: args) = group0 (.cmdSegRemap false) args ∧
    decodeWire (0xA1#8 :: args) = group0 (.cmdSegRemap true) args ∧
    decodeWire (0xA8#8 :: args) = group1 .cmdMuxRatio args ∧
    decodeWire (0xC0#8 :: args) = group0 (.cmdComOutDir false) args ∧
    decodeWire (0xC8#8 :: args) = group0 (.cmdComOutDir true) args ∧
    decodeWire (0xD3#8 :: args) = group1 .cmdDispOffset args ∧
    decodeWire (0xDA#8 :: args) = group1 .cmdComPinCfg args ∧
    decodeWire (0xD5#8 :: args) = group1 .cmdDispClkDiv args ∧
    decodeWire (0xD9#8 :: args) = group1 .cmdPrecharge args ∧
    decodeWire (0xDB#8 :: args) = group1 .cmdVcomDesel args ∧
    decodeWire (0x81#8 :: args) = group1 .cmdContrast args ∧
    decodeWire (0xA4#8 :: args) = group0 .cmdEntireOn args ∧
    decodeWire (0xA6#8 :: args) = group0 (.cmdNormInv false) args ∧
    decodeWire (0xA7#8 :: args) = group0 (.cmdNormInv true) args ∧
    decodeWire (0x8D#8 :: args) = group1 .cmdChargePump args ∧
    decodeWire (0x21#8 :: args) = group2 .cmdColAddr args ∧
    decodeWire (0x22#8 :: args) = group2 .cmdPageAddr args := by
  simp [decodeWire]

/-! ## Decoding what was encoded -/

/-- Settles O1: a host record is read operand by operand, a wire command by the reader of its opcode, a frame by its first
byte. -/
theorem decodeEncodeRoundTrip : Obligations.DecodeEncodeRoundTrip := by
  intro i
  cases i
  case construct | initSequence | flush | powerOn | powerOff | setContrast | setInverted | setPixel | blit | clear |
      drawText | drawWideGlyphs => simp [Instr.format, decode, encode, decodeHost, decodeHostOperands]
  case cmdDisp field | cmdSegRemap field | cmdComOutDir field | cmdNormInv field =>
    cases field <;> simp [Instr.format, decode, encode, fieldOpcode, group0]
  case cmdDispStartLine | cmdEntireOn => simp [Instr.format, decode, encode, group0]
  case cmdMemAddr | cmdMuxRatio | cmdDispOffset | cmdComPinCfg | cmdDispClkDiv | cmdPrecharge | cmdVcomDesel |
      cmdContrast | cmdChargePump => simp [Instr.format, decode, encode, group1]
  case cmdColAddr | cmdPageAddr => simp [Instr.format, decode, encode, group2]
  case i2cCommandFrame | i2cDataFrame => simp [Instr.format, decode, encode, decodeFrame2, group1]
  case spiCommandTransfer | spiDataTransfer => simp [Instr.format, decode, encode, decodeFrame4, group1]

/-- Settles O2: each word is what the encoder writes but the last, whose byte is no opcode of the map. -/
theorem specWordsDecode : Obligations.SpecWordsDecode :=
  ⟨decodeEncodeRoundTrip .flush, decodeEncodeRoundTrip .powerOff, decodeEncodeRoundTrip (.cmdDisp true),
    decodeEncodeRoundTrip (.cmdDisp false), decodeEncodeRoundTrip (.cmdComOutDir true),
    decodeEncodeRoundTrip (.cmdContrast 0x7F), decodeEncodeRoundTrip (.cmdColAddr 0x20 0x5F),
    decodeEncodeRoundTrip (.i2cCommandFrame 0xAE), decodeEncodeRoundTrip (.i2cDataFrame [0x01, 0x02]), rfl⟩

/-! ## The opcode map (R104, R112, R114, R115) -/

/-- No byte belongs to two rows (R112): at a shared byte the two bases would agree under both masks. -/
theorem opcodeRow_unique {c : Byte} {r r' : OpcodeRow} (hr : r ∈ opcodeTable) (hr' : r' ∈ opcodeTable)
    (hc : c &&& r.mask = r.base) (hc' : c &&& r'.mask = r'.base) : r = r' := by
  by_contra hne
  have hsymm : Std.Symm fun r r' : OpcodeRow =>
      r.base &&& r'.mask &&& r.mask ≠ r'.base &&& r.mask &&& r'.mask := ⟨fun _ _ h => h.symm⟩
  refine opcodeTable_disjoint.forall hr hr' hne ?_
  rw [← hc, ← hc']
  ac_rfl

/-- The bytes of the map by their argument count (R104). -/
theorem argCount_cases : ∀ c : Byte, argCount c = none ∨
    argCount c = some 0 ∧ c ∈ ([0x40, 0xA0, 0xA1, 0xA4, 0xA6, 0xA7, 0xAE, 0xAF, 0xC0, 0xC8] : List Byte) ∨
    argCount c = some 1 ∧ c ∈ ([0x20, 0x81, 0x8D, 0xA8, 0xD3, 0xD5, 0xD9, 0xDA, 0xDB] : List Byte) ∨
    argCount c = some 2 ∧ c ∈ ([0x21, 0x22] : List Byte) := by decide

/-- A byte that is no opcode belongs to no row. -/
theorem argCount_eq_none {c : Byte} : argCount c = none ↔ ∀ r ∈ opcodeTable, c &&& r.mask ≠ r.base := by
  simp [argCount]

theorem decodeWire_unknown {c : Byte} (args : List Byte) (h : argCount c = none) :
    decodeWire (c :: args) = .error (.unknownOpcode c) := by
  have hfull : c &&& 0xFF = c := BitVec.and_allOnes
  simp only [argCount_eq_none, opcodeTable, List.forall_mem_cons, hfull] at h
  simp only [decodeWire, h, if_false]

/-- Bytes that start with opcode `c` are an instruction exactly when `k` arguments follow, and then the one that encodes
to them (R115). -/
def ReadsGroup (c : Byte) (k : Nat) : Prop := ∀ args : List Byte,
  if args.length = k then ∃ i, decodeWire (c :: args) = .ok i ∧ i.format = .wireCommand ∧ encode i = c :: args
  else decodeWire (c :: args) = .error (if args.length < k then .truncated else .trailingBytes)

theorem readsGroup_group0 {c : Byte} {i : Instr} (hd : ∀ args, decodeWire (c :: args) = group0 i args)
    (hf : i.format = .wireCommand) (he : encode i = [c]) : ReadsGroup c 0 := fun args => by
  match args with
  | [] => exact ⟨i, hd [], hf, he⟩
  | a :: more => simp [hd, group0]

theorem readsGroup_group1 {c : Byte} {f : Byte → Instr} (hd : ∀ args, decodeWire (c :: args) = group1 f args)
    (hf : ∀ a, (f a).format = .wireCommand) (he : ∀ a, encode (f a) = [c, a]) : ReadsGroup c 1 := fun args => by
  match args with
  | [] => simp [hd, group1]
  | [a] => exact ⟨f a, hd [a], hf a, he a⟩
  | a :: b :: more => simp [hd, group1]

theorem readsGroup_group2 {c : Byte} {f : Byte → Byte → Instr} (hd : ∀ args, decodeWire (c :: args) = group2 f args)
    (hf : ∀ a b, (f a b).format = .wireCommand) (he : ∀ a b, encode (f a b) = [c, a, b]) :
    ReadsGroup c 2 := fun args => by
  match args with
  | [] | [_] => simp [hd, group2]
  | [a, b] => exact ⟨f a b, hd [a, b], hf a b, he a b⟩
  | a :: b :: d :: more => simp [hd, group2]

/-- Each opcode of the map reads its own group: no, one or two arguments. -/
theorem readsGroup_of_argCount {c : Byte} {k : Nat} (h : argCount c = some k) : ReadsGroup c k := by
  rcases argCount_cases c with hn | ⟨h0, hc⟩ | ⟨h1, hc⟩ | ⟨h2, hc⟩
  · simp [hn] at h
  · obtain rfl : 0 = k := Option.some.inj (h0.symm.trans h)
    fin_cases hc <;> exact readsGroup_group0 (fun _ => rfl) rfl rfl
  · obtain rfl : 1 = k := Option.some.inj (h1.symm.trans h)
    fin_cases hc <;> exact readsGroup_group1 (fun _ => rfl) (fun _ => rfl) (fun _ => rfl)
  · obtain rfl : 2 = k := Option.some.inj (h2.symm.trans h)
    fin_cases hc <;> exact readsGroup_group2 (fun _ => rfl) (fun _ _ => rfl) (fun _ _ => rfl)

theorem argCount_ne_none_iff : ∀ c : Byte, argCount c ≠ none ↔ c ∈ opcodeBytes := by decide

theorem exists_eq_some_succ_iff (o : Option Nat) : (∃ k, o = some (k + 1)) ↔ 0 < o.getD 0 := by
  match o with
  | none | some 0 | some (_ + 1) => simp

/-- The opcodes that take arguments (R112). -/
theorem argCount_pos_iff : ∀ c : Byte, 0 < (argCount c).getD 0 ↔
    c ∈ ([0x20, 0x21, 0x22, 0x81, 0x8D, 0xA8, 0xD3, 0xD5, 0xD9, 0xDA, 0xDB] : List Byte) := by decide

/-- Settles O3: the rows are disjoint, the map is read off byte by byte, and a byte's count gives the groups it reads. -/
theorem opcodeMapIsExact : Obligations.OpcodeMapIsExact :=
  ⟨rfl, fun _ _ hr _ hr' => opcodeRow_unique hr hr', argCount_ne_none_iff,
    fun c => (exists_eq_some_succ_iff _).trans (argCount_pos_iff c), fun _ args => decodeWire_unknown args,
    fun _ args _ h => readsGroup_of_argCount h args⟩

end Sys2Proof
end

section
/-! SUPPORT. What the encoding family says of the machine: a placed table word is run next (log 1), an operand outside its
domain is refused at issue (R103, R324), and a frame is one transfer on its transport (R107, R108, R110, R111). -/

namespace Sys2Proof.Machine

/-! ## Placing a table word (log 1) -/

theorem decode_tableImage {nbits w : Nat} {i : Instr} (h : decodeTableWord nbits w = some i) :
    decode (tableImage nbits w).1 (tableImage nbits w).2 = .ok i := by
  unfold decodeTableWord at h
  split at h
  · exact Option.some.inj h ▸ ‹_›
  · simp at h

/-- A request is placed in a phase that takes it. -/
theorem placeRequest_takes (r : Request) (s : State) : (s.placeRequest r).phase = .uninit ∨
    (s.placeRequest r).phase = .ready ∨ (s.placeRequest r).phase = .failed := by
  change s.phase.taking = _ ∨ s.phase.taking = _ ∨ s.phase.taking = _
  cases s.phase <;> simp [Phase.taking]

/-- Settles O6: the placed request is first in the queue of a phase that takes one. -/
theorem placedWordRunsNext : Obligations.PlacedWordRunsNext := by
  intro s nbits w i h
  exact stepRunsTheDecodedRequest (s.withFetchWord nbits w) _ s.env.requests i (placeRequest_takes _ s) rfl
    (decode_tableImage h)

/-! ## Operands outside their domain (R102, R103, R324) -/

theorem exec_illegal {s : State} {i : Instr} {o : OperandName} (hp : s.phase = .ready) (hf : i.format = .hostRecord)
    (hc : isConstruct i = false) (ho : illegalOperand i = some o) :
    exec i s = .next (s.refuse (opNameOf i) (.invalidOperand (opNameOf i) o)) := by
  rw [exec_host s hf hc]
  simp [issueReady, hp, ho]

/-- Settles O13: each of the five bounded operands is found outside its domain, and the issue in Ready refuses it. -/
theorem illegalOperandIsRefused : Obligations.IllegalOperandIsRefused := by
  intro s hp
  refine ⟨fun level h => ?_, fun flag h0 h1 => ?_, fun x y value h0 h1 => ?_, fun value h0 h1 => ?_,
    fun src x y bw bh hw hh hlen => ?_⟩
  · exact exec_illegal hp rfl rfl (if_neg (by omega))
  · exact exec_illegal hp rfl rfl (if_neg (by omega))
  · exact exec_illegal hp rfl rfl (if_neg (by omega))
  · exact exec_illegal hp rfl rfl (if_neg (by omega))
  · exact exec_illegal hp rfl rfl (if_pos ⟨hw, hh, hlen⟩)

/-! ## Frames on their transport (R107, R108, R110, R111) -/

section
variable {s : State} (hn : NotTerminal s)
include hn

theorem exec_i2cCommandFrame {a : DevAddr} (b : Byte) (ht : s.tr = some (.twoWire a)) :
    exec (.i2cCommandFrame b) s = .next (s.sendCommand b) := by
  simp [exec, execI2cCommandFrame, halted_eq_none.mpr hn, ht, State.sendCommand]

theorem exec_i2cDataFrame {a : DevAddr} (bs : List Byte) (ht : s.tr = some (.twoWire a)) :
    exec (.i2cDataFrame bs) s = .next (s.dataTransfer (.twoWire a) bs) := by
  simp [exec, execI2cDataFrame, halted_eq_none.mpr hn, ht, State.dataTransfer]

theorem exec_spiCommandTransfer {r : FourWireRegs} (b : Byte) (ht : s.tr = some (.fourWire r)) :
    exec (.spiCommandTransfer b) s = .next (s.sendCommand b) := by
  simp [exec, execSpiCommandTransfer, halted_eq_none.mpr hn, ht, State.sendCommand]

theorem exec_spiDataTransfer {r : FourWireRegs} (bs : List Byte) (ht : s.tr = some (.fourWire r)) :
    exec (.spiDataTransfer bs) s = .next (s.dataTransfer (.fourWire r) bs) := by
  simp [exec, execSpiDataTransfer, halted_eq_none.mpr hn, ht, State.dataTransfer]

end

/-- Settles O26: the frame is the command transfer, which each answer ends. -/
theorem twoWireCommandTransfer : Obligations.TwoWireCommandTransfer := by
  intro s a b hn ht
  rw [exec_i2cCommandFrame hn b ht]
  refine ⟨fun ha => ?_, fun ha => ?_, fun ha => ?_⟩
  · simp [sendCommand_ok b ht ha, okTransport, okEvents, ht]
  · simp [sendCommand_fail b ht ha, badTransport, badEvents, failEnv, ht]
  · simp [sendCommand_hang b ht ha, badTransport, badEvents, ht]

/-- Settles O27: the frame is the data transfer, which each answer ends. -/
theorem twoWireDataTransfer : Obligations.TwoWireDataTransfer := by
  intro s a bs hn ht
  rw [exec_i2cDataFrame hn bs ht]
  refine ⟨fun ha => ?_, fun ha => ?_, fun ha => ?_⟩
  · simp [dataTransfer_ok bs ht ha, okTransport, okEvents, ht]
  · simp [dataTransfer_fail bs ht ha, badTransport, badEvents, failEnv, ht]
  · simp [dataTransfer_hang bs ht ha, badTransport, badEvents, ht]

/-- Settles O28: the frame is the command transfer, which each answer ends; a failure's draw moves chip-select. -/
theorem fourWireCommandTransfer : Obligations.FourWireCommandTransfer := by
  intro s r b hn ht
  rw [exec_spiCommandTransfer hn b ht]
  refine ⟨fun ha => ?_, fun ha hd => ?_, fun ha hd => ?_, fun ha => ?_⟩
  · simp [sendCommand_ok b ht ha, okTransport, okEvents]
  · simp [sendCommand_fail b ht ha, hd, badTransport, badEvents, failEnv]
  · simp [sendCommand_fail b ht ha, hd, badTransport, badEvents, failEnv]
  · simp [sendCommand_hang b ht ha, badTransport, badEvents]

/-- Settles O29: the frame is the data transfer, which each answer ends; a failure's draw moves chip-select. -/
theorem fourWireDataTransfer : Obligations.FourWireDataTransfer := by
  intro s r bs hn ht
  rw [exec_spiDataTransfer hn bs ht]
  refine ⟨fun ha => ?_, fun ha hd => ?_, fun ha hd => ?_, fun ha => ?_⟩
  · simp [dataTransfer_ok bs ht ha, okTransport, okEvents]
  · simp [dataTransfer_fail bs ht ha, hd, badTransport, badEvents, failEnv]
  · simp [dataTransfer_fail bs ht ha, hd, badTransport, badEvents, failEnv]
  · simp [dataTransfer_hang bs ht ha, badTransport, badEvents]

end Sys2Proof.Machine
end

section
/-! SUPPORT. The framebuffer family: an operation of DRAW steps from its issue to its completion (R140, R147, R240), and
what a pixel, a bitmap, a fill and clipped drawing leave in the framebuffer (R141 to R145). -/

namespace Sys2Proof.Machine

/-! ## A constructed block (R35, R41) -/

theorem Built.pages_eq {s : State} {h : Nat} (hb : Built s) (hh : s.height = some h) : s.pages = some (h / 8) := by
  obtain ⟨_, h', _, _, _, hh', hp, _⟩ := hb
  obtain rfl : h' = h := Option.some.inj (hh'.symm.trans hh)
  exact hp

theorem Built.eight_dvd {s : State} {h : Nat} (hb : Built s) (hh : s.height = some h) : 8 ∣ h := by
  obtain ⟨_, h', _, _, _, hh', _, _, _, _, hsupported, _⟩ := hb
  obtain rfl : h' = h := Option.some.inj (hh'.symm.trans hh)
  omega

theorem Built.fb_eq_some {s : State} (hb : Built s) : ∃ m, s.fb = some m := by
  obtain ⟨_, _, _, m, _, _, _, _, hm, _⟩ := hb
  exact ⟨m, hm⟩

/-! ## Runs of DRAW steps (R32, R34, R140) -/

/-- The framebuffer after DRAW steps in order. -/
def DrawOp.runAll (rom : GlyphRom) (w h pages : Nat) (ds : List DrawOp) (m : Memory) : Memory :=
  ds.foldl (fun g d => d.run rom w h pages g) m

@[simp] theorem DrawOp.runAll_nil (rom : GlyphRom) (w h pages : Nat) (m : Memory) :
    DrawOp.runAll rom w h pages [] m = m := rfl

@[simp] theorem DrawOp.runAll_cons (rom : GlyphRom) (w h pages : Nat) (d : DrawOp) (ds : List DrawOp) (m : Memory) :
    DrawOp.runAll rom w h pages (d :: ds) m = DrawOp.runAll rom w h pages ds (d.run rom w h pages m) := rfl

@[simp] theorem commitOf_draws (ds : List DrawOp) : commitOf (ds.map .draw) = {} := by
  induction ds with
  | nil => rfl
  | cons d ds ih => exact ih

/-- DRAW steps up to the program's end: the last one completes the operation (R34, R220). -/
theorem runSteps_draws {s : State} {i : Instr} {w h p : Nat} {m : Memory} (d : DrawOp) (ds : List DrawOp)
    (hr : s.phase.running = true) (ho : s.op = some i) (hp : s.prog.drop s.seq = (d :: ds).map .draw)
    (hc : commitOf s.prog = {}) (hw : s.width = some w) (hh : s.height = some h) (hpg : s.pages = some p)
    (hm : s.fb = some m) :
    runSteps (d :: ds).length s = .next { s with
      phase := .ready, op := none, seq := s.seq + (d :: ds).length, result := some .ok
      fb := some (DrawOp.runAll s.rom w h p (d :: ds) m)
      trace := s.trace ++ (d :: ds).flatMap (·.events s.rom) ++ [.result (opNameOf i) .ok] } := by
  induction ds generalizing s m d with
  | nil =>
    have hd : s.prog[s.seq]? = some (.draw d) := by
      have hfirst := congrArg (·[0]?) hp
      simpa using hfirst
    have hlen := congrArg List.length hp
    simp only [List.length_drop, List.length_map, List.length_singleton] at hlen
    refine runSteps_one ?_
    rw [step_running hr hd (runDraw_eq d hw hh hpg hm), finish_end (by exact hr) (by dsimp only; omega)]
    simp [State.complete, State.opName, State.commit, ho, hc, committed]
  | cons d' ds ih =>
    have hp' : s.prog.drop (s.seq + 1) = (d' :: ds).map .draw := by rw [← List.drop_drop, hp]; rfl
    have hstep := step_of_drop (m := .draw d) hr hp (runDraw_eq d hw hh hpg hm) rfl rfl
    refine (runSteps_of_step _ hstep).trans (Eq.trans (ih d' hr ho hp' hc hw hh hpg rfl) ?_)
    simp [Nat.add_comm, Nat.add_left_comm]

/-- An operation whose program is DRAW steps runs to its completion with result ok (R140, R147, R240). -/
theorem exec_draws {s : State} {i : Instr} {w h : Nat} {m : Memory} {d : DrawOp} {ds : List DrawOp}
    (hp : s.phase = .ready) (hb : Built s) (hw : s.width = some w) (hh : s.height = some h) (hm : s.fb = some m)
    (hi : illegalOperand i = none) (hf : i.format = .hostRecord) (hc : isConstruct i = false)
    (he : expansion i s = some ((d :: ds).map .draw)) :
    ∃ u v, exec i s = .next u ∧ u.phase = .busy ∧ runSteps (d :: ds).length u = .next v ∧
      ∃ prog seq, v = { s with
        op := none, prog := prog, seq := seq, result := some .ok
        fb := some (DrawOp.runAll s.rom w h (h / 8) (d :: ds) m)
        trace := s.trace ++ (d :: ds).flatMap (·.events s.rom) ++ [.result (opNameOf i) .ok] } := by
  have hissue : exec i s = .next (s.issue i .busy ((d :: ds).map .draw)) := by
    rw [exec_host s hf hc, he, issueReady_ready hp hi]
  have hrun := runSteps_draws (s := s.issue i .busy ((d :: ds).map .draw)) d ds rfl rfl rfl (commitOf_draws _) hw hh
    (hb.pages_eq hh) hm
  exact ⟨_, _, hissue, rfl, hrun, (d :: ds).map .draw, 0 + (d :: ds).length, by simp [State.issue, hp]⟩

/-- An operation of one DRAW step that reports nothing, in the form the statements give it (R140, R147). -/
theorem exec_draw {s : State} {i : Instr} {w h : Nat} {m : Memory} {d : DrawOp} (hp : s.phase = .ready) (hb : Built s)
    (hw : s.width = some w) (hh : s.height = some h) (hm : s.fb = some m) (hi : illegalOperand i = none)
    (hf : i.format = .hostRecord) (hc : isConstruct i = false) (he : expansion i s = some [.draw d])
    (hev : d.events s.rom = []) :
    ∃ u v, exec i s = .next u ∧ u.phase = .busy ∧ step u = .next v ∧
      ∃ prog seq, v = { s with
        op := none, prog := prog, seq := seq, fb := some (d.run s.rom w h (h / 8) m), result := some .ok
        trace := s.trace ++ [.result (opNameOf i) .ok] } := by
  obtain ⟨hissue, hstep⟩ := exec_oneDraw hp hi hf hc he hw hh (hb.pages_eq hh) hm
  exact ⟨_, _, hissue, rfl, hstep, [.draw d], 1, by simp [hp, hev]⟩

/-! ## One pixel (R142) -/

/-- Every bit of every byte after one pixel write: the pixel's own is the value (R73, R74). -/
theorem getLsbD_read_pixWrite {w h : Nat} (p : PixelWrite) (m : Memory) (a : Nat) {j : Nat} (hj : j < 8) :
    ((pixWrite w h p m).read a).getLsbD j =
      if inside w h p.x p.y = true ∧ a = pixelIndex w p.x p.y ∧ j = bitPos p.y then p.v else (m.read a).getLsbD j := by
  by_cases hown : inside w h p.x p.y = true ∧ a = pixelIndex w p.x p.y
  · obtain ⟨hin, rfl⟩ := hown
    rw [read_pixWrite_own m hin, setBit_getLsbD _ _ _ _ (bitPos_lt p.y) hj]
    simp [hin]
  · rw [read_pixWrite_other m fun hin ha => hown ⟨hin, ha⟩, if_neg fun ⟨hin, ha, _⟩ => hown ⟨hin, ha⟩]

/-- Settles O16: the operation is one DRAW step, which makes one pixel write. -/
theorem setPixelWritesThePixel : Obligations.SetPixelWritesThePixel := by
  intro s w h m x y value hp hb hw hh hm hvalue
  obtain ⟨u, v, hissue, hbusy, hstep, hv⟩ :=
    exec_draw (i := .setPixel x y value) hp hb hw hh hm (if_pos hvalue) rfl rfl rfl rfl
  refine ⟨u, v, pixWrite w h ⟨x, y, bitOf value⟩ m, hissue, hbusy, hstep, hv, fun a j hj => ?_⟩
  rw [getLsbD_read_pixWrite _ m a hj]
  simp only [inside_iff, and_assoc, pixelIndex, bitPos, bitOf]

/-! ## A bitmap (R143, R144) -/

/-- No list of pixel writes reaches past the framebuffer's end (R71, R74). -/
theorem read_drawPixels_beyond {w h a : Nat} (ps : List PixelWrite) (m : Memory) (h8 : 8 ∣ h) (ha : h / 8 * w ≤ a) :
    (drawPixels w h ps m).read a = m.read a :=
  read_drawPixels_other ps m fun _ _ hin => (Nat.lt_of_lt_of_le (pixelIndex_lt hin h8) ha).ne'

/-- A pixel of the canvas after the pixel loop of `blit`: the source pixel inside the rectangle, as it was outside. -/
theorem pixRead_blitPixels {w h : Nat} {px py : Int} (src : List Byte) (x y bw bh : Int) (m : Memory)
    (hin : inside w h px py = true) :
    pixRead w h (drawPixels w h (blitPixels src x y bw bh) m) px py =
      if x ≤ px ∧ px < x + bw ∧ y ≤ py ∧ py < y + bh then
        some (srcPixel src bw.toNat (px - x).toNat (py - y).toNat)
      else pixRead w h m px py := by
  split
  · have hwrite : (⟨px, py, srcPixel src bw.toNat (px - x).toNat (py - y).toNat⟩ : PixelWrite) ∈
        blitPixels src x y bw bh :=
      mem_blitPixels.mpr ⟨(px - x).toNat, (py - y).toNat, by omega, by omega, by
        rw [PixelWrite.mk.injEq]; exact ⟨by omega, by omega, rfl⟩⟩
    rw [pixRead_inside _ hin, pixelBit_drawPixels_written _ m hin ?_ ⟨_, hwrite, rfl, rfl⟩]
    intro p hmem hat
    obtain ⟨i, j, -, -, rfl⟩ := mem_blitPixels.mp hmem
    obtain ⟨rfl, rfl⟩ := hat
    simp
  · rw [pixRead_inside _ hin, pixRead_inside _ hin, pixelBit_drawPixels_other _ m hin]
    intro p hmem hat
    obtain ⟨i, j, hi, hj, rfl⟩ := mem_blitPixels.mp hmem
    dsimp only at hat
    omega

/-- Settles O17: the operation is one DRAW step, which makes the writes of the pixel loop; a degenerate size makes none. -/
theorem blitCopiesTheBitmap : Obligations.BlitCopiesTheBitmap := by
  intro s w h m src x y bw bh hp hb hw hh hm hlen
  have hlegal : illegalOperand (.blit src x y bw bh) = none :=
    if_neg fun ⟨hbw, hbh, hshort⟩ => absurd (hlen hbw hbh) (by omega)
  obtain ⟨u, v, hissue, hbusy, hstep, hv⟩ := exec_draw hp hb hw hh hm hlegal rfl rfl rfl rfl
  refine ⟨u, v, drawPixels w h (blitPixels src x y bw bh) m, hissue, hbusy, hstep, hv, fun hsize => ?_,
    fun px py hin => pixRead_blitPixels src x y bw bh m hin,
    fun a ha => read_drawPixels_beyond _ m (hb.eight_dvd hh) ha⟩
  rw [blitPixels_degenerate hsize, drawPixels_nil]

/-! ## A fill (R145) -/

/-- Every pixel of the canvas after a fill is the fill's value. -/
theorem pixRead_filled {w h : Nat} {px py : Int} (v : Bool) (h8 : 8 ∣ h) (hin : inside w h px py = true) :
    pixRead w h (Memory.filled (h / 8 * w) (if v then 0xFF else 0x00)) px py = some v := by
  rw [pixRead_inside _ hin, pixelBit, Memory.read_filled, if_pos (pixelIndex_lt hin h8)]
  have hbit := bitPos_lt py
  generalize bitPos py = b at hbit
  interval_cases b <;> cases v <;> rfl

/-- Settles O18: the operation is one DRAW step, which makes the framebuffer a fill. -/
theorem clearSetsEveryPixel : Obligations.ClearSetsEveryPixel := by
  intro s w h value hp hb hw hh hvalue
  obtain ⟨m, hm⟩ := hb.fb_eq_some
  obtain ⟨u, v, hissue, hbusy, hstep, hv⟩ :=
    exec_draw (i := .clear value) hp hb hw hh hm (if_pos hvalue) rfl rfl rfl rfl
  refine ⟨u, v, Memory.filled (h / 8 * w) (if bitOf value then 0xFF else 0x00), hissue, hbusy, hstep, hv, ?_,
    fun px py hin => pixRead_filled (bitOf value) (hb.eight_dvd hh) hin⟩
  rw [Memory.bytes_filled]
  simp only [bitOf, decide_eq_true_eq]

/-! ## Drawing wholly outside the canvas (R141) -/

/-- A DRAW step all of whose pixel writes are clipped; a fill is none. -/
def DrawOp.Clipped (rom : GlyphRom) (w h : Nat) (d : DrawOp) : Prop :=
  (∀ v, d ≠ .fill v) ∧ ∀ q ∈ d.pixels rom, inside w h q.x q.y = false

/-- A DRAW step other than a fill makes its pixel writes in order (R32). -/
theorem DrawOp.run_eq_drawPixels {d : DrawOp} (hd : ∀ v, d ≠ .fill v) (rom : GlyphRom) (w h pages : Nat) (m : Memory) :
    d.run rom w h pages m = drawPixels w h (d.pixels rom) m := by
  cases d with
  | fill v => exact absurd rfl (hd v)
  | _ => rfl

theorem DrawOp.Clipped.run_eq {rom : GlyphRom} {w h : Nat} {d : DrawOp} (hd : d.Clipped rom w h) (pages : Nat)
    (m : Memory) : d.run rom w h pages m = m := by
  obtain ⟨hfill, hout⟩ := hd
  rw [d.run_eq_drawPixels hfill, drawPixels_all_outside _ m hout]

theorem DrawOp.runAll_clipped {rom : GlyphRom} {w h : Nat} {ds : List DrawOp} (hds : ∀ d ∈ ds, d.Clipped rom w h)
    (pages : Nat) (m : Memory) : DrawOp.runAll rom w h pages ds m = m := by
  induction ds with
  | nil => rfl
  | cons d ds ih =>
    rw [runAll_cons, (hds d List.mem_cons_self).run_eq]
    exact ih fun d' hd' => hds d' (List.mem_cons_of_mem d hd')

theorem DrawOp.clipped_idle (rom : GlyphRom) (w h : Nat) : DrawOp.idle.Clipped rom w h := by
  simp [Clipped, pixels]

theorem DrawOp.clipped_pixel {w h : Nat} {x y : Int} (rom : GlyphRom) (v : Bool)
    (hout : x < 0 ∨ w ≤ x ∨ y < 0 ∨ h ≤ y) : (DrawOp.pixel x y v).Clipped rom w h := by
  simp only [Clipped, pixels, List.mem_singleton, forall_eq, Bool.eq_false_iff, ne_eq, inside_iff, reduceCtorEq,
    not_false_eq_true, implies_true, true_and]
  omega

/-- The pixel loop of `blit` on a rectangle outside the canvas. -/
theorem blitPixels_outside {w h : Nat} {x y bw bh : Int} (src : List Byte)
    (hout : x + bw ≤ 0 ∨ w ≤ x ∨ y + bh ≤ 0 ∨ h ≤ y) : ∀ q ∈ blitPixels src x y bw bh, inside w h q.x q.y = false := by
  intro q hq
  obtain ⟨i, j, hi, hj, rfl⟩ := mem_blitPixels.mp hq
  simp only [Bool.eq_false_iff, ne_eq, inside_iff]
  omega

theorem DrawOp.clipped_blit {w h : Nat} {x y bw bh : Int} (rom : GlyphRom) (src : List Byte)
    (hout : x + bw ≤ 0 ∨ w ≤ x ∨ y + bh ≤ 0 ∨ h ≤ y) : (DrawOp.blit src x y bw bh).Clipped rom w h :=
  ⟨fun _ => DrawOp.noConfusion, blitPixels_outside src hout⟩

/-- Text whose cells lie outside the canvas, since its writes lie in its cells (R243 T2). -/
theorem DrawOp.clipped_text {w h : Nat} {col row : Int} (rom : GlyphRom) (str : List Char)
    (hout : 8 * col + 8 * (str.length : Int) ≤ 0 ∨ w ≤ 8 * col ∨ 8 * row + 8 ≤ 0 ∨ h ≤ 8 * row) :
    (DrawOp.text str col row).Clipped rom w h := by
  refine ⟨fun _ => DrawOp.noConfusion, fun q hq => ?_⟩
  obtain ⟨k, hk, hcell⟩ := mem_textPixels hq
  rw [Bool.eq_false_iff, ne_eq, inside_iff]
  omega

/-- A glyph whose square lies outside the canvas, found or missed (R246, R247). -/
theorem DrawOp.clipped_glyph {w h index : Nat} {col row : Int} (rom : GlyphRom) (c : Char)
    (hout : 16 * col + 16 * index + 16 ≤ 0 ∨ w ≤ 16 * col + 16 * index ∨ 16 * row + 16 ≤ 0 ∨ h ≤ 16 * row) :
    (DrawOp.glyph c index col row).Clipped rom w h := by
  refine ⟨fun _ => DrawOp.noConfusion, ?_⟩
  rw [pixels]
  split
  · exact blitPixels_outside _ (by omega)
  · simp

/-- The DRAW steps of `draw_wide_glyphs` (R241, R246). -/
def glyphDraws (str : List Char) (col row : Int) : List DrawOp :=
  if str = [] then [.idle] else str.zipIdx.map fun ci => .glyph ci.1 ci.2 col row

theorem glyphSteps_eq_map (col row : Int) (k : Nat) (str : List Char) :
    glyphSteps col row k str = (str.zipIdx k).map fun ci => .draw (.glyph ci.1 ci.2 col row) := by
  induction str generalizing k with
  | nil => rfl
  | cons c str ih => rw [glyphSteps, ih, List.zipIdx_cons, List.map_cons]

theorem glyphProgram_eq_map (str : List Char) (col row : Int) :
    glyphProgram str col row = (glyphDraws str col row).map .draw := by
  unfold glyphProgram glyphDraws
  split
  · rfl
  · rw [glyphSteps_eq_map, List.map_map]
    rfl

theorem length_glyphDraws (str : List Char) (col row : Int) : (glyphDraws str col row).length = max 1 str.length := by
  cases str with
  | nil => rfl
  | cons c str => simp [glyphDraws]

/-- Each glyph's square lies in the string's rectangle, so it is outside the canvas where the rectangle is. -/
theorem clipped_glyphDraws {w h : Nat} {str : List Char} {col row : Int} (rom : GlyphRom)
    (hout : 16 * col + 16 * (str.length : Int) ≤ 0 ∨ w ≤ 16 * col ∨ 16 * row + 16 ≤ 0 ∨ h ≤ 16 * row) :
    ∀ d ∈ glyphDraws str col row, d.Clipped rom w h := by
  unfold glyphDraws
  split
  · simpa using DrawOp.clipped_idle rom w h
  · intro d hd
    obtain ⟨⟨c, k⟩, hck, rfl⟩ := List.mem_map.mp hd
    have hk : k < str.length := (List.mem_zipIdx' hck).1
    exact DrawOp.clipped_glyph rom c (by dsimp only; omega)

/-- An operation whose DRAW steps are all clipped completes with result ok and changes no byte (R141). -/
theorem exec_draws_clipped {s : State} {i : Instr} {w h : Nat} {ds : List DrawOp} (hp : s.phase = .ready)
    (hb : Built s) (hw : s.width = some w) (hh : s.height = some h) (hi : illegalOperand i = none)
    (hf : i.format = .hostRecord) (hc : isConstruct i = false) (he : expansion i s = some (ds.map .draw))
    (hne : ds ≠ []) (hds : ∀ d ∈ ds, d.Clipped s.rom w h) :
    ∃ u v, exec i s = .next u ∧ runSteps ds.length u = .next v ∧ v.fb = s.fb ∧ v.result = some .ok := by
  obtain ⟨d, ds, rfl⟩ := List.exists_cons_of_ne_nil hne
  obtain ⟨m, hm⟩ := hb.fb_eq_some
  obtain ⟨u, v, hissue, -, hrun, prog, seq, rfl⟩ := exec_draws hp hb hw hh hm hi hf hc he
  refine ⟨u, _, hissue, hrun, ?_, rfl⟩
  exact (congrArg some (DrawOp.runAll_clipped hds (h / 8) m)).trans hm.symm

/-- The same of an operation of one DRAW step. -/
theorem exec_draw_clipped {s : State} {i : Instr} {w h : Nat} {d : DrawOp} (hp : s.phase = .ready) (hb : Built s)
    (hw : s.width = some w) (hh : s.height = some h) (hi : illegalOperand i = none) (hf : i.format = .hostRecord)
    (hc : isConstruct i = false) (he : expansion i s = some [.draw d]) (hd : d.Clipped s.rom w h) :
    ∃ u v, exec i s = .next u ∧ step u = .next v ∧ v.fb = s.fb ∧ v.result = some .ok := by
  obtain ⟨u, v, hissue, hrun, hv⟩ := exec_draws_clipped (ds := [d]) hp hb hw hh hi hf hc he (by simp) (by simpa using hd)
  exact ⟨u, v, hissue, runSteps_one_iff.mp hrun, hv⟩

/-- Settles O19: each of the four operations expands to clipped DRAW steps. -/
theorem clippedDrawingChangesNothing : Obligations.ClippedDrawingChangesNothing := by
  intro s w h hp hb hw hh
  refine ⟨fun x y value hvalue hout => ?_, fun src x y bw bh hwf hout => ?_, fun str col row hout => ?_,
    fun str col row hout => ?_⟩
  · exact exec_draw_clipped hp hb hw hh (if_pos hvalue) rfl rfl rfl (DrawOp.clipped_pixel s.rom _ hout)
  · exact exec_draw_clipped hp hb hw hh ((Laws.Domain.blit src x y bw bh).mpr hwf) rfl rfl rfl
      (DrawOp.clipped_blit s.rom src hout)
  · by_cases hstr : str = []
    · exact exec_draw_clipped hp hb hw hh rfl rfl rfl (congrArg some (if_pos hstr)) (DrawOp.clipped_idle s.rom w h)
    · exact exec_draw_clipped hp hb hw hh rfl rfl rfl (congrArg some (if_neg hstr)) (DrawOp.clipped_text s.rom str hout)
  · have hlen := length_glyphDraws str col row
    rw [← hlen]
    exact exec_draws_clipped hp hb hw hh rfl rfl rfl (congrArg some (glyphProgram_eq_map str col row))
      (List.ne_nil_of_length_pos (by omega)) (clipped_glyphDraws s.rom hout)

end Sys2Proof.Machine
end

section
/-! SUPPORT. Two blocks that differ in their transport alone (R184): each transfer, report and issue keeps them so, and
hence each step. -/

namespace Sys2Proof.Machine

/-! ## The two blocks -/

/-- The same block on a 4-wire port with these registers, trace and chip-select draws to come. -/
def State.onFourWire (r : FourWireRegs) (es : List Event) (ds : List CsDraw) (n : Nat) (s : State) : State :=
  { s with tr := some (.fourWire r), trace := es, env := { s.env with csDraws := ds, csDrawCount := n } }

/-- A state with the port, the trace and the chip-select draws left out: what `SameButWires` compares field by field. -/
def State.unwired (s : State) : State :=
  { s with tr := none, trace := [], env := { s.env with csDraws := [], csDrawCount := 0 } }

/-- The second block is the first one moved to a 4-wire port. -/
theorem SameButWires.exists_onFourWire {s t : State} (h : SameButWires s t) :
    ∃ r es ds n, t = s.onFourWire r es ds n := by
  obtain ⟨r, hr⟩ := h.fourWire
  refine ⟨r, t.trace, t.env.csDraws, t.env.csDrawCount, ?_⟩
  calc t = { t with tr := some (.fourWire r) } := by rw [← hr]
    _ = t.unwired.onFourWire r t.trace t.env.csDraws t.env.csDrawCount := rfl
    _ = s.unwired.onFourWire r t.trace t.env.csDraws t.env.csDrawCount :=
      congrArg (State.onFourWire r _ _ _) h.fields.symm

variable {s t : State}

theorem SameButWires.phase_eq (h : SameButWires s t) : t.phase = s.phase := by
  obtain ⟨r, es, ds, n, rfl⟩ := h.exists_onFourWire
  rfl

theorem SameButWires.requests_eq (h : SameButWires s t) : t.env.requests = s.env.requests := by
  obtain ⟨r, es, ds, n, rfl⟩ := h.exists_onFourWire
  rfl

/-- The blocks stay alike where both traces grow by the same abstract transfers and the same reports. -/
theorem SameButWires.extend {u v : State} {a : DevAddr} {r : FourWireRegs} {es fs : List Event} {xs : List Xfer}
    (h : SameButWires s t) (hu : u.tr = some (.twoWire a)) (hv : v.tr = some (.fourWire r))
    (hf : u.unwired = v.unwired) (hes : u.trace = s.trace ++ es) (hfs : v.trace = t.trace ++ fs)
    (hc : Carries es xs) (hd : Carries fs xs) (hr : reports es = reports fs) : SameButWires u v where
  twoWire := ⟨a, hu⟩
  fourWire := ⟨r, hv⟩
  fields := hf
  transfers := by rw [hes, hfs, ctrace_append hc, ctrace_append hd, h.transfers]
  reported := by rw [hes, hfs, reports_append, reports_append, h.reported, hr]

/-- The blocks stay alike where neither port is used and both traces grow by the same reports. -/
theorem SameButWires.report {u v : State} (es : List Event) (h : SameButWires s t) (hu : u.tr = s.tr)
    (hv : v.tr = t.tr) (hf : u.unwired = v.unwired) (hes : u.trace = s.trace ++ es) (hfs : v.trace = t.trace ++ es)
    (hc : Carries es []) : SameButWires u v := by
  obtain ⟨a, hs⟩ := h.twoWire
  obtain ⟨r, ht⟩ := h.fourWire
  exact h.extend (hu.trans hs) (hv.trans ht) hf hes hfs hc hc rfl

theorem carries_one_result (op : OpName) (r : Result) : Carries [.result op r] [] :=
  carries_result op r [] [] carries_nil

theorem Carries.of_append_nil {es : List Event} {xs : List Xfer} (h : Carries (es ++ []) xs) : Carries es xs := by
  simpa using h

/-! ## Transfers (R171, R172, R174 to R176) -/

theorem SameButWires.sendCommand (b : Byte) (h : SameButWires s t) :
    SameButWires (s.sendCommand b) (t.sendCommand b) := by
  obtain ⟨a, hs⟩ := h.twoWire
  obtain ⟨r, es, ds, n, rfl⟩ := h.exists_onFourWire
  have ht : (s.onFourWire r es ds n).tr = some (.fourWire r) := rfl
  cases ha : s.nextAnswer with
  | ok =>
    rw [sendCommand_ok b hs ha, sendCommand_ok b ht ha]
    exact h.extend rfl rfl rfl rfl rfl (carries_ok_cmd _ b [] [] carries_nil).of_append_nil
      (carries_ok_cmd _ b [] [] carries_nil).of_append_nil (by simp only [reports_ok])
  | fail =>
    rw [sendCommand_fail b hs ha, sendCommand_fail b ht ha]
    exact h.extend rfl rfl rfl (List.append_assoc ..) (List.append_assoc ..)
      (carries_bad_cmd _ b _ _ _ _ (carries_one_result _ _)) (carries_bad_cmd _ b _ _ _ _ (carries_one_result _ _))
      (by simp only [reports_append, reports_bad]; rfl)
  | hang =>
    rw [sendCommand_hang b hs ha, sendCommand_hang b ht ha]
    exact h.extend rfl rfl rfl rfl rfl (carries_bad_cmd _ b _ _ [] [] carries_nil).of_append_nil
      (carries_bad_cmd _ b _ _ [] [] carries_nil).of_append_nil (by simp only [reports_bad])

theorem SameButWires.dataTransfer {p q : Transport} (bs : List Byte) (h : SameButWires s t) (hs : s.tr = some p)
    (ht : t.tr = some q) : SameButWires (s.dataTransfer p bs) (t.dataTransfer q bs) := by
  obtain ⟨a, hp⟩ := h.twoWire
  obtain rfl : p = .twoWire a := Option.some.inj (hs.symm.trans hp)
  obtain ⟨r, es, ds, n, rfl⟩ := h.exists_onFourWire
  obtain rfl : .fourWire r = q := Option.some.inj ht
  cases ha : s.nextAnswer with
  | ok =>
    rw [dataTransfer_ok bs hs ha, dataTransfer_ok bs ht ha]
    exact h.extend rfl rfl rfl rfl rfl (carries_ok_data _ bs [] [] carries_nil).of_append_nil
      (carries_ok_data _ bs [] [] carries_nil).of_append_nil (by simp only [reports_ok])
  | fail =>
    rw [dataTransfer_fail bs hs ha, dataTransfer_fail bs ht ha]
    exact h.extend rfl rfl rfl (List.append_assoc ..) (List.append_assoc ..)
      (carries_bad_data _ bs _ _ _ _ (carries_one_result _ _)) (carries_bad_data _ bs _ _ _ _ (carries_one_result _ _))
      (by simp only [reports_append, reports_bad]; rfl)
  | hang =>
    rw [dataTransfer_hang bs hs ha, dataTransfer_hang bs ht ha]
    exact h.extend rfl rfl rfl rfl rfl (carries_bad_data _ bs _ _ [] [] carries_nil).of_append_nil
      (carries_bad_data _ bs _ _ [] [] carries_nil).of_append_nil (by simp only [reports_bad])

/-! ## Updates that use no port -/

theorem SameButWires.advance (h : SameButWires s t) : SameButWires s.advance t.advance := by
  obtain ⟨r, es, ds, n, rfl⟩ := h.exists_onFourWire
  exact h.report [] rfl rfl rfl (List.append_nil _).symm (List.append_nil _).symm carries_nil

theorem SameButWires.refuse (op : OpName) (e : Err) (h : SameButWires s t) :
    SameButWires (s.refuse op e) (t.refuse op e) := by
  obtain ⟨r, es, ds, n, rfl⟩ := h.exists_onFourWire
  exact h.report _ rfl rfl rfl rfl rfl (carries_one_result _ _)

theorem SameButWires.issue (i : Instr) (ph : Phase) (p : List MicroOp) (h : SameButWires s t) :
    SameButWires (s.issue i ph p) (t.issue i ph p) := by
  obtain ⟨r, es, ds, n, rfl⟩ := h.exists_onFourWire
  exact h.report [] rfl rfl rfl (List.append_nil _).symm (List.append_nil _).symm carries_nil

theorem SameButWires.complete (h : SameButWires s t) : SameButWires s.complete t.complete := by
  obtain ⟨r, es, ds, n, rfl⟩ := h.exists_onFourWire
  exact h.report _ rfl rfl rfl rfl rfl (carries_one_result _ _)

theorem SameButWires.finish (h : SameButWires s t) : SameButWires s.finish t.finish := by
  have hc := h.complete
  obtain ⟨r, es, ds, n, rfl⟩ := h.exists_onFourWire
  unfold State.finish
  change SameButWires _ (if s.phase.running && s.seq == s.prog.length then _ else _)
  split
  · exact hc
  · exact h

theorem SameButWires.dequeue (rest : List Request) (h : SameButWires s t) :
    SameButWires { s with env := { s.env with requests := rest } }
      { t with env := { t.env with requests := rest } } := by
  obtain ⟨r, es, ds, n, rfl⟩ := h.exists_onFourWire
  exact h.report [] rfl rfl rfl (List.append_nil _).symm (List.append_nil _).symm carries_nil

/-! ## Outcomes -/

/-- Two steps that end alike: both go on, and the blocks still differ in their transport alone, or both stop by one
name. -/
def OutcomesAgree (o o' : Host.Outcome State Fault Refusal) : Prop :=
  (∃ s' t', o = .next s' ∧ o' = .next t' ∧ SameButWires s' t') ∨
  (∃ f, o = .fault f ∧ o' = .fault f) ∨ ∃ r, o = .refused r ∧ o' = .refused r

theorem SameButWires.outcomesAgree (h : SameButWires s t) : OutcomesAgree (.next s) (.next t) :=
  .inl ⟨s, t, rfl, rfl, h⟩

theorem outcomesAgree_fault (f : Fault) : OutcomesAgree (.fault f) (.fault f) := .inr (.inl ⟨f, rfl, rfl⟩)

theorem outcomesAgree_refused (r : Refusal) : OutcomesAgree (.refused r) (.refused r) := .inr (.inr ⟨r, rfl, rfl⟩)

theorem OutcomesAgree.thenFinish {o o' : Host.Outcome State Fault Refusal} (h : OutcomesAgree o o') :
    OutcomesAgree (thenFinish o) (thenFinish o') := by
  rcases h with ⟨s', t', rfl, rfl, h⟩ | ⟨f, rfl, rfl⟩ | ⟨r, rfl, rfl⟩
  · exact h.finish.outcomesAgree
  · exact outcomesAgree_fault f
  · exact outcomesAgree_refused r

/-! ## Micro-operations of an operation other than construct (R32) -/

theorem SameButWires.runDraw (d : DrawOp) (h : SameButWires s t) : OutcomesAgree (runDraw d s) (runDraw d t) := by
  obtain ⟨r, es, ds, n, rfl⟩ := h.exists_onFourWire
  simp only [Machine.runDraw, State.onFourWire]
  split
  · refine SameButWires.outcomesAgree ?_
    exact h.report _ rfl rfl rfl rfl rfl (carries_draw d s.rom)
  · exact outcomesAgree_fault _

section
variable (h : SameButWires s t) (hr : s.phase.running = true)
include h hr

theorem SameButWires.runCmd (b : Byte) : OutcomesAgree (runCmd b s) (runCmd b t) := by
  obtain ⟨a, hs⟩ := h.twoWire
  have hn := h.sendCommand b
  obtain ⟨r, es, ds, n, rfl⟩ := h.exists_onFourWire
  rw [runCmd_eq b hs (halted_of_running hr), runCmd_eq (s := s.onFourWire r es ds n) b rfl (halted_of_running hr)]
  exact hn.outcomesAgree

theorem SameButWires.runData : OutcomesAgree (runData s) (runData t) := by
  obtain ⟨a, hs⟩ := h.twoWire
  obtain ⟨r, es, ds, n, rfl⟩ := h.exists_onFourWire
  have ht : (s.onFourWire r es ds n).tr = some (.fourWire r) := rfl
  have hsame : flushPayload (s.onFourWire r es ds n) = flushPayload s := rfl
  cases hb : flushPayload s with
  | none =>
    simp only [Machine.runData, hsame, hb]
    exact outcomesAgree_fault _
  | some bs =>
    rw [runData_eq hb hs (halted_of_running hr), runData_eq (hsame.trans hb) ht (halted_of_running hr)]
    exact (h.dataTransfer bs hs ht).outcomesAgree

theorem SameButWires.runMicro {m : MicroOp} (hm : plainOp m = true) : OutcomesAgree (runMicro m s) (runMicro m t) := by
  cases m with
  | cmd b => exact h.runCmd hr b
  | data => exact h.runData hr
  | draw d => exact h.runDraw d
  | commit u => exact h.advance.outcomesAgree
  | line | sleep | checkGeometry | alloc => cases hm

theorem SameButWires.sequencerStep (hm : ∀ m, s.prog[s.seq]? = some m → plainOp m = true) :
    OutcomesAgree (sequencerStep s) (sequencerStep t) := by
  have hrun : ∀ m, plainOp m = true → OutcomesAgree (Machine.runMicro m s) (Machine.runMicro m t) :=
    fun m => h.runMicro hr
  have hc := h.complete
  obtain ⟨r, es, ds, n, rfl⟩ := h.exists_onFourWire
  unfold Machine.sequencerStep
  simp only [show (s.onFourWire r es ds n).prog = s.prog from rfl, show (s.onFourWire r es ds n).seq = s.seq from rfl]
  cases hg : s.prog[s.seq]? with
  | some m => exact (hrun m (hm m hg)).thenFinish
  | none =>
    by_cases he : s.seq = s.prog.length
    · simp only [he, if_true]
      exact hc.outcomesAgree
    · simp only [he, if_false]
      exact outcomesAgree_fault _

end

/-! ## Requests (R8, R218, R221) -/

theorem SameButWires.issueReady (i : Instr) (p : Option (List MicroOp)) (h : SameButWires s t) :
    OutcomesAgree (issueReady i p s) (issueReady i p t) := by
  have hrefuse : ∀ e, OutcomesAgree (.next (s.refuse (opNameOf i) e)) (.next (t.refuse (opNameOf i) e)) :=
    fun e => (h.refuse _ e).outcomesAgree
  have hissue : ∀ q, OutcomesAgree (.next (s.issue i .busy q)) (.next (t.issue i .busy q)) :=
    fun q => (h.issue i _ q).outcomesAgree
  unfold Machine.issueReady
  rw [h.phase_eq]
  cases s.phase with
  | uninit | failed => exact hrefuse _
  | constructing | busy | hung | refused => exact outcomesAgree_fault _
  | ready =>
    cases illegalOperand i with
    | some o => exact hrefuse _
    | none =>
      cases p with
      | some q => exact hissue q
      | none => exact outcomesAgree_fault _

theorem SameButWires.execConstruct (w hh : Int) (e : Bool) (k : TransportKind) (h : SameButWires s t)
    (hp : s.phase ≠ .uninit) : OutcomesAgree (execConstruct w hh e k s) (execConstruct w hh e k t) := by
  have hrefuse : ∀ e, OutcomesAgree (.next (s.refuse .construct e)) (.next (t.refuse .construct e)) :=
    fun e => (h.refuse _ e).outcomesAgree
  unfold Machine.execConstruct
  rw [h.phase_eq]
  cases hs : s.phase with
  | uninit => exact absurd hs hp
  | ready | failed => exact hrefuse _
  | constructing | busy | hung | refused => exact outcomesAgree_fault _

theorem SameButWires.exec_host {i : Instr} (h : SameButWires s t) (hf : i.format = .hostRecord)
    (hp : s.phase ≠ .uninit) : OutcomesAgree (exec i s) (exec i t) := by
  cases hc : isConstruct i with
  | true =>
    obtain ⟨w, hh, e, k, rfl⟩ := isConstruct_iff hc
    exact h.execConstruct w hh e k hp
  | false =>
    have hexp : expansion i t = expansion i s := by
      obtain ⟨r, es, ds, n, rfl⟩ := h.exists_onFourWire
      exact expansion_congr i rfl ⟨rfl, rfl, rfl, rfl⟩
    rw [Machine.exec_host s hf hc, Machine.exec_host t hf hc, hexp]
    exact h.issueReady i _

theorem SameButWires.takeRequest (h : SameButWires s t) (hh : HostOnly s) (hp : s.phase ≠ .uninit) :
    OutcomesAgree (takeRequest s) (takeRequest t) := by
  cases hs : s.env.requests with
  | nil =>
    simp only [Machine.takeRequest, h.requests_eq, hs]
    exact h.outcomesAgree
  | cons r rest =>
    have ht : t.env.requests = r :: rest := h.requests_eq.trans hs
    cases hd : decode r.fmt r.bytes with
    | error e =>
      simp only [Machine.takeRequest, hs, ht, hd]
      exact outcomesAgree_refused _
    | ok i =>
      rw [takeRequest_of_decode hs hd, takeRequest_of_decode ht hd]
      have hfmt : r.fmt = .hostRecord := hh r (by simp [hs])
      exact (h.dequeue rest).exec_host (format_of_decode_host (hfmt ▸ hd)) hp

/-- Settles O59: a request is answered alike, and every micro-operation of an operation other than construct keeps the
blocks apart in their transport alone. -/
theorem transportsAgreeStepByStep : Obligations.TransportsAgreeStepByStep := by
  intro s t hs hu hc h
  change OutcomesAgree (stepBlock s) (stepBlock t)
  unfold stepBlock
  rw [h.phase_eq]
  cases hp : s.phase with
  | uninit => exact absurd hp hu
  | constructing => exact absurd hp hc
  | ready | failed => exact h.takeRequest hs.host hu
  | busy =>
    have hr : s.phase.running = true := running_iff.mpr (.inr hp)
    obtain ⟨i, tr, hrun⟩ := (phaseFits_running hr).mp hs.phaseFits
    exact h.sequencerStep hr fun m hm => hrun.plain hc hm
  | hung | refused => exact outcomesAgree_fault _

end Sys2Proof.Machine
end

section
/-! SUPPORT. Transfers that do not complete: a frame without its transport, a transfer that is not answered, and a
command group that stops at its first byte not answered ok (R170, R173, R181, R183, R373). -/

namespace Sys2Proof.Machine

/-! ## Frames without their transport (R51, R170, R339) -/

/-- With no transport set up every transfer stops by name (R51). -/
theorem exec_noTransport {s : State} {i : Instr} (hn : NotTerminal s) (ht : s.tr = none)
    (hf : i.format ≠ .hostRecord) : exec i s = .fault .noTransport := by
  have hh : s.halted = none := halted_eq_none.mpr hn
  have group : ∀ bs, sendGroup bs s = .fault .noTransport := fun bs => by simp only [sendGroup, hh, ht]
  cases i
  case i2cCommandFrame b => simp only [exec, execI2cCommandFrame, hh, ht]
  case i2cDataFrame bs => simp only [exec, execI2cDataFrame, hh, ht]
  case spiCommandTransfer b => simp only [exec, execSpiCommandTransfer, hh, ht]
  case spiDataTransfer bs => simp only [exec, execSpiDataTransfer, hh, ht]
  case construct | initSequence | flush | powerOn | powerOff | setContrast | setInverted | setPixel | blit | clear
      | drawText | drawWideGlyphs => exact absurd rfl hf
  all_goals exact group _

/-- Settles O30: outside the terminal phases a frame stops at the other transport's port or at none; Failed refuses it. -/
theorem framesNeedTheirTransport : Obligations.FramesNeedTheirTransport := by
  refine ⟨fun s r b bs hn ht => ?_, fun s a b bs hn ht => ?_, fun s i => exec_noTransport, fun s i hp hf => ?_⟩
  · simp only [exec, execI2cCommandFrame, execI2cDataFrame, halted_eq_none.mpr hn, ht, and_self]
  · simp only [exec, execSpiCommandTransfer, execSpiDataTransfer, halted_eq_none.mpr hn, ht, and_self]
  · have hh : s.halted = some (.next (s.refuse .transport (.notReady .transport .failed))) := by
      simp only [State.halted, hp]
    rw [exec_wire_halted hf hh]
    rfl

/-! ## A transfer that is not answered (R181, R373) -/

/-- A micro-operation that hangs the block is the step, and the last one (R181, R339). -/
theorem step_hung {s u : State} {m : MicroOp} (hr : s.phase.running = true) (hm : s.prog[s.seq]? = some m)
    (hu : runMicro m s = .next u) (hp : u.phase = .hung) : step s = .next u ∧ step u = .fault .hung := by
  have hidle : u.phase.running = false := by rw [hp]; rfl
  refine ⟨?_, by simp only [step, stepBlock, hp]⟩
  rw [step_running hr hm hu, finish_idle hidle]

/-- Settles O50: the step is the transfer's own hang, for a command and for a data block. -/
theorem unansweredTransferHangs : Obligations.UnansweredTransferHangs := by
  intro s t hp ht ha
  have hr : s.phase.running = true := running_iff.mpr hp
  have hh : s.halted = none := halted_of_running hr
  refine ⟨fun b hm => ?_, fun w p m hw hpg hfb hm => ?_⟩
  · have hu := runCmd_eq b ht hh
    rw [sendCommand_hang b ht ha] at hu
    obtain ⟨hstep, hstop⟩ := step_hung hr hm hu rfl
    exact ⟨_, _, hstep, hstop, rfl⟩
  · have hu := runData_eq (flushPayload_eq hw hpg hfb) ht hh
    rw [dataTransfer_hang _ ht ha] at hu
    obtain ⟨hstep, hstop⟩ := step_hung hr hm hu rfl
    exact ⟨_, _, hstep, hstop, rfl⟩

/-! ## A command group cut short (R173, R183) -/

/-- A wire command is an opcode and as many arguments as the opcode map gives it (R104, R105). -/
theorem encode_wireCommand {i : Instr} (hf : i.format = .wireCommand) :
    ∃ c args, encode i = c :: args ∧ argCount c = some args.length := by
  cases i
  case cmdDisp v | cmdSegRemap v | cmdComOutDir v | cmdNormInv v =>
    cases v <;> exact ⟨_, [], rfl, by decide⟩
  case cmdDispStartLine | cmdEntireOn => exact ⟨_, [], rfl, by decide⟩
  case cmdMemAddr a | cmdMuxRatio a | cmdDispOffset a | cmdComPinCfg a | cmdDispClkDiv a | cmdPrecharge a
      | cmdVcomDesel a | cmdContrast a | cmdChargePump a => exact ⟨_, [a], rfl, by simp⟩
  case cmdColAddr a b | cmdPageAddr a b => exact ⟨_, [a, b], rfl, by simp⟩
  all_goals cases hf

/-- A group that lacks an argument stays open, and writes no register (R292). -/
theorem panelAfter_pending {p : Panel} {c : Byte} {k : Nat} (done args : List Byte) (hs : p.sync = true)
    (hp : p.pend = some (c, done)) (hc : argCount c = some k) (hk : done.length + args.length < k) :
    panelAfter args p = { p with pend := some (c, done ++ args) } := by
  induction args generalizing p done with
  | nil => simp [← hp]
  | cons a args ih =>
    rw [List.length_cons] at hk
    have hne : argCount c ≠ some (done.length + 1) := by
      rw [hc, Ne, Option.some.injEq]
      omega
    have hopen : p.update a = { p with pend := some (c, done ++ [a]) } := by simp [Panel.update, hs, hp, hne]
    have hlen : (done ++ [a]).length + args.length < k := by
      rw [List.length_append, List.length_singleton]
      omega
    rw [panelAfter_cons, ih (done ++ [a]) (by rw [hopen]; exact hs) (by rw [hopen]) hlen, hopen]
    simp

/-- The bytes of a wire command but for the last ones write no register and keep `sync` (R292). -/
theorem panelAfter_partGroup {p : Panel} {i : Instr} {sent unsent : List Byte} {b : Byte} (hf : i.format = .wireCommand)
    (he : encode i = sent ++ b :: unsent) (hs : p.sync = true) (hp : p.pend = none) :
    (panelAfter sent p).regs = p.regs ∧ (panelAfter sent p).sync = true := by
  obtain ⟨c, args, hca, hc⟩ := encode_wireCommand hf
  cases sent with
  | nil => exact ⟨rfl, hs⟩
  | cons c' sent =>
    obtain ⟨rfl, rfl⟩ : c = c' ∧ args = sent ++ b :: unsent := by simpa [hca] using he
    have hopen : p.update c = { p with pend := some (c, []) } := by
      simp [Panel.update, hs, hp, hc]
    rw [panelAfter_cons, panelAfter_pending (c := c) [] sent (by rw [hopen]; exact hs) (by rw [hopen]) hc (by simp),
      hopen]
    exact ⟨rfl, hs⟩

/-- A command transfer does not depend on the levels the one before left on DC and CS (R174). -/
theorem sendCommand_after_ok {s : State} {t : Transport} (b : Byte) (dc : Bool) (ht : s.tr = some t) :
    State.sendCommand b { s with tr := some (okTransport t dc) } = s.sendCommand b := by
  have hs : { s with tr := some t } = s := by rw [← ht]
  calc State.sendCommand b { s with tr := some (okTransport t dc) }
      = State.sendCommand b { s with tr := some t } := by cases t <;> rfl
    _ = s.sendCommand b := by rw [hs]

/-- The state in which bytes all answered ok leave the block to the rest of their group, but for the levels of DC and
CS. -/
def State.afterSent (t : Transport) (sent : List Byte) (later : List Answer) (s : State) : State :=
  { s with
    env := { s.env with answers := later, answerCount := s.env.answerCount + sent.length }
    trace := s.trace ++ okCommands t sent, panel := panelAfter sent s.panel, seq := s.seq + sent.length }

theorem afterSent_nil {s : State} {later : List Answer} (t : Transport) (ha : s.env.answers = later) :
    s.afterSent t [] later = s := by
  subst ha
  simp [State.afterSent]

theorem afterSent_sendCommand {s : State} {t : Transport} (c : Byte) (sent : List Byte) (later : List Answer)
    (ht : s.tr = some t) (hok : s.nextAnswer = .ok) :
    (s.sendCommand c).afterSent (okTransport t false) sent later =
      { s.afterSent t (c :: sent) later with tr := some (okTransport t false) } := by
  rw [sendCommand_ok c ht hok]
  simp [State.afterSent, Nat.add_assoc, Nat.add_comm 1]

/-- A group stops at its first byte not answered ok (R173, R183). -/
theorem sendBytes_stops {s : State} {t : Transport} {bad : Answer} {rest : List Answer} (sent unsent : List Byte)
    (b : Byte) (ht : s.tr = some t) (hbad : bad ≠ .ok)
    (ha : s.env.answers = List.replicate sent.length Answer.ok ++ bad :: rest) :
    s.sendBytes (sent ++ b :: unsent) = (s.afterSent t sent (bad :: rest)).sendCommand b := by
  induction sent generalizing s t with
  | nil =>
    have hans : s.nextAnswer ≠ .ok := by simpa [State.nextAnswer, ha] using hbad
    rw [List.nil_append, sendBytes_bad b unsent hans, afterSent_nil t (by simpa using ha)]
  | cons c sent ih =>
    have hok : s.nextAnswer = .ok := by simp [State.nextAnswer, ha, List.replicate_succ]
    have h1 := sendCommand_ok c ht hok
    rw [List.cons_append, State.sendBytes, if_pos hok, ih (t := okTransport t false) (by rw [h1])
      (by rw [h1]; simp [ha, List.replicate_succ]), afterSent_sendCommand c sent _ ht hok]
    exact sendCommand_after_ok (s := s.afterSent t (c :: sent) (bad :: rest)) b false ht

/-- Settles O35: the bytes before the failed one leave the group open, and the failed one ends the group as it would end
a transfer of its own. -/
theorem groupStopsAtAFailedByte : Obligations.GroupStopsAtAFailedByte := by
  intro s t i sent unsent b bad rest hn ht hf he hbad hs hp ha
  obtain ⟨hregs, hsync⟩ := panelAfter_partGroup hf he hs hp
  have hexec : exec i s = .next ((s.afterSent t sent (bad :: rest)).sendCommand b) := by
    rw [exec_wire_encode s hf, he]
    simp only [sendGroup, halted_eq_none.mpr hn, ht, sendBytes_stops sent unsent b ht hbad ha]
  refine ⟨_, hexec, ?_⟩
  have ht' : (s.afterSent t sent (bad :: rest)).tr = some t := ht
  cases bad with
  | ok => exact absurd rfl hbad
  | fail =>
    rw [sendCommand_fail b ht' rfl]
    exact ⟨rfl, hregs, fun _ => ⟨rfl, rfl, rfl, rfl, rfl⟩, nofun⟩
  | hang =>
    rw [sendCommand_hang b ht' rfl]
    exact ⟨rfl, hregs, nofun, fun _ => ⟨hsync, rfl, rfl, rfl⟩⟩

end Sys2Proof.Machine
end

section
/-! SUPPORT. The controller family: what an issue does (R201, R218, R221), the operations of command bytes and a COMMIT
from issue to completion (R205, R213 to R216), the flush (R210 to R212), and construction's line setup and failed
check (R177, R202). -/

namespace Sys2Proof.Machine

/-! ## Issue (R201, R218, R221) -/

theorem isConstruct_eq_false {i : Instr} (h : ∀ w h e k, i ≠ .construct w h e k) : isConstruct i = false := by
  cases hc : isConstruct i with
  | false => rfl
  | true =>
    obtain ⟨w, h', e, k, rfl⟩ := isConstruct_iff hc
    exact absurd rfl (h w h' e k)

/-- A well-formed host operation has no operand outside its domain (R102, R324). -/
theorem illegalOperand_of_wf {i : Instr} (hf : i.format = .hostRecord) (hwf : i.wf = true) :
    illegalOperand i = none := by
  cases i
  case setContrast level => exact (Laws.Domain.setContrast level).mpr hwf
  case setInverted flag => exact (Laws.Domain.setInverted flag).mpr hwf
  case setPixel x y value => exact (Laws.Domain.setPixel x y value).mpr hwf
  case blit src x y bw bh => exact (Laws.Domain.blit src x y bw bh).mpr hwf
  case clear value => exact (Laws.Domain.clear value).mpr hwf
  case construct | initSequence | flush | powerOn | powerOff | drawText | drawWideGlyphs => rfl
  all_goals cases hf

theorem exec_issue {s : State} {i : Instr} {p : List MicroOp} (hp : s.phase = .ready) (hf : i.format = .hostRecord)
    (hc : isConstruct i = false) (hi : illegalOperand i = none) (he : expansion i s = some p) :
    exec i s = .next (s.issue i .busy p) := by
  rw [exec_host s hf hc, he, issueReady_ready hp hi]

/-- Settles O11: the issue in Ready of an operation with legal operands loads its expansion. -/
theorem issueLoadsTheProgram : Obligations.IssueLoadsTheProgram := by
  intro s i p hp hf hc hwf he
  exact exec_issue hp hf (isConstruct_eq_false hc) (illegalOperand_of_wf hf hwf) he

/-- Settles O12: construct looks at the phase alone, and every other operation at the phase before its operands. -/
theorem wrongPhaseIsRefused : Obligations.WrongPhaseIsRefused := by
  rintro s i hf (⟨⟨w, h, e, k, rfl⟩, hp⟩ | ⟨hc, hp⟩)
  · rcases hp with hp | hp <;> simp only [exec, execConstruct, hp, State.refuse, opNameOf]
  · rw [exec_host s hf (isConstruct_eq_false hc)]
    rcases hp with hp | hp <;> simp only [issueReady, hp, State.refuse]

/-! ## The command lists (R204, R207 to R209) -/

/-- Settles O39: the lists evaluate to the spec's bytes. -/
theorem commandListsAreTheSpecs : Obligations.CommandListsAreTheSpecs :=
  ⟨rfl, rfl, rfl, rfl, rfl, rfl, rfl, rfl⟩

/-- The flush window of a supported geometry, byte for byte (R209, R210). -/
theorem windowBytes_supported {w h : Nat} (hw : w = 64 ∨ w = 128) (hh : h = 32 ∨ h = 64) :
    windowBytes w (h / 8) = [0x21, if w = 64 then 0x20 else 0x00, if w = 64 then 0x5F else 0x7F,
      0x22, 0x00, if h = 32 then 0x03 else 0x07] := by
  obtain ⟨-, -, -, -, hnarrowLow, hnarrowHigh, hwideLow, hwideHigh⟩ := commandListsAreTheSpecs
  rcases hw with rfl | rfl <;> rcases hh with rfl | rfl
  · exact hnarrowLow
  · exact hnarrowHigh
  · exact hwideLow
  · exact hwideHigh

/-! ## Command bytes and a COMMIT (R205, R213 to R216) -/

/-- An operation of command bytes and a COMMIT, from its issue to its completion with every answer ok (R218, R219). -/
theorem exec_cmds_commit {s : State} {i : Instr} {t : Transport} {c : Commit} {b : Byte} {bs : List Byte}
    (hp : s.phase = .ready) (hf : i.format = .hostRecord) (hc : isConstruct i = false) (hi : illegalOperand i = none)
    (he : expansion i s = some (cmds (b :: bs) ++ [.commit c])) (ht : s.tr = some t)
    (ha : AnswersOk (b :: bs).length s) :
    ∃ u v, exec i s = .next u ∧ u.phase = .busy ∧ runSteps ((b :: bs).length + 1) u = .next v ∧
      ∃ prog seq env, v = { s with
        op := none, prog := prog, seq := seq, env := env, tr := some (okTransport t false)
        panel := panelAfter (b :: bs) s.panel, powerOn := committed c.powerOn s.powerOn
        contrast := committed c.contrast s.contrast, inverted := committed c.inverted s.inverted, result := some .ok
        trace := s.trace ++ okCommands t (b :: bs) ++ [.result (opNameOf i) .ok] } := by
  have hcommit : commitOf (cmds (b :: bs) ++ [.commit c]) = c := by simp [commitOf]
  obtain ⟨env, hrun⟩ := runSteps_cmds_commit (s := s.issue i .busy (cmds (b :: bs) ++ [MicroOp.commit c])) i b bs
    rfl rfl rfl hcommit ht ha
  exact ⟨_, _, exec_issue hp hf hc hi he, rfl, hrun, cmds (b :: bs) ++ [.commit c], 0 + (b :: bs).length + 1, env,
    by simp [State.issue, hp]⟩

/-- Settles O41: the 25 bytes of the list are commands, and the COMMIT names the three fields. -/
theorem initSequenceCompletes : Obligations.InitSequenceCompletes := by
  intro s h e t hp hh he ht ha
  have hexp : expansion .initSequence s = some (initProgram h e) := by simp only [expansion, initProgramOf, hh, he]
  exact exec_cmds_commit (b := 0xAE) (bs := (initBytes h e).tail) hp rfl rfl rfl hexp ht ha

/-- Settles O43: each operation is one command byte and a COMMIT of the flag. -/
theorem powerSwitches : Obligations.PowerSwitches := by
  intro s t on hp ht ha
  cases on with
  | false => exact exec_cmds_commit (i := .powerOff) (b := 0xAE) (bs := []) hp rfl rfl rfl rfl ht ha
  | true => exact exec_cmds_commit (i := .powerOn) (b := 0xAF) (bs := []) hp rfl rfl rfl rfl ht ha

/-- Settles O44: every level is in the domain, and goes to the panel and to the field as the byte it is. -/
theorem setContrastCompletes : Obligations.SetContrastCompletes := by
  intro s t level hp ht ha
  have hlegal : illegalOperand (.setContrast level.toNat) = none := if_pos (by have := level.isLt; omega)
  have hexp : expansion (.setContrast level.toNat) s =
      some (cmds [0x81, level] ++ [.commit { contrast := some level }]) := by simp [expansion, byteOf, cmds]
  exact exec_cmds_commit hp rfl rfl hlegal hexp ht ha

/-- Settles O45: the operation is one command byte, which carries the flag, and a COMMIT of the flag. -/
theorem setInvertedCompletes : Obligations.SetInvertedCompletes := by
  intro s t flag hp ht ha
  cases flag with
  | false => exact exec_cmds_commit (i := .setInverted 0) (b := 0xA6) (bs := []) hp rfl rfl rfl rfl ht ha
  | true => exact exec_cmds_commit (i := .setInverted 1) (b := 0xA7) (bs := []) hp rfl rfl rfl rfl ht ha

/-! ## The flush (R210 to R212) -/

/-- The events of a flush with every answer ok (R210, R211). -/
def flushEvents (t : Transport) (w p : Nat) (m : Memory) : List Event :=
  okCommands t (windowBytes w p) ++ okEvents t true (m.bytes (p * w)) ++ [.result .flush .ok]

@[simp] theorem flushEvents_okTransport (t : Transport) (dc : Bool) (w p : Nat) (m : Memory) :
    flushEvents (okTransport t dc) w p m = flushEvents t w p m := by simp [flushEvents]

/-- The state after a flush with every answer ok (R210, R211, R220). -/
def State.flushedBy (t : Transport) (w p : Nat) (m : Memory) (env : Env) (s : State) : State :=
  { s with
    op := none, prog := flushProgram w p, seq := 7, env := env, tr := some (okTransport t true)
    panel := panelAfter (windowBytes w p) s.panel, flushed := some (m.bytes (p * w)), result := some .ok
    trace := s.trace ++ flushEvents t w p m }

/-- A flush with every answer ok, from its issue to its completion, and the answers that are left. -/
theorem exec_flush_ok {s : State} {t : Transport} {w p : Nat} {m : Memory} {later : List Answer}
    (hp : s.phase = .ready) (hw : s.width = some w) (hpg : s.pages = some p) (hm : s.fb = some m) (ht : s.tr = some t)
    (ha : s.env.answers = List.replicate 7 .ok ++ later) :
    ∃ u env, exec .flush s = .next u ∧ u.phase = .busy ∧ runSteps 7 u = .next (s.flushedBy t w p m env) ∧
      env.answers = later := by
  obtain ⟨env, hrun, henv⟩ := runSteps_flush (s := s.issue .flush .busy (flushProgram w p)) .flush rfl rfl rfl
    (commitOf_flush w p) ht hw hpg hm ⟨later, ha⟩
  refine ⟨_, env, exec_flush hp hw hpg, rfl, hrun.trans ?_, henv later ha⟩
  simp [State.issue, State.flushedBy, flushEvents, opNameOf, hp]

theorem Memory.getElem?_bytes {n a : Nat} (m : Memory) (ha : a < n) : (m.bytes n)[a]? = some (m.read a) := by
  simp [Memory.bytes, ha]

/-- Settles O42: the window of the geometry, then the image of the framebuffer. -/
theorem flushCompletes : Obligations.FlushCompletes := by
  rintro s w h m t hp hb hw hh hm ht ⟨later, ha⟩
  obtain ⟨u, env, hissue, hbusy, hrun, -⟩ := exec_flush_ok hp hw (hb.pages_eq hh) hm ht ha
  obtain ⟨w', h', _, _, hw', hh', -, -, -, hws, hhs, -⟩ := hb
  obtain rfl : w' = w := Option.some.inj (hw'.symm.trans hw)
  obtain rfl : h' = h := Option.some.inj (hh'.symm.trans hh)
  refine ⟨u, _, m.bytes (h' / 8 * w'), hissue, hbusy, hrun, by simp [Memory.bytes],
    fun a ha => Memory.getElem?_bytes m ha, flushProgram w' (h' / 8), 7, env, ?_⟩
  rw [← windowBytes_supported hws hhs]
  simp [State.flushedBy, flushEvents]

/-- Settles O46: a flush leaves the geometry and the framebuffer, so the next one is the same flush. -/
theorem flushIsIdempotent : Obligations.FlushIsIdempotent := by
  rintro s t hp ⟨w, h, _, m, hw, -, hpg, -, hm, -⟩ ht ⟨later, ha⟩
  have hfirst : s.env.answers = List.replicate 7 Answer.ok ++ (List.replicate 7 Answer.ok ++ later) := ha
  obtain ⟨u, env, hissue, -, hrun, henv⟩ := exec_flush_ok hp hw hpg hm ht hfirst
  obtain ⟨u', env', hissue', -, hrun', -⟩ :=
    exec_flush_ok (s := s.flushedBy t w (h / 8) m env) hp hw hpg hm rfl henv
  refine ⟨u, _, u', _, flushEvents t w (h / 8) m, hissue, hrun, hissue', hrun', rfl, ?_, rfl, rfl, rfl, hp, hp⟩
  simp only [State.flushedBy, flushEvents_okTransport]

/-! ## Construction (R177, R178, R201, R202) -/

/-- The line setup of a 4-wire construction: its three levels, and the rate by the third step (R177, log 7). -/
theorem runSteps_lineSetup (i : Instr) (rest : List MicroOp) (s : State) :
    runSteps 3 (s.issued i .fourWire rest) = .next { s.issued i .fourWire rest with
      seq := 3, trace := s.trace ++ [.dc false, .res s.cfg.resActive, .cs true]
      tr := some (.fourWire { dc := false, res := s.cfg.resActive, cs := true, rate := s.cfg.spiRate }) } := by
  rw [runSteps_of_step 2 (step_line rfl rfl rfl), runSteps_of_step 1 (step_line rfl rfl rfl),
    runSteps_of_step 0 (step_line rfl rfl rfl)]
  simp [runSteps, State.driveLine, State.advance, State.issued, State.issue, FourWireRegs.afterLine,
    FourWireRegs.drive, lineEvent]

/-- Settles O37: construct's issue, and the first three steps of the transport's setup. -/
theorem constructIsIssued : Obligations.ConstructIsIssued := by
  intro s w h e k hp
  refine ⟨_, newTransport s.cfg k, exec_construct w h e k hp, rfl, ?_, ?_, ?_⟩
  · rintro rfl
    rfl
  · rintro rfl
    exact ⟨⟨_, rfl⟩, _, runSteps_lineSetup _ _ s, rfl⟩
  · cases k <;> simp [State.issued, setupProgram, initProgram, initCommit, flushProgram, cmds]

theorem geometryOk_iff {w h : Int} : geometryOk w h = true ↔ (w = 64 ∨ w = 128) ∧ (h = 32 ∨ h = 64) := by
  simp [geometryOk]

/-- The check of an unsupported geometry ends a construction (R202, R321). -/
theorem step_checkGeometry_fails {s : State} {w h : Int} (hp : s.phase = .constructing)
    (hm : s.prog[s.seq]? = some (.checkGeometry w h)) (hg : geometryOk w h = false) :
    step s = .next (s.raise (.invalidGeometry w h)) := by
  have hcheck : runMicro (.checkGeometry w h) s = .next (s.raise (.invalidGeometry w h)) := by
    simp [runMicro, runCheckGeometry, hg]
  rw [step_running (running_iff.mpr (.inl hp)) hm hcheck, finish_idle (by rw [State.raise_phase, hp]; rfl)]

/-- Settles O40: the transport's setup, and the check that raises InvalidGeometry. -/
theorem unsupportedGeometryFailsConstruction : Obligations.UnsupportedGeometryFailsConstruction := by
  intro s w h e k hp _ hg
  have hok : geometryOk w h = false := by rwa [← Bool.not_eq_true, geometryOk_iff]
  have hissue := exec_construct w h e k hp
  generalize MicroOp.alloc w h e :: (initProgram h.toNat e ++ flushProgram w.toNat (h.toNat / 8)) = rest at hissue
  generalize hi : Instr.construct w h e k = i at hissue ⊢
  have hcheck : step (s.setUp i k (.checkGeometry w h :: rest)) = _ :=
    step_checkGeometry_fails rfl (by simp [State.setUp, State.issued]) hok
  have hrun := runSteps_trans (runSteps_setup i k (.checkGeometry w h) rest s) (runSteps_one hcheck)
  have hlen : (setupProgram s.cfg.resActive k).length + 1 = if k = .fourWire then 9 else 1 := by cases k <;> rfl
  rw [hlen] at hrun
  refine ⟨_, _, hissue, hrun, (s.setUp i k (.checkGeometry w h :: rest)).prog,
    (s.setUp i k (.checkGeometry w h :: rest)).seq, setUpTransport s.cfg k, ?_⟩
  subst hi
  cases k <;> rfl

end Sys2Proof.Machine
end

section
/-! SUPPORT. The moves of the phase: where a micro-operation, a step of an operation and a request leave it (R200). -/

namespace Sys2Proof.Machine

/-- Where a micro-operation leaves the phase: the operation goes on, ends in an error, or hangs (R181, R328). -/
theorem runMicro_phase {s u : State} {m : MicroOp} (hr : s.phase.running = true) (h : runMicro m s = .next u) :
    u.phase = s.phase ∨ u.phase = s.phase.afterError ∨ u.phase = .hung := by
  rcases runMicro_cases (halted_of_running hr) h with ⟨b, t, -, ht, rfl⟩ | ⟨w, p, g, t, -, -, -, -, ht, rfl⟩ |
    ⟨l, v, r, -, -, rfl⟩ | ⟨n, -, rfl⟩ | ⟨w, h', -, rfl⟩ | ⟨w, h', e, -, rfl⟩ |
    ⟨d, w, h', p, g, -, -, -, -, -, rfl⟩ | ⟨c, -, rfl⟩
  · cases ha : s.nextAnswer with
    | ok => rw [sendCommand_ok b ht ha]; exact .inl rfl
    | fail => rw [sendCommand_fail b ht ha]; exact .inr (.inl rfl)
    | hang => rw [sendCommand_hang b ht ha]; exact .inr (.inr rfl)
  · cases ha : s.nextAnswer with
    | ok => rw [dataTransfer_ok _ ht ha]; exact .inl rfl
    | fail => rw [dataTransfer_fail _ ht ha]; exact .inr (.inl rfl)
    | hang => rw [dataTransfer_hang _ ht ha]; exact .inr (.inr rfl)
  · exact .inl rfl
  · exact .inl rfl
  · unfold runCheckGeometry
    split
    · exact .inl rfl
    · exact .inr (.inl rfl)
  · exact .inl rfl
  · exact .inl rfl
  · exact .inl rfl

/-- Where a step of an operation in progress leaves the phase: as its micro-operation does, or Ready (R200, R220). -/
theorem running_step_phase {s t : State} (hr : s.phase.running = true) (h : step s = .next t) :
    t.phase = s.phase ∨ t.phase = s.phase.afterError ∨ t.phase = .hung ∨ t.phase = .ready := by
  rcases step_cases h with ⟨hp, -⟩ | ⟨-, ⟨m, u, -, hu, rfl⟩ | ⟨-, rfl⟩⟩
  · rcases hp with hp | hp | hp <;> simp [hp, Phase.running] at hr
  · rcases finish_cases u with hf | ⟨-, -, hf⟩ <;> rw [hf]
    · rcases runMicro_phase hr hu with hp | hp | hp
      · exact .inl hp
      · exact .inr (.inl hp)
      · exact .inr (.inr (.inl hp))
    · exact .inr (.inr (.inr rfl))
  · exact .inr (.inr (.inr rfl))

/-- Where a step with no operation in progress leaves the phase, the host queueing host operations only: a wait, a
refusal, or an issue (R200, R221; log 1, log 2). -/
theorem idle_step_phase {s t : State} (hr : s.phase.running = false) (hs : HostOnly s) (h : step s = .next t) :
    (s.phase = .uninit ∨ s.phase = .ready ∨ s.phase = .failed) ∧
      (t.phase = s.phase ∨ t.phase = .refused ∨ (s.phase = .uninit ∧ t.phase = .constructing) ∨
        (s.phase = .ready ∧ t.phase = .busy)) := by
  rcases step_cases h with ⟨hp, ⟨-, rfl⟩ | ⟨r, rest, i, hq, hd, he⟩⟩ | ⟨hrun, -⟩
  · exact ⟨hp, .inl rfl⟩
  · have hfmt : r.fmt = .hostRecord := hs r (by simp [hq])
    rw [hfmt] at hd
    refine ⟨hp, .inr ?_⟩
    rcases exec_host_cases (format_of_decode_host hd) he with ⟨-, e, rfl⟩ | ⟨hu, w, h', e, k, -, rfl⟩ |
      ⟨hready, -, -, p, -, rfl⟩
    · exact .inl rfl
    · exact .inr (.inl ⟨hu, rfl⟩)
    · exact .inr (.inr ⟨hready, rfl⟩)
  · rw [hr] at hrun
    cases hrun

/-- Settles O51: the moves of an operation in progress and of a request, phase by phase. -/
theorem phaseMovesAreTheDiagrams : Obligations.PhaseMovesAreTheDiagrams := by
  intro s t hs h
  cases hr : s.phase.running with
  | true =>
    have ht := running_step_phase hr h
    rcases running_iff.mp hr with hp | hp <;> rw [hp] at ht ⊢ <;> simp only [Phase.afterError] at ht ⊢
    · tauto
    · tauto
  | false =>
    obtain ⟨hp, ht⟩ := idle_step_phase hr hs h
    rcases hp with hp | hp | hp <;> rw [hp] at ht ⊢ <;> simpa [or_comm, or_left_comm] using ht

end Sys2Proof.Machine
end

section
/-! SUPPORT. The drawing family: text in its cells (R242, R243), wide glyphs in input order (R246 to R248), and what one
DRAW step touches (R32, R146, R182, R240). -/

namespace Sys2Proof.Machine

/-! ## Reading pixels back (R72) -/

/-- Reading a pixel of a constructed block is `PixRead` of its framebuffer (R72). -/
theorem State.pixel_eq_pixRead {s : State} {w h : Nat} {m : Memory} (hw : s.width = some w) (hh : s.height = some h)
    (hm : s.fb = some m) (x y : Int) : s.pixel x y = pixRead w h m x y := by
  simp only [State.pixel, hw, hh, hm]

/-- A pixel of the canvas no write of the list names reads as before (R72, R73). -/
theorem pixRead_drawPixels_other {w h : Nat} {x y : Int} (ps : List PixelWrite) (m : Memory)
    (hin : inside w h x y = true) (hn : ∀ p ∈ ps, ¬(p.x = x ∧ p.y = y)) :
    pixRead w h (drawPixels w h ps m) x y = pixRead w h m x y := by
  rw [pixRead_inside _ hin, pixRead_inside _ hin, pixelBit_drawPixels_other ps m hin hn]

/-! ## Text (R241 to R243) -/

/-- A string of no characters has no cell to write in (R243 T2). -/
@[simp] theorem textPrimitive_nil (x0 y0 : Int) : textPrimitive [] x0 y0 = [] := by
  simp [textPrimitive, textPixels]

/-- `draw_text` is one DRAW step of TEXT's writes that reports nothing, the empty string's too (R241, R242). -/
theorem expansion_drawText (s : State) (str : List Char) (col row : Int) :
    ∃ d : DrawOp, expansion (.drawText str col row) s = some [.draw d] ∧ d.events s.rom = [] ∧
      ∀ w h pages m, d.run s.rom w h pages m = drawPixels w h (textPrimitive str (8 * col) (8 * row)) m := by
  by_cases hstr : str = []
  · subst hstr
    exact ⟨.idle, rfl, rfl, fun w h pages m => by rw [textPrimitive_nil]; rfl⟩
  · exact ⟨.text str col row, congrArg some (if_neg hstr), rfl, fun _ _ _ _ => rfl⟩

/-- Settles O20: the operation is one DRAW step, and TEXT's writes lie in the string's cells. -/
theorem drawTextStaysInItsCells : Obligations.DrawTextStaysInItsCells := by
  intro s w h m str col row hp hb hw hh hm
  obtain ⟨d, he, hev, hrun⟩ := expansion_drawText s str col row
  obtain ⟨u, v, hissue, hbusy, hstep, hv⟩ := exec_draw hp hb hw hh hm rfl rfl rfl he hev
  rw [hrun] at hv
  refine ⟨u, v, _, hissue, hbusy, hstep, hv, rfl, fun px py hin hout => ?_,
    fun a ha => read_drawPixels_beyond _ m (hb.eight_dvd hh) ha⟩
  refine pixRead_drawPixels_other _ m hin fun p hmem hat => hout ?_
  obtain ⟨k, hk, hcell⟩ := mem_textPixels hmem
  omega

/-- A text moved is the same writes moved (R243 T3). -/
theorem textPixels_add (pattern : List TextWrite) (n : Nat) (x0 y0 dx dy : Int) :
    textPixels pattern n (x0 + dx) (y0 + dy) =
      (textPixels pattern n x0 y0).map fun p => ⟨p.x + dx, p.y + dy, p.v⟩ := by
  rw [textPixels, textPixels, List.map_map]
  refine List.map_congr_left fun t _ => ?_
  rw [Function.comp_apply, PixelWrite.mk.injEq]
  exact ⟨by ring, by ring, rfl⟩

/-- Settles O21: by the form of a text write, whose cell and offsets are relative to the text's position. -/
theorem textPatternsFillCellsAndMove : Obligations.TextPatternsFillCellsAndMove :=
  fun pattern n x0 y0 dx dy => ⟨fun _ => mem_textPixels, textPixels_add pattern n x0 y0 dx dy⟩

/-! ## Wide glyphs (R246 to R248) -/

/-- A glyph step copies the glyph it finds, and on a miss changes nothing (R246, R247). -/
theorem DrawOp.run_glyph (rom : GlyphRom) (w h pages : Nat) (c : Char) (index : Nat) (col row : Int) (m : Memory) :
    (DrawOp.glyph c index col row).run rom w h pages m = (glyphOf rom c).elim m fun g =>
      drawPixels w h (blitPixels g.toList (col * 16 + 16 * index) (row * 16) 16 16) m := by
  rw [DrawOp.run_eq_drawPixels (fun _ => DrawOp.noConfusion), DrawOp.pixels]
  cases glyphOf rom c <;> rfl

/-- A glyph step reports a miss and nothing else (R247). -/
theorem DrawOp.events_glyph (rom : GlyphRom) (c : Char) (index : Nat) (col row : Int) :
    (DrawOp.glyph c index col row).events rom =
      (glyphOf rom c).elim [.glyphMiss (glyphKey c) index] fun _ => [] := by
  rw [DrawOp.events]
  cases glyphOf rom c <;> rfl

/-- The steps of `draw_wide_glyphs` leave the glyphs of the string in input order; those of the empty string leave the
framebuffer as it was (R241, R246). -/
theorem runAll_glyphDraws (rom : GlyphRom) (w h pages : Nat) (str : List Char) (col row : Int) (m : Memory) :
    DrawOp.runAll rom w h pages (glyphDraws str col row) m =
      str.zipIdx.foldl (fun m ci => (glyphOf rom ci.1).elim m fun g =>
        drawPixels w h (blitPixels g.toList (col * 16 + 16 * ci.2) (row * 16) 16 16) m) m := by
  unfold glyphDraws
  split
  case isTrue hstr => subst hstr; rfl
  case isFalse => simp only [DrawOp.runAll, List.foldl_map, DrawOp.run_glyph]

/-- They report the misses of the string in input order (R247). -/
theorem events_glyphDraws (rom : GlyphRom) (str : List Char) (col row : Int) :
    (glyphDraws str col row).flatMap (·.events rom) =
      str.zipIdx.flatMap fun ci => (glyphOf rom ci.1).elim [.glyphMiss (glyphKey ci.1) ci.2] fun _ => [] := by
  unfold glyphDraws
  split
  case isTrue hstr => subst hstr; rfl
  case isFalse => simp only [List.flatMap_map, DrawOp.events_glyph]

/-- Settles O23: the operation runs its DRAW steps to the end, and each is a glyph's. -/
theorem drawWideGlyphsRunsInInputOrder : Obligations.DrawWideGlyphsRunsInInputOrder := by
  intro s w h m str col row hp hb hw hh hm
  have hlen := length_glyphDraws str col row
  have hfb := runAll_glyphDraws s.rom w h (h / 8) str col row m
  have hev := events_glyphDraws s.rom str col row
  have he : expansion (.drawWideGlyphs str col row) s = some ((glyphDraws str col row).map .draw) :=
    congrArg some (glyphProgram_eq_map str col row)
  obtain ⟨d, ds, hds⟩ := List.exists_cons_of_length_pos (l := glyphDraws str col row) (by omega)
  rw [hds] at hlen hfb hev he
  obtain ⟨u, v, hissue, hbusy, hrun, hv⟩ := exec_draws hp hb hw hh hm rfl rfl rfl he
  rw [hlen] at hrun
  rw [hfb, hev] at hv
  exact ⟨u, v, hissue, hbusy, hrun, hv⟩

/-- Settles O24: the operation is one DRAW step, which copies the glyph as a bitmap of 16 by 16 pixels. -/
theorem glyphReadsBackExactly : Obligations.GlyphReadsBackExactly := by
  intro s w h c k g col row hp hb hw hh hk hg hx0 hx hy0 hy
  obtain ⟨m, hm⟩ := hb.fb_eq_some
  have hglyph : glyphOf s.rom c = some g := by simp only [glyphOf, hk, hg]
  have hev : (DrawOp.glyph c 0 col row).events s.rom = [] := by rw [DrawOp.events_glyph, hglyph]; rfl
  obtain ⟨u, v, hissue, -, hstep, prog, seq, hv⟩ :=
    exec_draw (i := .drawWideGlyphs [c] col row) hp hb hw hh hm rfl rfl rfl rfl hev
  rw [DrawOp.run_glyph, hglyph, Option.elim_some] at hv
  have hdrawn (x y : Int) : v.pixel x y = pixRead w h
      (drawPixels w h (blitPixels g.toList (col * 16 + 16 * (0 : Nat)) (row * 16) 16 16) m) x y :=
    State.pixel_eq_pixRead (by rw [hv]; exact hw) (by rw [hv]; exact hh) (by rw [hv]) x y
  refine ⟨u, v, hissue, hstep, by rw [hv, hp], by rw [hv], fun i r hi hr => ?_, fun px py hin hout => ?_⟩
  · rw [hdrawn, pixRead_blitPixels _ _ _ _ _ m (inside_iff.mpr (by omega)), if_pos (by omega)]
    have hcol : (16 * col + i - (col * 16 + 16 * (0 : Nat))).toNat = i := by omega
    have hrow : (16 * row + r - row * 16).toNat = r := by omega
    rw [hcol, hrow]
    exact congrArg some (srcPixel_glyph g i r)
  · rw [hdrawn, pixRead_blitPixels _ _ _ _ _ m hin, if_neg (by omega), State.pixel_eq_pixRead hw hh hm]

/-! ## One DRAW step (R32, R146, R182, R240) -/

/-- Everything a DRAW step that goes on can do. -/
theorem runDraw_cases {d : DrawOp} {s t : State} (ht : runDraw d s = .next t) :
    ∃ w h p m, s.width = some w ∧ s.height = some h ∧ s.pages = some p ∧ s.fb = some m ∧
      t = { s with fb := some (d.run s.rom w h p m), trace := s.trace ++ d.events s.rom, seq := s.seq + 1 } := by
  unfold runDraw at ht
  split at ht
  case h_1 w h p m hw hh hp hm => exact ⟨w, h, p, m, hw, hh, hp, hm, (Host.Outcome.next.inj ht).symm⟩
  case h_2 => cases ht

/-- A DRAW step that reports an event is a glyph's, and reports its miss (R247). -/
theorem DrawOp.events_ne_nil {rom : GlyphRom} {d : DrawOp} (hd : d.events rom ≠ []) :
    ∃ c i col row, d = .glyph c i col row ∧ glyphOf rom c = none ∧ d.events rom = [.glyphMiss (glyphKey c) i] := by
  cases d with
  | glyph c i col row =>
    rw [events_glyph] at hd ⊢
    cases hg : glyphOf rom c with
    | none => exact ⟨c, i, col, row, rfl, hg, rfl⟩
    | some g => rw [hg] at hd; exact absurd rfl hd
  | _ => exact absurd rfl hd

/-- Settles O25: a DRAW step other than a fill is its pixel writes, and a byte changes only by one that lands in it. -/
theorem drawStepTouchesOnlyTheFramebuffer : Obligations.DrawStepTouchesOnlyTheFramebuffer := by
  intro s t d ht
  obtain ⟨w, h, p, m, hw, hh, hp, hm, rfl⟩ := runDraw_cases ht
  refine ⟨w, h, p, m, hw, hh, hp, hm, rfl, DrawOp.events_ne_nil, fun hfill a ha => ?_, ?_, ?_, ?_⟩
  · simp only [State.fbByte, hm, Option.map_some, d.run_eq_drawPixels hfill]
    rw [read_drawPixels_other _ m ha]
  · rintro rfl
    exact ⟨hm.symm, List.append_nil _⟩
  · rintro c i col row rfl hmiss
    simp only [DrawOp.run_glyph, DrawOp.events_glyph, hmiss, Option.elim_none, hm, and_self]
  · rintro v rfl a ha
    simp only [State.fbByte, Option.map_some, DrawOp.run, Memory.read_filled, ha, if_true]

end Sys2Proof.Machine
end

section
/-! SUPPORT. The panel register commands: what a wire command leaves unchanged (R270), a whole command group sent on its own
(R105, R271 to R287, R292), and the opcodes that start a group while `sync = 1` (R291). -/

namespace Sys2Proof.Machine

/-! ## What a wire command or a frame leaves unchanged (R41, R42, R270) -/

/-- Settles O31: a Failed block's refusal writes the mark and no other field of the list, and a transfer keeps the variant of
its transport. -/
theorem wireInstructionsFrame : Obligations.WireInstructionsFrame := by
  intro s t i hf h
  rcases exec_wire_change hf h with ⟨hfailed, rfl⟩ | ⟨tr, tr', env, es, htr, hv, hreq, ht⟩
  · exact ⟨rfl, rfl, rfl, rfl, rfl, rfl, fun _ => rfl, rfl, rfl, rfl, absurd hfailed, rfl, rfl, rfl, ⟨_, rfl⟩,
      fun _ => id, fun r hr => ⟨r, hr, rfl, rfl⟩⟩
  · rw [ht]
    refine ⟨rfl, rfl, rfl, rfl, rfl, rfl, fun _ => rfl, rfl, rfl, rfl, fun _ => rfl, rfl, rfl, hreq, ⟨es, rfl⟩,
      fun a ha => ?_, fun r hr => ?_⟩
    · obtain rfl : tr = .twoWire a := Option.some.inj (htr.symm.trans ha)
      exact congrArg some (sameVariant_twoWire hv)
    · obtain rfl : tr = .fourWire r := Option.some.inj (htr.symm.trans hr)
      obtain ⟨r', hr', hsame⟩ := sameVariant_fourWire hv
      exact ⟨r', congrArg some hr', hsame⟩

/-! ## A command group sent on its own (R105, R271 to R287, R292) -/

/-- A whole group writes the register of its "Shadow" line (R292). -/
theorem panelAfter_wholeGroup {p : Panel} {c : Byte} {args : List Byte} (hc : argCount c = some args.length)
    (hs : p.sync = true) (hp : p.pend = none) :
    panelAfter (c :: args) p = { p with regs := applyGroup c args p.regs } := by
  cases args using List.reverseRecOn with
  | nil => simp [Panel.update, hs, hp, hc]
  | append_singleton args b =>
    rw [List.length_append, List.length_singleton] at hc
    have hopen : p.update c = { p with pend := some (c, []) } := by simp [Panel.update, hs, hp, hc]
    have hargs := panelAfter_pending (p := { p with pend := some (c, []) }) [] args hs rfl hc (by simp)
    rw [panelAfter_cons, hopen, panelAfter_append, hargs]
    simp [Panel.update, hs, hp, hc]

/-- A wire command whose bytes `c :: args` are all answered ok: its transfers, and what they make of the shadow, with `regs`
the registers after its "Shadow" line (R105, R270, R292; log 2). -/
theorem exec_wireCommand_ok {s : State} {t : Transport} {c : Byte} {regs : PanelRegs} (i : Instr)
    (args : List Byte) (hn : NotTerminal s) (ht : s.tr = some t) (ha : AnswersOk (c :: args).length s)
    (hf : i.format = .wireCommand) (he : encode i = c :: args) (hr : applyGroup c args s.panel.regs = regs) :
    (∃ env, exec i s = .next { s with
      env := env, tr := some (okTransport t false), trace := s.trace ++ okCommands t (c :: args)
      panel := panelAfter (c :: args) s.panel, seq := s.seq + (c :: args).length }) ∧
    (s.panel.sync = true → s.panel.pend = none → panelAfter (c :: args) s.panel = { s.panel with regs := regs }) ∧
    (s.panel.sync = false → panelAfter (c :: args) s.panel = s.panel) := by
  refine ⟨?_, fun hs hp => ?_, panelAfter_of_lost _⟩
  · rw [exec_wire_encode s hf, he]
    exact sendGroup_ok c args (halted_eq_none.mpr hn) ht ha
  · obtain ⟨c', args', he', hc⟩ := encode_wireCommand hf
    obtain ⟨rfl, rfl⟩ : c = c' ∧ args = args' := List.cons.inj (he.symm.trans he')
    rw [panelAfter_wholeGroup hc hs hp, hr]

/-- Settles O32: each command is its opcode alone, with the one-bit field in it where it has one (R113). -/
theorem oneByteCommands : Obligations.OneByteCommands := by
  intro s t v hn ht ha
  refine ⟨?_, exec_wireCommand_ok .cmdDispStartLine [] hn ht ha rfl rfl rfl, ?_, ?_,
    exec_wireCommand_ok .cmdEntireOn [] hn ht ha rfl rfl rfl, ?_⟩
  · cases v <;> exact exec_wireCommand_ok (.cmdDisp _) [] hn ht ha rfl rfl rfl
  · cases v <;> exact exec_wireCommand_ok (.cmdSegRemap _) [] hn ht ha rfl rfl rfl
  · cases v <;> exact exec_wireCommand_ok (.cmdComOutDir _) [] hn ht ha rfl rfl rfl
  · cases v <;> exact exec_wireCommand_ok (.cmdNormInv _) [] hn ht ha rfl rfl rfl

/-- Settles O33: each command is its opcode and one argument. -/
theorem oneArgumentCommands : Obligations.OneArgumentCommands := by
  intro s t a hn ht ha
  have sent (i : Instr) {c : Byte} {regs : PanelRegs} := exec_wireCommand_ok (c := c) (regs := regs) i [a] hn ht ha
  exact ⟨sent (.cmdMemAddr a) rfl rfl rfl, sent (.cmdMuxRatio a) rfl rfl rfl, sent (.cmdDispOffset a) rfl rfl rfl,
    sent (.cmdComPinCfg a) rfl rfl rfl, sent (.cmdDispClkDiv a) rfl rfl rfl, sent (.cmdPrecharge a) rfl rfl rfl,
    sent (.cmdVcomDesel a) rfl rfl rfl, sent (.cmdContrast a) rfl rfl rfl, sent (.cmdChargePump a) rfl rfl rfl⟩

/-- Settles O34: each command is its opcode and the two ends of its window. -/
theorem windowCommands : Obligations.WindowCommands := by
  intro s t a b hn ht ha
  exact ⟨exec_wireCommand_ok (.cmdColAddr a b) [a, b] hn ht ha rfl rfl rfl,
    exec_wireCommand_ok (.cmdPageAddr a b) [a, b] hn ht ha rfl rfl rfl⟩

/-! ## Where groups start (R291) -/

/-- With no group open a byte outside the opcode map loses `sync` (R292, log 11). -/
theorem argCount_ne_none_of_update {p : Panel} {b : Byte} (hp : p.pend = none) (h : (p.update b).sync = true) :
    argCount b ≠ none := by
  intro hb
  have hsync := sync_of_update h
  simp [Panel.update, hsync, hp, hb] at h

/-- Settles O57: the rest of the program ends with `sync = 1`, which a byte outside the opcode map would lose for good. -/
theorem groupsStartWithListedOpcodes : Obligations.GroupsStartWithListedOpcodes := by
  intro s b hs hphase hsync hpend hm
  obtain ⟨hend, -⟩ := hs.agree_next (running_iff.mpr hphase) hm hsync
  have hlisted : b ∈ opcodeBytes := (argCount_ne_none_iff b).mp
    (argCount_ne_none_of_update hpend (sync_of_panelAfter hend))
  simpa [opcodeBytes] using hlisted

end Sys2Proof.Machine
end

section
/-! SUPPORT. The reference panel (R288 to R290, non-normative): a window of its memory filled byte by byte, a window command,
and what a flush shows on it (log 27). -/

namespace Sys2Proof.Machine

/-! ## An image stored in a window (R289) -/

/-- The row and the column of byte `a * w + b` of an image in rows of `w` bytes. -/
theorem rowMajor_div_mod {w b : Nat} (a : Nat) (hb : b < w) : (a * w + b) / w = a ∧ (a * w + b) % w = b :=
  (Nat.div_mod_unique (by omega)).mpr ⟨by rw [Nat.mul_comm, Nat.add_comm], hb⟩

theorem rowMajor_injective {w a a' b b' : Nat} (hb : b < w) (hb' : b' < w) (h : a * w + b = a' * w + b') :
    a = a' ∧ b = b' := by
  obtain ⟨hdiv, hmod⟩ := rowMajor_div_mod a hb
  obtain ⟨hdiv', hmod'⟩ := rowMajor_div_mod a' hb'
  rw [h] at hdiv hmod
  exact ⟨hdiv.symm.trans hdiv', hmod.symm.trans hmod'⟩

theorem rowMajor_lt_iff {w a b n : Nat} (hb : b < w) : a * w + b < n * w ↔ a < n := by
  rw [← Nat.div_lt_iff_lt_mul (by omega), (rowMajor_div_mod a hb).1]

theorem RefPanel.store_ram (x0 x1 p0 p1 : Nat) (b : Byte) (p : RefPanel) (page : Fin 8) (column : Fin 128) :
    (p.store x0 x1 p0 p1 b).ram page column =
      if page.val = p.page ∧ column.val = p.column then b else p.ram page column := rfl

/-- The first `n` bytes of an image stored in the window of `pages` pages, from page 0, and `w` columns from `x0`. -/
def RefPanel.storeImage (x0 w pages : Nat) (image : Nat → Byte) (n : Nat) (p : RefPanel) : RefPanel :=
  ((List.range n).map image).foldl (fun p b => p.store x0 (x0 + w - 1) 0 (pages - 1) b) p

/-- The pointer is where byte `n` of the image goes. -/
def RefPanel.PointsAt (x0 w n : Nat) (p : RefPanel) : Prop :=
  x0 ≤ p.column ∧ p.column < x0 + w ∧ p.page * w + (p.column - x0) = n

section
variable {x0 w pages : Nat} (image : Nat → Byte) {p : RefPanel}

theorem RefPanel.storeImage_succ (n : Nat) : p.storeImage x0 w pages image (n + 1) =
    (p.storeImage x0 w pages image n).store x0 (x0 + w - 1) 0 (pages - 1) (image n) := by
  simp [RefPanel.storeImage, List.range_succ]

/-- A store that is not the window's last moves the pointer to the next byte's place: along the row, or to the start of the
next one (R289). -/
theorem RefPanel.PointsAt.store {n : Nat} (b : Byte) (hp : p.PointsAt x0 w n) (hn : n + 1 < pages * w) :
    (p.store x0 (x0 + w - 1) 0 (pages - 1) b).PointsAt x0 w (n + 1) := by
  obtain ⟨hlow, hhigh, hat⟩ := hp
  by_cases hend : p.column + 1 = x0 + w
  · have hnext : (p.page + 1) * w = n + 1 := by rw [Nat.add_mul]; omega
    have hpage : p.page + 1 < pages := Nat.lt_of_mul_lt_mul_right (by rw [hnext]; exact hn)
    have hwrap : p.column + 1 > x0 + w - 1 := by omega
    have hstay : ¬p.page + 1 > pages - 1 := by omega
    simp only [RefPanel.PointsAt, RefPanel.store, if_pos hwrap, if_neg hstay]
    omega
  · have hrow : ¬p.column + 1 > x0 + w - 1 := by omega
    simp only [RefPanel.PointsAt, RefPanel.store, if_neg hrow]
    omega

theorem RefPanel.storeImage_pointsAt (hp : p.PointsAt x0 w 0) {n : Nat} (hn : n < pages * w) :
    (p.storeImage x0 w pages image n).PointsAt x0 w n := by
  induction n with
  | zero => exact hp
  | succ n ih =>
    rw [RefPanel.storeImage_succ]
    exact (ih (Nat.lt_of_succ_lt hn)).store _ hn

/-- After `n` bytes the window's first `n` places hold them, and every other cell is as it was (R289). -/
theorem RefPanel.storeImage_ram (hp : p.PointsAt x0 w 0) {n : Nat} (hn : n ≤ pages * w) (page : Fin 8) (column : Fin 128) :
    (p.storeImage x0 w pages image n).ram page column =
      if x0 ≤ column.val ∧ column.val < x0 + w ∧ page.val * w + (column.val - x0) < n then
        image (page.val * w + (column.val - x0))
      else p.ram page column := by
  induction n with
  | zero => simp [RefPanel.storeImage]
  | succ n ih =>
    obtain ⟨hlow, hhigh, hat⟩ := RefPanel.storeImage_pointsAt image hp (Nat.lt_of_succ_le hn)
    rw [RefPanel.storeImage_succ, RefPanel.store_ram, ih (Nat.le_of_succ_le hn)]
    generalize p.storeImage x0 w pages image n = q at hlow hhigh hat
    by_cases hhere : page.val = q.page ∧ column.val = q.column
    · obtain ⟨hpage, hcolumn⟩ := hhere
      rw [if_pos ⟨hpage, hcolumn⟩, hpage, hcolumn, hat, if_pos ⟨hlow, hhigh, Nat.lt_succ_self n⟩]
    · rw [if_neg hhere]
      refine if_congr (and_congr_right fun h1 => and_congr_right fun h2 => ?_) rfl rfl
      have hne : page.val * w + (column.val - x0) ≠ n := by
        intro hn
        obtain ⟨hpage, hcolumn⟩ := rowMajor_injective (by omega) (by omega) (hn.trans hat.symm)
        exact hhere ⟨hpage, by omega⟩
      omega

/-- A whole image: byte `(page, x)` at its page and at column `x0 + x`, and no other cell changes (R289). -/
theorem RefPanel.storeImage_ram_all (hp : p.PointsAt x0 w 0) (page : Fin 8) (column : Fin 128) :
    (p.storeImage x0 w pages image (pages * w)).ram page column =
      if page.val < pages ∧ x0 ≤ column.val ∧ column.val < x0 + w then image (page.val * w + (column.val - x0))
      else p.ram page column := by
  rw [RefPanel.storeImage_ram image hp le_rfl]
  refine if_congr ?_ rfl rfl
  constructor
  · rintro ⟨hlow, hhigh, hat⟩
    exact ⟨(rowMajor_lt_iff (by omega)).mp hat, hlow, hhigh⟩
  · rintro ⟨hpage, hlow, hhigh⟩
    exact ⟨hlow, hhigh, (rowMajor_lt_iff (by omega)).mpr hpage⟩

end

/-! ## The flush window (R210, R289) -/

/-- A window command takes its window's start as the pointer's coordinate (R289, log 27). -/
theorem RefPanel.command_group2 {p : RefPanel} {r : PanelRegs} (c a b : Byte) (hp : p.parser = { regs := r })
    (hc : argCount c = some 2) :
    [c, a, b].foldl (fun p b => p.command b) p = { p with
      parser := { regs := applyGroup c [a, b] r }
      column := if c = 0x21 then a.toNat else p.column
      page := if c = 0x22 then a.toNat else p.page } := by
  simp [RefPanel.command, Panel.update, hp, hc]

/-- The panel after the flush window: the window is set, and the pointer stands at its start (R210, R289). -/
def RefPanel.windowed (w pages : Nat) (p : RefPanel) : RefPanel :=
  { p with parser := panelAfter (windowBytes w pages) p.parser, column := (colStart w).toNat, page := 0 }

theorem RefPanel.command_windowBytes {p : RefPanel} (w pages : Nat) (hs : p.parser.sync = true)
    (hp : p.parser.pend = none) : (windowBytes w pages).foldl (fun p b => p.command b) p = p.windowed w pages := by
  have hregs := panel_eq_regs hs hp
  have hgroups : windowBytes w pages = [0x21, colStart w, colEnd w] ++ [0x22, 0x00, byteOf (pages - 1)] := rfl
  rw [RefPanel.windowed, hregs, panelAfter_window, hgroups, List.foldl_append,
    RefPanel.command_group2 0x21 _ _ hregs (by decide), RefPanel.command_group2 0x22 _ _ rfl (by decide)]
  rfl

/-- A data block after the flush window of a supported geometry is stored as an image in that window (R209, R289). -/
theorem RefPanel.block_windowed {p : RefPanel} {w h : Nat} (m : Memory) (hw : w = 64 ∨ w = 128) (hh : h = 32 ∨ h = 64)
    (hs : p.parser.sync = true) (hp : p.parser.pend = none) :
    (p.windowed w (h / 8)).block (m.bytes (h / 8 * w)) =
      (p.windowed w (h / 8)).storeImage (colShift w) w (h / 8) m.read (h / 8 * w) := by
  have hlow : (colStart w).toNat = colShift w := by rcases hw with rfl | rfl <;> rfl
  have hhigh : (colEnd w).toNat = colShift w + w - 1 := by rcases hw with rfl | rfl <;> rfl
  have hlast : (byteOf (h / 8 - 1)).toNat = h / 8 - 1 := by rcases hh with rfl | rfl <;> rfl
  have hparser : (p.windowed w (h / 8)).parser = _ :=
    (congrArg (panelAfter _) (panel_eq_regs hs hp)).trans (panelAfter_window w (h / 8) p.parser.regs)
  simp only [RefPanel.block, hparser, hlow, hhigh, hlast]
  rfl

/-! ## The transfers of a flush (R184, R210, R211) -/

theorem carries_okCommands {es : List Event} {xs : List Xfer} (t : Transport) (bs : List Byte) (h : Carries es xs) :
    Carries (okCommands t bs ++ es) (bs.map (.cmd · .ok) ++ xs) := by
  induction bs with
  | nil => exact h
  | cons b bs ih =>
    rw [okCommands_cons, List.append_assoc]
    exact carries_ok_cmd t b _ _ ih

theorem ctrace_flushEvents (t : Transport) (w pages : Nat) (m : Memory) :
    ctrace (flushEvents t w pages m) = (windowBytes w pages).map (.cmd · .ok) ++ [.data (m.bytes (pages * w)) .ok] := by
  rw [flushEvents, List.append_assoc]
  exact carries_okCommands t _ (carries_ok_data t _ _ _ (carries_one_result _ _)) none

/-- What a panel holds after a flush: the framebuffer's image in the flush window (R210, R211, R289). -/
theorem RefPanel.after_flushEvents {p : RefPanel} {w h : Nat} (t : Transport) (m : Memory) (hw : w = 64 ∨ w = 128)
    (hh : h = 32 ∨ h = 64) (hs : p.parser.sync = true) (hp : p.parser.pend = none) :
    p.after (flushEvents t w (h / 8) m) =
      (p.windowed w (h / 8)).storeImage (colShift w) w (h / 8) m.read (h / 8 * w) := by
  rw [RefPanel.after, ctrace_flushEvents, List.foldl_append, List.foldl_map]
  exact (congrArg (RefPanel.block _) (RefPanel.command_windowBytes w (h / 8) hs hp)).trans
    (RefPanel.block_windowed m hw hh hs hp)

theorem RefPanel.windowed_pointsAt {w : Nat} (pages : Nat) (p : RefPanel) (hw : w = 64 ∨ w = 128) :
    (p.windowed w pages).PointsAt (colShift w) w 0 := by
  rcases hw with rfl | rfl <;> simp [RefPanel.windowed, RefPanel.PointsAt, colStart, colShift, byteOf]

/-- A pixel of the image, read from the panel's memory in the row's page and at the pixel's column (R71, R72, R288). -/
theorem RefPanel.pixel_eq_pixRead {p : RefPanel} {w h x : Nat} {m : Memory} {row : Fin 64} {column : Fin 128}
    (hrow : row.val < h) (hx : x < w)
    (hcell : p.ram ⟨row.val / 8, by omega⟩ column = m.read (row.val / 8 * w + x)) :
    some (p.pixel row column) = pixRead w h m x row.val := by
  rw [pixRead_inside m (inside_iff.mpr (by omega)), RefPanel.pixel, hcell]
  rfl

/-- Settles O60: the flush sets the window and sends the image, which fills the window and no other cell of the panel. -/
theorem flushShowsThePicture : Obligations.FlushShowsThePicture := by
  rintro s w h m t panel hphase hb hw hh hm ht hs hp hparser ⟨later, ha⟩
  obtain ⟨u, env, hissue, -, hrun, -⟩ := exec_flush_ok hphase hw (hb.pages_eq hh) hm ht ha
  have h8 := hb.eight_dvd hh
  obtain ⟨w', h', _, _, hw', hh', -, -, -, hws, hhs, -⟩ := hb
  obtain rfl : w' = w := Option.some.inj (hw'.symm.trans hw)
  obtain rfl : h' = h := Option.some.inj (hh'.symm.trans hh)
  rw [← hparser] at hs hp
  have hram (page : Fin 8) (column : Fin 128) := RefPanel.storeImage_ram_all m.read (pages := h' / 8)
    (panel.windowed_pointsAt (h' / 8) hws) page column
  rw [← RefPanel.after_flushEvents t m hws hhs hs hp] at hram
  refine ⟨u, _, flushEvents t w' (h' / 8) m, hissue, hrun, rfl, hram, fun row column hrow hlow hhigh => ?_⟩
  refine RefPanel.pixel_eq_pixRead hrow (by omega) ((hram _ column).trans (if_pos ⟨?_, hlow, hhigh⟩))
  dsimp only
  omega

end Sys2Proof.Machine
end

section
/-! SUPPORT. How operations end: a transfer answered fail ends its operation at that step (R322, R328, R370), and a
terminal phase lets none begin (R339). -/

namespace Sys2Proof.Machine

/-! ## The error end of an operation (R220, R328) -/

theorem opName_of_op {s : State} {i : Instr} (h : s.op = some i) : s.opName = opNameOf i := by simp only [State.opName, h]

theorem afterError_of_running {p : Phase} (h : p.running = true) :
    p.afterError = if p = .constructing then .failed else .ready := by
  rcases running_iff.mp h with rfl | rfl <;> rfl

/-- A micro-operation that leaves the phase of an error end is the step: no completion check follows it. -/
theorem step_errorEnd {s u : State} {m : MicroOp} (hr : s.phase.running = true) (hm : s.prog[s.seq]? = some m)
    (hu : runMicro m s = .next u) (hp : u.phase = s.phase.afterError) : step s = .next u := by
  have hidle : u.phase.running = false := by
    rw [hp]
    rcases running_iff.mp hr with h | h <;> rw [h] <;> rfl
  rw [step_running hr hm hu, finish_idle hidle]

/-- Settles O48: the step is the command transfer's own failure. -/
theorem commandFailureEndsTheOperation : Obligations.CommandFailureEndsTheOperation := by
  intro s t i b hp ho ht hm ha
  have hr : s.phase.running = true := running_iff.mpr hp
  have hu := runCmd_eq b ht (halted_of_running hr)
  rw [sendCommand_fail b ht ha] at hu
  have hstep := step_errorEnd hr hm hu rfl
  rw [opName_of_op ho, afterError_of_running hr] at hstep
  exact ⟨_, hstep⟩

/-- Settles O49: the step is the data transfer's own failure. -/
theorem dataFailureEndsTheOperation : Obligations.DataFailureEndsTheOperation := by
  intro s t i w p m hp ho ht hw hpg hfb hm ha
  have hr : s.phase.running = true := running_iff.mpr hp
  have hu := runData_eq (flushPayload_eq hw hpg hfb) ht (halted_of_running hr)
  rw [dataTransfer_fail _ ht ha] at hu
  have hstep := step_errorEnd hr hm hu rfl
  rw [opName_of_op ho, afterError_of_running hr] at hstep
  exact ⟨_, hstep⟩

/-! ## The terminal phases (R339) -/

/-- The phases that stop with a fault are Hung and Refused. -/
theorem halted_fault {s : State} {f : Fault} (h : s.halted = some (.fault f)) :
    (s.phase = .hung ∧ f = .hung) ∨ (s.phase = .refused ∧ f = .refusedPhase) := by
  unfold State.halted at h
  cases hp : s.phase <;> simp_all

/-- In Hung and Refused a host operation stops as every transfer does: its issue looks at the phase first (R326). -/
theorem exec_host_halted {i : Instr} {s : State} {f : Fault} (hf : i.format = .hostRecord)
    (h : s.halted = some (.fault f)) : exec i s = .fault f := by
  cases hc : isConstruct i with
  | false =>
    rw [exec_host s hf hc]
    rcases halted_fault h with ⟨hp, rfl⟩ | ⟨hp, rfl⟩ <;> simp only [issueReady, hp]
  | true =>
    cases i <;> simp [isConstruct, opNameOf] at hc
    rcases halted_fault h with ⟨hp, rfl⟩ | ⟨hp, rfl⟩ <;> simp only [exec, execConstruct, hp]

/-- A block stopped by a fault has no step, and runs no instruction that is put to it. -/
theorem step_exec_halted {s : State} {f : Fault} (i : Instr) (h : s.halted = some (.fault f)) :
    step s = .fault f ∧ exec i s = .fault f := by
  constructor
  · rcases halted_fault h with ⟨hp, rfl⟩ | ⟨hp, rfl⟩ <;> simp only [step, stepBlock, hp]
  · by_cases hf : i.format = .hostRecord
    · exact exec_host_halted hf h
    · exact exec_wire_halted hf h

/-- Settles O7: Hung and Refused stop every step and instruction; in Failed construct too is in the wrong phase. -/
theorem terminalPhases : Obligations.TerminalPhases := by
  refine ⟨fun s i hp => ?_, fun s i hp => ?_, fun s i hp hf => ?_⟩
  · exact step_exec_halted i (by simp only [State.halted, hp])
  · exact step_exec_halted i (by simp only [State.halted, hp])
  · by_cases hc : ∃ w h e t, i = .construct w h e t
    · rw [wrongPhaseIsRefused s i hf (.inl ⟨hc, .inr hp⟩), hp]
    · push Not at hc
      rw [wrongPhaseIsRefused s i hf (.inr ⟨hc, .inr hp⟩), hp]

end Sys2Proof.Machine
end

section
/-! SUPPORT. The length of every operation's program, its step count where every transfer is answered ok (R376). -/

namespace Sys2Proof.Machine

/-- One transfer a byte (R105). -/
@[simp] theorem length_cmds (bytes : List Byte) : (cmds bytes).length = bytes.length := List.length_map _

/-- The bytes of `INIT` and its COMMIT (R205). -/
theorem length_initProgram (h : Nat) (e : Bool) : (initProgram h e).length = 26 := by
  have hbytes : (initBytes h e).length = 25 := rfl
  simp [initProgram, hbytes]

/-- The bytes of the window groups and the data block (R210). -/
theorem length_flushProgram (w pages : Nat) : (flushProgram w pages).length = 7 := by
  have hbytes : (windowBytes w pages).length = 6 := rfl
  simp [flushProgram, hbytes]

/-- The setup, CHECK_GEOMETRY and ALLOC, then initialisation and flush (R201). -/
theorem length_constructProgram (a : Bool) (w h : Int) (e : Bool) (k : TransportKind) :
    (constructProgram a w h e k).length = (setupProgram a k).length + 35 := by
  simp [constructProgram, length_initProgram, length_flushProgram]

theorem length_of_initProgramOf {s : State} {p : List MicroOp} (h : initProgramOf s = some p) : p.length = 26 := by
  unfold initProgramOf at h
  split at h
  · rw [← Option.some.inj h, length_initProgram]
  · cases h

theorem length_of_flushProgramOf {s : State} {p : List MicroOp} (h : flushProgramOf s = some p) : p.length = 7 := by
  unfold flushProgramOf at h
  split at h
  · rw [← Option.some.inj h, length_flushProgram]
  · cases h

/-- One step a character, and one for the empty string (R241, R246). -/
theorem length_glyphProgram (str : List Char) (col row : Int) :
    (glyphProgram str col row).length = max 1 str.length := by
  rw [glyphProgram_eq_map, List.length_map, length_glyphDraws]

/-- Settles O47, operation by operation; a wire command or frame has no program. -/
theorem programLengths : Obligations.ProgramLengths := by
  intro s i p h
  cases i
  case construct w ht e k =>
    obtain rfl := Option.some.inj h
    rw [length_constructProgram]
    cases k <;> rfl
  case initSequence => exact length_of_initProgramOf h
  case flush => exact length_of_flushProgramOf h
  case drawWideGlyphs str col row =>
    obtain rfl := Option.some.inj h
    exact length_glyphProgram str col row
  case drawText str col row =>
    obtain rfl := Option.some.inj h
    split <;> rfl
  case powerOn | powerOff | setContrast | setInverted | setPixel | blit | clear =>
    obtain rfl := Option.some.inj h
    rfl
  all_goals cases h

end Sys2Proof.Machine
end
